-- ==== Sys2Proof/Word.lean ====
section
/-! DEFINITION. The byte and the word of the machine (00_scope.md R10) and the one narrowing of exact integers. -/

namespace Sys2Proof

/-- R10: a byte is 8 bits. -/
abbrev Byte := BitVec 8

/-- R10: a word is 16 bits; registers, immediates, addresses and branch targets are words. -/
abbrev Word := BitVec 16

/-- R10 `wrap16(n)`: the word whose unsigned value is `n mod 65536`. -/
def wrap16 (n : Int) : Word := BitVec.ofInt 16 n

end Sys2Proof
end

