-- ==== Sys2Proof/Machine/Bits.lean ====
section
/-! DEFINITION. Byte order and bit fields: the halves of a word (20_memory.md R50) and the two fields of an operand specifier
byte (30_encoding.md R81, R83). -/

namespace Sys2Proof

/-- R50: the low byte `w[7:0]`, at the lower address. -/
def loByte (w : Word) : Byte := w.extractLsb' 0 8

/-- R50: the high byte `w[15:8]`, at the higher address. -/
def hiByte (w : Word) : Byte := w.extractLsb' 8 8

/-- R50, R60: the word `hi : lo`. -/
def wordOfBytes (lo hi : Byte) : Word := hi ++ lo

/-- R81: the field `mode = s[7:4]` of a specifier byte. -/
def specMode (s : Byte) : BitVec 4 := s.extractLsb' 4 4

/-- R81: the field `reg = s[3:0]` of a specifier byte. -/
def specReg (s : Byte) : BitVec 4 := s.extractLsb' 0 4

/-- R81: the specifier byte of a mode and a register field. -/
def specByte (mode reg : BitVec 4) : Byte := mode ++ reg

/-- R99: byte `k` of an instruction's bits, byte 0 being the least significant. -/
def byteOfBits (w k : Nat) : Byte := BitVec.ofNat 8 (w >>> (8 * k))

end Sys2Proof
end

