-- ==== Sys2Proof/Syntax.lean ====
section
/-! DEFINITION. The abstract syntax: the eight registers, the operand forms and one constructor for each of the 33 rows of
spec/opcode_table.json (30_encoding.md R82, R83, R84, R93, R99). -/

namespace Sys2Proof

/-- R21: the eight registers that an operand can name, in the order of their numbers 0 to 7. -/
inductive Reg where
  | ax | bx | cx | dx | ex | fx | fp | sp
  deriving DecidableEq, Repr

/-- R83, R90: the three operand forms that name a word of memory. -/
inductive MemRef where
  /-- mode 2, `[label]` -/
  | abs (addr : Word)
  /-- mode 3, `[reg]` -/
  | ind (r : Reg)
  /-- mode 4, `[FP+n]`, `[FP-n]` -/
  | fpRel (disp : Word)
  deriving DecidableEq, Repr

/-- R84: an operand of class SRC; all five modes are legal. -/
inductive Src where
  | reg (r : Reg)
  | imm (v : Word)
  | mem (m : MemRef)
  deriving DecidableEq, Repr

/-- R84: an operand of class DST; "in a DST position mode `IMM` is illegal", so the type has no immediate. -/
inductive Dst where
  | reg (r : Reg)
  | mem (m : MemRef)
  deriving DecidableEq, Repr

/-- A destination that is also read (`ADD`, `SUB`, `INC`, `DEC`: R84). -/
def Dst.toSrc : Dst → Src
  | .reg r => .reg r
  | .mem m => .mem m

/-- R82, R99: one constructor for each row of the opcode table. The twelve rows `SYSCALL_<name>` refine the row
`SYSCALL`, so `syscall n` stands for the bytes `50 n` that none of the twelve takes (`WellFormed`, log 11). -/
inductive Instr where
  | halt
  | mov (dst : Dst) (src : Src)
  | add (dst : Dst) (src : Src)
  | sub (dst : Dst) (src : Src)
  | mul (src : Src)
  | inc (dst : Dst)
  | dec (dst : Dst)
  | cmp (a b : Src)
  | jmp (target : Word)
  | je (target : Word)
  | jne (target : Word)
  | jl (target : Word)
  | jle (target : Word)
  | jg (target : Word)
  | jge (target : Word)
  | loop (target : Word)
  | call (target : Word)
  | ret
  | push (src : Src)
  | pop (dst : Dst)
  | syscall (sysno : Byte)
  | sysAtoi
  | sysPrintInt
  | sysPrintChar
  | sysPrintString
  | sysExit
  | sysReadFile
  | sysClearScreen
  | sysSetColor
  | sysDrawRect
  | sysDrawCircle
  | sysDrawLine
  | sysPaintDisplay
  deriving DecidableEq, Repr

end Sys2Proof
end

