-- ==== Sys2Proof/WellFormed.lean ====
section
/-! DEFINITION. The one check that the types of Syntax.lean do not make: the row `SYSCALL` of the opcode table stands for
the numbers that no `SYSCALL_<name>` row takes (30_encoding.md R93, R99). -/

namespace Sys2Proof

/-- R93: `sysno` values `0x00` to `0x0B` are the twelve named syscalls; "every other value, `0x0C` to `0xFF`, decodes as a
well-formed `SYSCALL`". -/
abbrev UnassignedSysno (n : Byte) : Prop := 0x0C ≤ n.toNat

/-- An instruction that some bytes decode to. Immediate destinations and register numbers above 7 cannot be written at all. -/
def Instr.WellFormed : Instr → Prop
  | .syscall n => UnassignedSysno n
  | _ => True

/-- `WellFormed` as a Bool, so that a concrete instruction can be checked by evaluation. -/
def Instr.wellFormed : Instr → Bool
  | .syscall n => decide (UnassignedSysno n)
  | _ => true

/-- The two forms of the check agree. -/
theorem Instr.wellFormed_iff (i : Instr) : i.wellFormed = true ↔ i.WellFormed := by
  cases i <;> simp [Instr.wellFormed, Instr.WellFormed]

end Sys2Proof
end

