-- ==== Sys2Proof/Decode.lean ====
section
/-! DEFINITION. The decoder of 30_encoding.md R86, R87, R93, total on any list of bytes and rejecting by name, the encoder
of R81 to R85, and the lengths of R81. The bytes given to `decode` are those that `Fetch8` can deliver from `pc` on, in
address order; the list ends where the code region does, so a missing byte is `truncated`. -/

namespace Sys2Proof

/-- Why bytes do not decode. -/
inductive DecodeError where
  /-- R59, R86: a byte is needed that `Fetch8` cannot deliver (`ImageOverrun`). -/
  | truncated
  /-- R88: an unassigned opcode byte (`IllegalInstruction`). -/
  | badOpcode (op : Byte)
  /-- R83, R89: a specifier byte outside the nineteen legal values (`IllegalInstruction`). -/
  | badSpecifier (s : Byte)
  /-- R84, R89: an immediate in a DST position (`IllegalInstruction`). -/
  | immediateDestination
  deriving DecidableEq, Repr

/-- R84: the class of an operand position. -/
inductive OperandClass where
  | src | dst
  deriving DecidableEq, Repr

/-- R21: the register of a number; 8 to 15 name none. -/
def Reg.ofNumber (n : BitVec 4) : Option Reg :=
  match n with
  | 0#4 => some .ax
  | 1#4 => some .bx
  | 2#4 => some .cx
  | 3#4 => some .dx
  | 4#4 => some .ex
  | 5#4 => some .fx
  | 6#4 => some .fp
  | 7#4 => some .sp
  | _ => none

/-- R21: the number of a register. -/
def Reg.number : Reg → BitVec 4
  | .ax => 0#4
  | .bx => 1#4
  | .cx => 2#4
  | .dx => 3#4
  | .ex => 4#4
  | .fx => 5#4
  | .fp => 6#4
  | .sp => 7#4

/-- R60 `Fetch16`: two bytes, the low one first. -/
def takeWord : List Byte → Except DecodeError (Word × List Byte)
  | lo :: hi :: rest => .ok (wordOfBytes lo hi, rest)
  | _ => .error .truncated

/-- R87 `DecodeOperand(a, class)`. The specifier byte is judged before its payload is taken. -/
def decodeOperand (cls : OperandClass) : List Byte → Except DecodeError (Src × List Byte)
  | [] => .error .truncated
  | s :: rest =>
    match specMode s with
    | 0#4 =>
      match Reg.ofNumber (specReg s) with
      | none => .error (.badSpecifier s)
      | some r => .ok (.reg r, rest)
    | 1#4 =>
      if specReg s ≠ 0#4 then .error (.badSpecifier s)
      else if cls = .dst then .error .immediateDestination
      else do
        let (v, rest) ← takeWord rest
        .ok (.imm v, rest)
    | 2#4 =>
      if specReg s ≠ 0#4 then .error (.badSpecifier s)
      else do
        let (v, rest) ← takeWord rest
        .ok (.mem (.abs v), rest)
    | 3#4 =>
      match Reg.ofNumber (specReg s) with
      | none => .error (.badSpecifier s)
      | some r => .ok (.mem (.ind r), rest)
    | 4#4 =>
      if specReg s ≠ 0#4 then .error (.badSpecifier s)
      else do
        let (d, rest) ← takeWord rest
        .ok (.mem (.fpRel d), rest)
    | _ => .error (.badSpecifier s)

/-- R87 with class SRC. -/
def decodeSrc (bs : List Byte) : Except DecodeError (Src × List Byte) :=
  decodeOperand .src bs

/-- R87 with class DST: `decodeOperand .dst` never answers an immediate. -/
def decodeDst (bs : List Byte) : Except DecodeError (Dst × List Byte) := do
  let (o, rest) ← decodeOperand .dst bs
  match o with
  | .reg r => .ok (.reg r, rest)
  | .mem m => .ok (.mem m, rest)
  | .imm _ => .error .immediateDestination

/-- Format FT (R81): the 16-bit target. -/
def decodeTarget (mk : Word → Instr) (bs : List Byte) : Except DecodeError (Instr × List Byte) := do
  let (t, rest) ← takeWord bs
  .ok (mk t, rest)

/-- Format F1 (R81) with a SRC operand. -/
def decodeOneSrc (mk : Src → Instr) (bs : List Byte) : Except DecodeError (Instr × List Byte) := do
  let (o, rest) ← decodeSrc bs
  .ok (mk o, rest)

/-- Format F1 (R81) with a DST operand. -/
def decodeOneDst (mk : Dst → Instr) (bs : List Byte) : Except DecodeError (Instr × List Byte) := do
  let (o, rest) ← decodeDst bs
  .ok (mk o, rest)

/-- Format F2 (R81) with a DST and then a SRC operand. -/
def decodeDstSrc (mk : Dst → Src → Instr) (bs : List Byte) : Except DecodeError (Instr × List Byte) := do
  let (o1, rest) ← decodeDst bs
  let (o2, rest) ← decodeSrc rest
  .ok (mk o1 o2, rest)

/-- Format F2 (R81) with two SRC operands. -/
def decodeSrcSrc (mk : Src → Src → Instr) (bs : List Byte) : Except DecodeError (Instr × List Byte) := do
  let (o1, rest) ← decodeSrc bs
  let (o2, rest) ← decodeSrc rest
  .ok (mk o1 o2, rest)

/-- R93: the `sysno` byte selects the syscall; `0x0C` to `0xFF` decode as a well-formed `SYSCALL`. -/
def decodeSysno (n : Byte) : Instr :=
  match n with
  | 0x00#8 => .sysAtoi
  | 0x01#8 => .sysPrintInt
  | 0x02#8 => .sysPrintChar
  | 0x03#8 => .sysPrintString
  | 0x04#8 => .sysExit
  | 0x05#8 => .sysReadFile
  | 0x06#8 => .sysClearScreen
  | 0x07#8 => .sysSetColor
  | 0x08#8 => .sysDrawRect
  | 0x09#8 => .sysDrawCircle
  | 0x0A#8 => .sysDrawLine
  | 0x0B#8 => .sysPaintDisplay
  | n => .syscall n

/-- Format FS (R81): the `sysno` byte. -/
def decodeSystem : List Byte → Except DecodeError (Instr × List Byte)
  | n :: rest => .ok (decodeSysno n, rest)
  | [] => .error .truncated

/-- R86 `Decode`: the instruction at the head of the bytes and the bytes after it. -/
def decode : List Byte → Except DecodeError (Instr × List Byte)
  | [] => .error .truncated
  | op :: rest =>
    match op with
    | 0x01#8 => .ok (.halt, rest)
    | 0x10#8 => decodeDstSrc .mov rest
    | 0x20#8 => decodeDstSrc .add rest
    | 0x21#8 => decodeDstSrc .sub rest
    | 0x22#8 => decodeOneSrc .mul rest
    | 0x23#8 => decodeOneDst .inc rest
    | 0x24#8 => decodeOneDst .dec rest
    | 0x25#8 => decodeSrcSrc .cmp rest
    | 0x30#8 => decodeTarget .jmp rest
    | 0x31#8 => decodeTarget .je rest
    | 0x32#8 => decodeTarget .jne rest
    | 0x33#8 => decodeTarget .jl rest
    | 0x34#8 => decodeTarget .jle rest
    | 0x35#8 => decodeTarget .jg rest
    | 0x36#8 => decodeTarget .jge rest
    | 0x37#8 => decodeTarget .loop rest
    | 0x38#8 => decodeTarget .call rest
    | 0x39#8 => .ok (.ret, rest)
    | 0x40#8 => decodeOneSrc .push rest
    | 0x41#8 => decodeOneDst .pop rest
    | 0x50#8 => decodeSystem rest
    | op => .error (.badOpcode op)

/-- R80: the longest instruction has 7 bytes. -/
def maxInstrBytes : Nat := 7

/-- R99: the bytes of an instruction given as a number, the first byte the least significant; bits from `nbits` on are 0. -/
def bytesOfBits (nbits w : Nat) : List Byte :=
  (List.range maxInstrBytes).map (byteOfBits (w % 2 ^ nbits))

/-- The instruction that the decoder reads from an opcode-table word (R99). -/
def decodeTableWord (nbits w : Nat) : Option Instr :=
  match decode (bytesOfBits nbits w) with
  | .ok (i, _) => some i
  | .error _ => none

/-! ### The encoder -/

/-- A 16-bit field, low byte first (R50, R85). -/
def encodeWord (w : Word) : List Byte := [loByte w, hiByte w]

/-- R83: modes 2, 3 and 4. -/
def encodeMemRef : MemRef → List Byte
  | .abs v => specByte 2 0 :: encodeWord v
  | .ind r => [specByte 3 r.number]
  | .fpRel d => specByte 4 0 :: encodeWord d

/-- R83: a SRC operand. -/
def encodeSrc : Src → List Byte
  | .reg r => [specByte 0 r.number]
  | .imm v => specByte 1 0 :: encodeWord v
  | .mem m => encodeMemRef m

/-- R83: a DST operand. -/
def encodeDst : Dst → List Byte
  | .reg r => [specByte 0 r.number]
  | .mem m => encodeMemRef m

/-- R81, R82, R93: the bytes of an instruction in address order. -/
def encode : Instr → List Byte
  | .halt => [0x01]
  | .mov d s => 0x10 :: (encodeDst d ++ encodeSrc s)
  | .add d s => 0x20 :: (encodeDst d ++ encodeSrc s)
  | .sub d s => 0x21 :: (encodeDst d ++ encodeSrc s)
  | .mul s => 0x22 :: encodeSrc s
  | .inc d => 0x23 :: encodeDst d
  | .dec d => 0x24 :: encodeDst d
  | .cmp a b => 0x25 :: (encodeSrc a ++ encodeSrc b)
  | .jmp t => 0x30 :: encodeWord t
  | .je t => 0x31 :: encodeWord t
  | .jne t => 0x32 :: encodeWord t
  | .jl t => 0x33 :: encodeWord t
  | .jle t => 0x34 :: encodeWord t
  | .jg t => 0x35 :: encodeWord t
  | .jge t => 0x36 :: encodeWord t
  | .loop t => 0x37 :: encodeWord t
  | .call t => 0x38 :: encodeWord t
  | .ret => [0x39]
  | .push s => 0x40 :: encodeSrc s
  | .pop d => 0x41 :: encodeDst d
  | .syscall n => [0x50, n]
  | .sysAtoi => [0x50, 0x00]
  | .sysPrintInt => [0x50, 0x01]
  | .sysPrintChar => [0x50, 0x02]
  | .sysPrintString => [0x50, 0x03]
  | .sysExit => [0x50, 0x04]
  | .sysReadFile => [0x50, 0x05]
  | .sysClearScreen => [0x50, 0x06]
  | .sysSetColor => [0x50, 0x07]
  | .sysDrawRect => [0x50, 0x08]
  | .sysDrawCircle => [0x50, 0x09]
  | .sysDrawLine => [0x50, 0x0A]
  | .sysPaintDisplay => [0x50, 0x0B]

/-! ### Lengths -/

/-- R83: the bytes of a memory operand. -/
def MemRef.size : MemRef → Nat
  | .abs _ => 3
  | .ind _ => 1
  | .fpRel _ => 3

/-- R83: the bytes of a SRC operand. -/
def Src.size : Src → Nat
  | .reg _ => 1
  | .imm _ => 3
  | .mem m => m.size

/-- R83: the bytes of a DST operand. -/
def Dst.size : Dst → Nat
  | .reg _ => 1
  | .mem m => m.size

/-- R81: the length in bytes of an instruction, fixed by its format and its operand forms. -/
def Instr.length : Instr → Nat
  | .halt | .ret => 1
  | .mov d s | .add d s | .sub d s => 1 + d.size + s.size
  | .cmp a b => 1 + a.size + b.size
  | .mul s | .push s => 1 + s.size
  | .inc d | .dec d | .pop d => 1 + d.size
  | .jmp _ | .je _ | .jne _ | .jl _ | .jle _ | .jg _ | .jge _ | .loop _ | .call _ => 3
  | .syscall _ | .sysAtoi | .sysPrintInt | .sysPrintChar | .sysPrintString | .sysExit | .sysReadFile
  | .sysClearScreen | .sysSetColor | .sysDrawRect | .sysDrawCircle | .sysDrawLine | .sysPaintDisplay => 2

end Sys2Proof
end

