-- ==== Sys2Proof/Config.lean ====
section
/-! DEFINITION. What an instance fixes outside the architectural state and what the outside world answers:
the filesystem's free answers (45_syscall_host.md R195, 93_implementation_defined.md U7) and the constants of the screen
(10_state.md R30). The numeric parameters of R8 are plain data of `State` (log 1). -/

namespace Sys2Proof

/-- R195, "`read(path) -> bytes | NotFound`": one answer of the filesystem collaborator. -/
inductive FsAnswer where
  | notFound
  | bytes (content : List Byte)
  deriving DecidableEq, Repr, Inhabited

/-- The host's answer to the `n`-th `READ_FILE` of a run for a path that the instance's table of files does not list.
U7: "any value, fresh at each call". No body: nothing can be proved of its value (log 6). -/
opaque Config.fsAnswer : Nat → List Byte → FsAnswer

/-- R30: the framebuffer has 160 columns. -/
def Config.screenWidth : Nat := 160

/-- R30: the framebuffer has 144 rows. -/
def Config.screenHeight : Nat := 144

/-- R8: the least and the greatest size of the memory of an instance. -/
def Config.minMemSize : Nat := 16

/-- R8, R9: `pc` and `SP` must be able to hold the address one past the last byte. -/
def Config.maxMemSize : Nat := 65535

end Sys2Proof
end

