-- ==== Sys2Proof/Machine/Cells.lean ====
section
/-! DEFINITION. A finite store in one canonical form: cells keyed by a natural number, keys strictly rising, no cell equal
to what an unlisted key reads as. Memory (10_state.md R31) and the framebuffer (R30) are two of them; what an unlisted key
reads as is zero for both (70_reset_and_hazards.md R261, 10_state.md R36; log 5, log 14). -/

namespace Sys2Proof.Machine

/-- Listed cells: a key and the value it holds. -/
abbrev Cells (w : Nat) := List (Nat × BitVec w)

/-- R261, R36: what a cell that is not listed holds. -/
def unlisted (w : Nat) : BitVec w := 0#w

/-- The value held at a key. -/
def Cells.read {w : Nat} : Cells w → Nat → BitVec w
  | [], _ => unlisted w
  | (k, v) :: rest, a => if a = k then v else Cells.read rest a

/-- Put a cell in front, unless it holds what an unlisted one does. -/
def Cells.cons {w : Nat} (a : Nat) (v : BitVec w) (rest : Cells w) : Cells w :=
  if v = unlisted w then rest else (a, v) :: rest

/-- The store with one cell changed; it keeps the canonical form. -/
def Cells.write {w : Nat} : Cells w → Nat → BitVec w → Cells w
  | [], a, v => Cells.cons a v []
  | (k, u) :: rest, a, v =>
    if a < k then Cells.cons a v ((k, u) :: rest)
    else if a = k then Cells.cons a v rest
    else (k, u) :: Cells.write rest a v

/-- The store with consecutive cells changed, the first at key `a`. -/
def Cells.writeList {w : Nat} (m : Cells w) : Nat → List (BitVec w) → Cells w
  | _, [] => m
  | a, v :: vs => Cells.write (Cells.writeList m (a + 1) vs) a v

/-- The canonical form for keys from `lo` on. -/
def Cells.wfFrom {w : Nat} : Nat → Cells w → Bool
  | _, [] => true
  | lo, (k, v) :: rest => decide (lo ≤ k) && decide (v ≠ unlisted w) && Cells.wfFrom (k + 1) rest

/-- The canonical form: keys strictly rising, no cell equal to an unlisted one. -/
def Cells.wf {w : Nat} (m : Cells w) : Bool := Cells.wfFrom 0 m

/-- Every listed key is below a bound. -/
def Cells.below {w : Nat} (bound : Nat) (m : Cells w) : Bool := m.all fun c => decide (c.1 < bound)

end Sys2Proof.Machine
end

