-- ==== Sys2Proof/Machine/State.lean ====
section
/-! DEFINITION. The whole state of one instance (10_state.md R20), its reset value (R36), and the reasons a step can stop. -/

namespace Sys2Proof.Machine

/-- R31: the flat memory, one cell for each byte address. -/
abbrev Memory := Cells 8

/-- R30: the framebuffer; pixel `(x, y)` is the cell `y * 160 + x` (log 14). -/
abbrev Framebuffer := Cells 2

/-- The canonical form of a memory: addresses strictly rising, no entry equal to what an unlisted address reads as. -/
abbrev Memory.wf (m : Memory) : Bool := Cells.wf m

/-- R21: the eight 16-bit registers. -/
structure Regs where
  ax : Word
  bx : Word
  cx : Word
  dx : Word
  ex : Word
  fx : Word
  fp : Word
  sp : Word
  deriving DecidableEq, Repr

/-- R25: the three flags. -/
structure Flags where
  zf : Bool
  nf : Bool
  vf : Bool
  deriving DecidableEq, Repr

/-- R230: the five run-time failures. -/
inductive Failure where
  | segmentationFault
  | stackUnderflow
  | imageOverrun
  | illegalInstruction
  | unknownSyscall
  deriving DecidableEq, Repr

/-- R27: whether the machine can step, and how it stopped. -/
inductive Status where
  | running
  | halted
  | failed (f : Failure)
  deriving DecidableEq, Repr

/-- R8, R20: the parameters of one instance, fixed for a run. They stand in `State` as plain data that no step writes (log 1).
`STACK_BASE` is `Params.stackBase`; `FS` is the table `files`, completed by `Config.fsAnswer` (log 6). -/
structure Params where
  /-- `MEM_SIZE` -/
  memSize : Nat
  /-- `CODE_END` -/
  codeEnd : Nat
  /-- `IMAGE_END` -/
  imageEnd : Nat
  /-- `LOAD_END` -/
  loadEnd : Nat
  /-- `STACK_LIMIT` -/
  stackLimit : Nat
  /-- `ENTRY` -/
  entry : Word
  /-- `COLOR_RESET` -/
  colorReset : BitVec 2
  /-- `FS`, as far as the instance fixes it: a path and the filesystem's answer for it -/
  files : List (List Byte × FsAnswer)
  deriving DecidableEq, Repr

/-- R20: the architectural state, the instance's parameters, and one counter of the model's own. -/
structure State where
  /-- `x[0..7]`, R21 -/
  regs : Regs
  /-- R24 -/
  pc : Word
  /-- `ZF`, `NF`, `VF`, R25 -/
  flags : Flags
  /-- `STATUS`, R27 -/
  status : Status
  /-- `M`, R31 -/
  mem : Memory
  /-- `COLOR`, R29 -/
  color : BitVec 2
  /-- `FB`, R30 -/
  fb : Framebuffer
  /-- `OUT`, oldest byte first, R33 -/
  out : List Byte
  /-- `DISP`, oldest frame first, R34 -/
  disp : List Framebuffer
  /-- R8 -/
  params : Params
  /-- the model's own: how many `READ_FILE` steps the filesystem has answered (log 6) -/
  fsCalls : Nat
  deriving DecidableEq, Repr

/-- Why the model has no successor state. The five failures of R230 are NOT here: they are next states (R236, log 9). -/
inductive Fault where
  /-- `step`, when the parameters of the instance break the constraints that R8 and R260 put on the loader; the spec
  describes no such machine. Safe: nothing is claimed of it (log 10). -/
  | inconsistentParameters
  deriving DecidableEq, Repr

/-- Why an instruction has no meaning in the model. -/
inductive Refusal where
  /-- `exec`, in the arm of an instruction that has no meaning yet; no arm answers it now. Safe. -/
  | notModelled (mnemonic : String)
  deriving DecidableEq, Repr

/-- The parameters of the instance that `State.reset` belongs to (log 2): the spec's reference size of memory, no image, no
argument, the default stack limit, entry 0, `COLOR_RESET` 0 and no fixed file. -/
def Params.reference : Params where
  memSize := 4096
  codeEnd := 0
  imageEnd := 0
  loadEnd := 0
  stackLimit := 0
  entry := 0
  colorReset := 0
  files := []

/-- R36 and R261 for the instance `Params.reference`: nothing is loaded, so `AX` is 0 and every byte is 0; `SP` is `MEM_SIZE`.
`State.load` (Machine/Loader.lean) is the reset state of any instance. -/
def State.reset : State where
  regs := { ax := 0, bx := 0, cx := 0, dx := 0, ex := 0, fx := 0, fp := 0, sp := 0x1000 }
  pc := 0
  flags := { zf := false, nf := false, vf := false }
  status := .running
  mem := []
  color := 0
  fb := []
  out := []
  disp := []
  params := Params.reference
  fsCalls := 0

end Sys2Proof.Machine
end

