-- ==== Sys2Proof/Machine/Flags.lean ====
section
/-! DEFINITION. The flag laws (10_state.md R25; 41_arithmetic_compare.md R130, R131, R134) and the conditions of the six
conditional jumps (42_control_transfer.md R152 to R157). -/

namespace Sys2Proof.Machine

/-- A result word and the three flags it sets. -/
structure AluOut where
  result : Word
  flags : Flags
  deriving DecidableEq, Repr

/-- R130 `AddFlags(a, b)`. -/
def addFlags (a b : Word) : AluOut :=
  let r := wrap16 (a.toNat + b.toNat)
  { result := r
    flags := { zf := r == 0, nf := r.msb, vf := a.msb == b.msb && r.msb != a.msb } }

/-- R131 `SubFlags(a, b)`. -/
def subFlags (a b : Word) : AluOut :=
  let r := wrap16 (a.toNat - b.toNat)
  { result := r
    flags := { zf := r == 0, nf := r.msb, vf := a.msb != b.msb && r.msb != a.msb } }

/-- R134: the exact signed product, its truncation, and the flags. -/
def mulFlags (a b : Word) : AluOut :=
  let p := a.toInt * b.toInt
  let r := wrap16 p
  { result := r
    flags := { zf := r == 0, nf := r.msb, vf := decide (p < -32768 ∨ 32767 < p) } }

/-- R152: `ZF = 1`. -/
def Flags.condE (f : Flags) : Bool := f.zf

/-- R153: `ZF = 0`. -/
def Flags.condNE (f : Flags) : Bool := !f.zf

/-- R154: `NF != VF`. -/
def Flags.condL (f : Flags) : Bool := f.nf != f.vf

/-- R155: `ZF = 1 or NF != VF`. -/
def Flags.condLE (f : Flags) : Bool := f.zf || f.nf != f.vf

/-- R156: `ZF = 0 and NF = VF`. -/
def Flags.condG (f : Flags) : Bool := !f.zf && f.nf == f.vf

/-- R157: `NF = VF`. -/
def Flags.condGE (f : Flags) : Bool := f.nf == f.vf

end Sys2Proof.Machine
end

