-- ==== Sys2Proof/Machine/Ops.lean ====
section
/-! DEFINITION. The named operations over registers, memory and the stack (00_scope.md R11, 20_memory.md R53, R54, R62, R63),
and failure entry as one shared operation (60_exceptions.md R236, R238). -/

namespace Sys2Proof.Machine

/-! ### Parameters -/

/-- R8, D6: `STACK_BASE = MEM_SIZE`. -/
def Params.stackBase (p : Params) : Nat := p.memSize

/-- The constraints of R8 and R260:
`0 ≤ CODE_END ≤ IMAGE_END ≤ LOAD_END ≤ STACK_LIMIT ≤ MEM_SIZE ≤ 65535` and `16 ≤ MEM_SIZE`. -/
def Params.consistent (p : Params) : Bool :=
  decide (Config.minMemSize ≤ p.memSize) && decide (p.memSize ≤ Config.maxMemSize) &&
  decide (p.codeEnd ≤ p.imageEnd) && decide (p.imageEnd ≤ p.loadEnd) &&
  decide (p.loadEnd ≤ p.stackLimit) && decide (p.stackLimit ≤ p.stackBase)

/-! ### Registers, flags, program counter -/

/-- R11 `x[i]`. -/
def Regs.get (x : Regs) : Reg → Word
  | .ax => x.ax
  | .bx => x.bx
  | .cx => x.cx
  | .dx => x.dx
  | .ex => x.ex
  | .fx => x.fx
  | .fp => x.fp
  | .sp => x.sp

/-- R11 `x[i] <- v`. -/
def Regs.set (x : Regs) (r : Reg) (v : Word) : Regs :=
  match r with
  | .ax => { x with ax := v }
  | .bx => { x with bx := v }
  | .cx => { x with cx := v }
  | .dx => { x with dx := v }
  | .ex => { x with ex := v }
  | .fx => { x with fx := v }
  | .fp => { x with fp := v }
  | .sp => { x with sp := v }

/-- R11 `x[i]`. -/
def State.reg (s : State) (r : Reg) : Word := s.regs.get r

/-- R11, R22 `x[i] <- v`: no register is hard-wired, no value is checked. -/
def State.setReg (s : State) (r : Reg) (v : Word) : State := { s with regs := s.regs.set r v }

/-- R26: the flag writers write all three. -/
def State.setFlags (s : State) (f : Flags) : State := { s with flags := f }

/-- R11 `pc <- t`. -/
def State.jump (s : State) (t : Word) : State := { s with pc := t }

/-- R12, R24 "next": `pc <- wrap16(uint(pc) + len)`. -/
def State.advance (s : State) (len : Nat) : State := { s with pc := wrap16 (s.pc.toNat + len) }

/-- The shape of a conditional transfer of format FT (42_control_transfer.md section 2.1): 3 bytes long. -/
def State.jumpIf (s : State) (cond : Bool) (target : Word) : State :=
  if cond then s.jump target else s.advance 3

/-! ### Failure entry and the end of a run -/

/-- R236, R238: a failure writes `STATUS` and nothing else. There is no return from it (R239). -/
def State.fail (s : State) (f : Failure) : State := { s with status := .failed f }

/-- R180: `STATUS <- Halted`, `pc` not advanced. -/
def State.halt (s : State) : State := { s with status := .halted }

/-- R11 `raise E`, R238: a step whose rule raises is discarded whole, but for `STATUS`. `s` is the state before the step. -/
def State.orFail (s : State) : Except Failure State → State
  | .ok t => t
  | .error f => s.fail f

/-- R236: whatever its rule answers, the step ends in a next state. -/
def State.settle (s : State) (r : Except Failure State) : Host.Outcome State Fault Refusal :=
  .next (s.orFail r)

/-- R230: the code of a failure. -/
def Failure.code : Failure → Nat
  | .segmentationFault => 1
  | .stackUnderflow => 2
  | .imageOverrun => 3
  | .illegalInstruction => 4
  | .unknownSyscall => 5

/-- R27: the exit status the host reads once the machine has stopped. -/
def Status.exitStatus : Status → Option Nat
  | .running => none
  | .halted => some 0
  | .failed f => some f.code

/-! ### Memory -/

/-- R11 `M[a]`. -/
def State.byteAt (s : State) (a : Nat) : Byte := s.mem.read a

/-- R50, R53: the word `M[a+1] : M[a]`. -/
def State.wordAt (s : State) (a : Nat) : Word := wordOfBytes (s.byteAt a) (s.byteAt (a + 1))

/-- R54: `M[a] <- v`. -/
def State.storeByte (s : State) (a : Nat) (v : Byte) : State := { s with mem := s.mem.write a v }

/-- R54: `M[a] <- v[7:0]`, `M[a+1] <- v[15:8]`. -/
def State.storeWord (s : State) (a : Nat) (v : Word) : State :=
  { s with mem := (s.mem.write a (loByte v)).write (a + 1) (hiByte v) }

/-- R195: `M[d + i] <- res[i]`. -/
def State.storeBytes (s : State) (d : Nat) (bs : List Byte) : State :=
  { s with mem := s.mem.writeList d bs }

/-- R53 `MemRead(a, 1)`. -/
def State.memRead1 (s : State) (a : Nat) : Except Failure Byte :=
  if s.params.memSize < a + 1 then .error .segmentationFault else .ok (s.byteAt a)

/-- R53 `MemRead(a, 2)`. -/
def State.memRead2 (s : State) (a : Nat) : Except Failure Word :=
  if s.params.memSize < a + 2 then .error .segmentationFault else .ok (s.wordAt a)

/-- R54 `MemWrite(a, 1, v)`. -/
def State.memWrite1 (s : State) (a : Nat) (v : Byte) : Except Failure State :=
  if s.params.memSize < a + 1 then .error .segmentationFault else .ok (s.storeByte a v)

/-- R54 `MemWrite(a, 2, v)`. -/
def State.memWrite2 (s : State) (a : Nat) (v : Word) : Except Failure State :=
  if s.params.memSize < a + 2 then .error .segmentationFault else .ok (s.storeWord a v)

/-! ### The stack -/

/-- R62: the address a push writes, `(uint(SP) - 2) mod 65536`. -/
def State.pushAddr (s : State) : Nat := (s.regs.sp - 2).toNat

/-- R62 `Push(v)`. -/
def State.push (s : State) (v : Word) : Except Failure State :=
  if s.pushAddr < s.params.stackLimit ∨ s.params.stackBase < s.pushAddr + 2 then .error .segmentationFault
  else .ok ((s.storeWord s.pushAddr v).setReg .sp (BitVec.ofNat 16 s.pushAddr))

/-- R63 `StackTop()`: underflow is tested before the bounds. -/
def State.stackTop (s : State) : Except Failure Word :=
  if s.params.stackBase < s.regs.sp.toNat + 2 then .error .stackUnderflow
  else if s.regs.sp.toNat < s.params.stackLimit then .error .segmentationFault
  else .ok (s.wordAt s.regs.sp.toNat)

/-- R63: `SP <- wrap16(uint(SP) + 2)`. -/
def State.dropTop (s : State) : State := s.setReg .sp (wrap16 (s.regs.sp.toNat + 2))

/-- R63 `Pop()`: the word and the state after it. -/
def State.pop (s : State) : Except Failure (Word × State) := do
  let v ← s.stackTop
  .ok (v, s.dropTop)

/-! ### Host records -/

/-- R11 `OUT <- OUT ++ bytes`. -/
def State.emit (s : State) (bs : List Byte) : State := { s with out := s.out ++ bs }

/-- R196: `DISP <- DISP ++ [FB]`. -/
def State.present (s : State) : State := { s with disp := s.disp ++ [s.fb] }

/-! ### Placing code from outside -/

/-- The host's load of some code bytes at an address (R249): the bytes, and the regions of R8 grown to hold them (log 3). -/
def State.placeCode (s : State) (a : Nat) (bs : List Byte) : State :=
  let top := a + bs.length
  { s with
    mem := s.mem.writeList a bs
    params := { s.params with
      codeEnd := max s.params.codeEnd top
      imageEnd := max s.params.imageEnd top
      loadEnd := max s.params.loadEnd top
      stackLimit := max s.params.stackLimit top } }

end Sys2Proof.Machine
end

