-- ==== Sys2Proof/Machine/Operands.lean ====
section
/-! DEFINITION. Operand access (30_encoding.md R90, R91, R92). -/

namespace Sys2Proof.Machine

/-- R90 `EA(op)`, from the registers of the state it is asked of: the state at the start of the step. -/
def State.ea (s : State) : MemRef → Nat
  | .abs v => v.toNat
  | .ind r => (s.reg r).toNat
  | .fpRel d => (s.regs.fp.toNat + d.toNat) % 65536

/-- R91 `ReadOp(op)`. -/
def State.readSrc (s : State) : Src → Except Failure Word
  | .reg r => .ok (s.reg r)
  | .imm v => .ok v
  | .mem m => s.memRead2 (s.ea m)

/-- R91 of a DST operand (`ADD`, `SUB`, `INC`, `DEC`). -/
def State.readDst (s : State) (d : Dst) : Except Failure Word := s.readSrc d.toSrc

/-- R92 `WriteOp(op, v)`. -/
def State.writeDst (s : State) (d : Dst) (v : Word) : Except Failure State :=
  match d with
  | .reg r => .ok (s.setReg r v)
  | .mem m => s.memWrite2 (s.ea m) v

end Sys2Proof.Machine
end

