-- ==== Sys2Proof/Machine/Arith.lean ====
section
/-! DEFINITION. `ADD`, `SUB`, `MUL`, `INC`, `DEC`, `CMP` (41_arithmetic_compare.md R132 to R137). -/

namespace Sys2Proof.Machine

/-- The shape of R132, R133: `a = ReadOp(dst)`, `b = ReadOp(src)`, `WriteOp(dst, r)`, all three flags. -/
def State.combineInto (s : State) (f : Word → Word → AluOut) (d : Dst) (r : Src) : Except Failure State := do
  let a ← s.readDst d
  let b ← s.readSrc r
  let t ← s.writeDst d (f a b).result
  .ok (t.setFlags (f a b).flags)

/-- R132. -/
def execAdd (d : Dst) (r : Src) (s : State) : Host.Outcome State Fault Refusal :=
  s.settle do
    let t ← s.combineInto addFlags d r
    .ok (t.advance (Instr.add d r).length)

/-- R133. -/
def execSub (d : Dst) (r : Src) (s : State) : Host.Outcome State Fault Refusal :=
  s.settle do
    let t ← s.combineInto subFlags d r
    .ok (t.advance (Instr.sub d r).length)

/-- R134: the accumulator is `AX` (the spec's decision D11, log 16). -/
def execMul (r : Src) (s : State) : Host.Outcome State Fault Refusal :=
  s.settle do
    let b ← s.readSrc r
    let o := mulFlags s.regs.ax b
    .ok (((s.setReg .ax o.result).setFlags o.flags).advance (Instr.mul r).length)

/-- R135: "exactly as `ADD dst, 1` would". -/
def execInc (d : Dst) (s : State) : Host.Outcome State Fault Refusal :=
  s.settle do
    let t ← s.combineInto addFlags d (.imm 1)
    .ok (t.advance (Instr.inc d).length)

/-- R136: "exactly as `SUB dst, 1` would". -/
def execDec (d : Dst) (s : State) : Host.Outcome State Fault Refusal :=
  s.settle do
    let t ← s.combineInto subFlags d (.imm 1)
    .ok (t.advance (Instr.dec d).length)

/-- R137: the difference is not stored. -/
def execCmp (a b : Src) (s : State) : Host.Outcome State Fault Refusal :=
  s.settle do
    let va ← s.readSrc a
    let vb ← s.readSrc b
    .ok ((s.setFlags (subFlags va vb).flags).advance (Instr.cmp a b).length)

end Sys2Proof.Machine
end

