-- ==== Sys2Proof/Machine/Control.lean ====
section
/-! DEFINITION. `JMP`, the six conditional jumps, `LOOP`, `CALL`, `RET` (42_control_transfer.md R150 to R160). -/

namespace Sys2Proof.Machine

/-- R151. -/
def execJmp (target : Word) (s : State) : Host.Outcome State Fault Refusal :=
  .next (s.jump target)

/-- R152. -/
def execJe (target : Word) (s : State) : Host.Outcome State Fault Refusal :=
  .next (s.jumpIf s.flags.condE target)

/-- R153. -/
def execJne (target : Word) (s : State) : Host.Outcome State Fault Refusal :=
  .next (s.jumpIf s.flags.condNE target)

/-- R154. -/
def execJl (target : Word) (s : State) : Host.Outcome State Fault Refusal :=
  .next (s.jumpIf s.flags.condL target)

/-- R155. -/
def execJle (target : Word) (s : State) : Host.Outcome State Fault Refusal :=
  .next (s.jumpIf s.flags.condLE target)

/-- R156. -/
def execJg (target : Word) (s : State) : Host.Outcome State Fault Refusal :=
  .next (s.jumpIf s.flags.condG target)

/-- R157. -/
def execJge (target : Word) (s : State) : Host.Outcome State Fault Refusal :=
  .next (s.jumpIf s.flags.condGE target)

/-- R158: the test is on the new `CX`; no flag is read or written (90_conflicts.md C1, log 17). -/
def execLoop (target : Word) (s : State) : Host.Outcome State Fault Refusal :=
  let c := wrap16 (s.regs.cx.toNat - 1)
  .next ((s.setReg .cx c).jumpIf (c != 0) target)

/-- R159: the return address is that of the instruction after the `CALL`. -/
def execCall (target : Word) (s : State) : Host.Outcome State Fault Refusal :=
  s.settle do
    let t ← s.push (wrap16 (s.pc.toNat + 3))
    .ok (t.jump target)

/-- R160. -/
def execRet (s : State) : Host.Outcome State Fault Refusal :=
  s.settle do
    let (t, u) ← s.pop
    .ok (u.jump t)

end Sys2Proof.Machine
end

