-- ==== Sys2Proof/Machine/Move.lean ====
section
/-! DEFINITION. `MOV` (40_data_movement.md R120). -/

namespace Sys2Proof.Machine

/-- R120: the source is read before the destination is checked; no flag is written. -/
def execMov (d : Dst) (r : Src) (s : State) : Host.Outcome State Fault Refusal :=
  s.settle do
    let v ← s.readSrc r
    let t ← s.writeDst d v
    .ok (t.advance (Instr.mov d r).length)

end Sys2Proof.Machine
end

