-- ==== Sys2Proof/Machine/Stack.lean ====
section
/-! DEFINITION. `PUSH`, `POP` (43_stack.md R170, R171). -/

namespace Sys2Proof.Machine

/-- R170: the operand is read before `SP` moves. -/
def execPush (r : Src) (s : State) : Host.Outcome State Fault Refusal :=
  s.settle do
    let v ← s.readSrc r
    let t ← s.push v
    .ok (t.advance (Instr.push r).length)

/-- R171: the destination of a pop, given the popped word. The address is that of the registers before the instruction, and
the popped value is written after `SP` has moved, so `POP SP` ends with the popped value. -/
def State.popInto (s : State) (d : Dst) (v : Word) : Except Failure State :=
  match d with
  | .reg r => .ok (s.dropTop.setReg r v)
  | .mem m => s.dropTop.memWrite2 (s.ea m) v

/-- R171: the stack is checked before the destination. -/
def execPop (d : Dst) (s : State) : Host.Outcome State Fault Refusal :=
  s.settle do
    let v ← s.stackTop
    let t ← s.popInto d v
    .ok (t.advance (Instr.pop d).length)

end Sys2Proof.Machine
end

