-- ==== Sys2Proof/Machine/Text.lean ====
section
/-! DEFINITION. Strings and numerals of the host syscalls (45_syscall_host.md R190, R191, R192). The loops carry the size of
memory as fuel; the bounds check ends them before the fuel does (70_reset_and_hazards.md R267, log 13). -/

namespace Sys2Proof.Machine

/-- R190, the loop of `CStr` from address `a`. The fuel is never used up: see `cstr`. -/
def State.cstrFrom (s : State) : Nat → Nat → Except Failure (List Byte)
  | 0, _ => .error .segmentationFault
  | fuel + 1, a => do
    let b ← s.memRead1 a
    if b = 0 then .ok []
    else do
      let rest ← s.cstrFrom fuel (a + 1)
      .ok (b :: rest)

/-- R190 `CStr(p)`: the read at `a = MEM_SIZE` fails, so at most `MEM_SIZE + 1` reads are made. -/
def State.cstr (s : State) (p : Word) : Except Failure (List Byte) :=
  s.cstrFrom (s.params.memSize + 1) p.toNat

/-- R191: `0x30 <= b <= 0x39`. -/
def isDigit (b : Byte) : Bool := decide (0x30 ≤ b.toNat) && decide (b.toNat ≤ 0x39)

/-- R191, the digit loop from address `a` with the value so far. -/
def State.digitsFrom (s : State) : Nat → Nat → Nat → Except Failure Nat
  | 0, _, _ => .error .segmentationFault
  | fuel + 1, a, val => do
    let b ← s.memRead1 a
    if isDigit b then s.digitsFrom fuel (a + 1) (val * 10 + (b.toNat - 0x30))
    else .ok val

/-- R191: the integer that the text at address `a` stands for, an optional `-` and digits up to the first other byte. -/
def State.parseInt (s : State) (a : Nat) : Except Failure Int := do
  let b ← s.memRead1 a
  if b = 0x2D then do
    let val ← s.digitsFrom (s.params.memSize + 1) (a + 1) 0
    .ok (-(val : Int))
  else do
    let val ← s.digitsFrom (s.params.memSize + 1) a 0
    .ok (val : Int)

/-- R192: the ASCII code of the digit `k`. -/
def digitByte (k : Nat) : Byte := BitVec.ofNat 8 (0x30 + k)

/-- The decimal digits of `n` in front of `acc`; `n + 1` steps are always enough. -/
def decimalOnto : Nat → Nat → List Byte → List Byte
  | 0, _, acc => acc
  | fuel + 1, n, acc =>
    if n < 10 then digitByte n :: acc
    else decimalOnto fuel (n / 10) (digitByte (n % 10) :: acc)

/-- R192: the digits of a natural number without leading zeros, `"0"` for zero. -/
def decimal (n : Nat) : List Byte := decimalOnto (n + 1) n []

/-- R192 `Dec(n)`. -/
def decText (n : Int) : List Byte :=
  if n < 0 then 0x2D :: decimal n.natAbs else decimal n.natAbs

end Sys2Proof.Machine
end

