-- ==== Sys2Proof/Machine/HostCalls.lean ====
section
/-! DEFINITION. The host-facing syscalls: `ATOI`, `PRINT_INT`, `PRINT_CHAR`, `PRINT_STRING`, `READ_FILE`, `PAINT_DISPLAY`
(45_syscall_host.md R191 to R196). Each writes the state its rule names and nothing else (44_system.md R183). -/

namespace Sys2Proof.Machine

/-- R191. -/
def execSysAtoi (s : State) : Host.Outcome State Fault Refusal :=
  s.settle do
    let n ← s.parseInt s.regs.ax.toNat
    .ok ((s.setReg .ax (wrap16 n)).advance Instr.sysAtoi.length)

/-- R192: `AX` is read as signed; no newline is added. -/
def execSysPrintInt (s : State) : Host.Outcome State Fault Refusal :=
  .next ((s.emit (decText s.regs.ax.toInt)).advance Instr.sysPrintInt.length)

/-- R193: the low byte of `AX`, whatever it is. -/
def execSysPrintChar (s : State) : Host.Outcome State Fault Refusal :=
  .next ((s.emit [loByte s.regs.ax]).advance Instr.sysPrintChar.length)

/-- R194: the terminating zero byte is not written. -/
def execSysPrintString (s : State) : Host.Outcome State Fault Refusal :=
  s.settle do
    let str ← s.cstr s.regs.ax
    .ok ((s.emit str).advance Instr.sysPrintString.length)

/-- R195 `FS(path)`: the instance's table of files where it lists the path, else a fresh free answer (U7, log 6). -/
def State.fsAnswer (s : State) (path : List Byte) : FsAnswer :=
  (s.params.files.lookup path).getD (Config.fsAnswer s.fsCalls path)

/-- The model's count of answered calls (log 6). -/
def State.noteAnswer (s : State) : State := { s with fsCalls := s.fsCalls + 1 }

/-- R195: how many bytes of an answer are stored, `min(length(res), uint(CX))`. -/
def State.readCount (s : State) (content : List Byte) : Nat := min content.length s.regs.cx.toNat

/-- R195 after the answer: the copy into memory at `BX` and the result in `AX`. -/
def State.takeAnswer (s : State) : FsAnswer → Except Failure State
  | .notFound => .ok (s.noteAnswer.setReg .ax 0xFFFF)
  | .bytes content =>
    if 0 < s.readCount content ∧ s.params.memSize < s.regs.bx.toNat + s.readCount content then
      .error .segmentationFault
    else
      .ok ((s.noteAnswer.storeBytes s.regs.bx.toNat (content.take (s.readCount content))).setReg .ax
        (wrap16 (s.readCount content)))

/-- R195: the filename scan, then the host's answer, then the range check (R237 point 5). -/
def execSysReadFile (s : State) : Host.Outcome State Fault Refusal :=
  s.settle do
    let path ← s.cstr s.regs.ax
    let t ← s.takeAnswer (s.fsAnswer path)
    .ok (t.advance Instr.sysReadFile.length)

/-- R196: the framebuffer is presented and not cleared. -/
def execSysPaintDisplay (s : State) : Host.Outcome State Fault Refusal :=
  .next (s.present.advance Instr.sysPaintDisplay.length)

end Sys2Proof.Machine
end

