-- ==== Sys2Proof/Machine/Raster.lean ====
section
/-! DEFINITION. The rasterizer: `plot`, the points of each primitive, and `CLEAR_SCREEN`, `SET_COLOR`, `DRAW_RECT`,
`DRAW_CIRCLE`, `DRAW_LINE` (46_rasterizer.md R210 to R216). A primitive is the list of the integer points it plots, in the
order of its rule; its loop carries the bound of 70_reset_and_hazards.md R267 as fuel (log 13). -/

namespace Sys2Proof.Machine

/-- A point of the unbounded plane (R210: integers, never wrapped). -/
abbrev Point := Int × Int

/-- R211: `[0,160) × [0,144)`. -/
def onScreen (p : Point) : Bool :=
  decide (0 ≤ p.1) && decide (p.1 < Config.screenWidth) && decide (0 ≤ p.2) && decide (p.2 < Config.screenHeight)

/-- The cell of the pixel in column `x` and row `y`. -/
def pixelKey (x y : Nat) : Nat := y * Config.screenWidth + x

/-- R30 `FB[y][x]`. -/
def Framebuffer.pixel (fb : Framebuffer) (x y : Nat) : BitVec 2 := Cells.read fb (pixelKey x y)

/-- R211 `plot(px, py)` with the colour `c`: off the screen it does nothing. -/
def plot (c : BitVec 2) (p : Point) (fb : Framebuffer) : Framebuffer :=
  if onScreen p then Cells.write fb (pixelKey p.1.toNat p.2.toNat) c else fb

/-- Every point of a primitive, with one colour; "the order of writes within a primitive is not observable". -/
def plotAll (c : BitVec 2) (ps : List Point) (fb : Framebuffer) : Framebuffer :=
  ps.foldr (plot c) fb

/-- A drawing syscall: its points in the current colour (R29). -/
def State.draw (s : State) (ps : List Point) : State := { s with fb := plotAll s.color ps s.fb }

/-- R212: every pixel 0, and the colour reset (90_conflicts.md C2). -/
def State.clearScreen (s : State) : State := { s with fb := [], color := s.params.colorReset }

/-- R213: `COLOR <- AX[1:0]`. -/
def State.setColor (s : State) (v : Word) : State := { s with color := v.extractLsb' 0 2 }

/-! ### Rectangle -/

/-- The coordinates `0 .. bound-1` that lie in `lo .. hi`. -/
def clipRange (lo hi : Int) (bound : Nat) : List Int :=
  ((List.range bound).map Int.ofNat).filter fun n => decide (lo ≤ n) && decide (n ≤ hi)

/-- R214: the points of a rectangle that are on the screen; "an implementation may intersect the box with the screen first,
which changes nothing observable" (log 12). -/
def rectPoints (x y w h : Int) (filled : Bool) : List Point :=
  if w ≤ 0 ∨ h ≤ 0 then []
  else
    let x2 := x + w - 1
    let y2 := y + h - 1
    (clipRange y y2 Config.screenHeight).flatMap fun py =>
      ((clipRange x x2 Config.screenWidth).filter fun px =>
        filled || px == x || px == x2 || py == y || py == y2).map fun px => (px, py)

/-! ### Circle -/

/-- R215: the eight symmetric points of one iteration. -/
def octants (cx cy x y : Int) : List Point :=
  [(cx + x, cy + y), (cx - x, cy + y), (cx + x, cy - y), (cx - x, cy - y),
   (cx + y, cy + x), (cx - y, cy + x), (cx + y, cy - x), (cx - y, cy - x)]

/-- R215, the loop from `x`, `y`, `d`. -/
def circleFrom (cx cy : Int) : Nat → Int → Int → Int → List Point
  | 0, _, _, _ => []
  | fuel + 1, x, y, d =>
    if x ≤ y then
      octants cx cy x y ++
        (if d < 0 then circleFrom cx cy fuel (x + 1) y (d + 2 * x + 3)
         else circleFrom cx cy fuel (x + 1) (y - 1) (d + 2 * (x - y) + 5))
    else []

/-- R215: nothing for a negative radius; at most `r + 1` iterations. -/
def circlePoints (cx cy r : Int) : List Point :=
  if r < 0 then [] else circleFrom cx cy (r.toNat + 1) 0 r (1 - r)

/-! ### Line -/

/-- R216, the loop from `x`, `y`, `err`. Both tests use the same `e2`. -/
def lineFrom (x2 y2 dx dy sx sy : Int) : Nat → Int → Int → Int → List Point
  | 0, _, _, _ => []
  | fuel + 1, x, y, err =>
    (x, y) ::
      (if x = x2 ∧ y = y2 then []
       else
         let e2 := 2 * err
         let moveX := decide (dy ≤ e2)
         let moveY := decide (e2 ≤ dx)
         lineFrom x2 y2 dx dy sx sy fuel
           (if moveX then x + sx else x)
           (if moveY then y + sy else y)
           (err + (if moveX then dy else 0) + (if moveY then dx else 0)))

/-- R216: "the loop ends after exactly `max(|x2-x1|, |y2-y1|)` moves". -/
def linePoints (x1 y1 x2 y2 : Int) : List Point :=
  let dx : Int := (x2 - x1).natAbs
  let dy : Int := -((y2 - y1).natAbs : Int)
  let sx : Int := if x1 < x2 then 1 else -1
  let sy : Int := if y1 < y2 then 1 else -1
  lineFrom x2 y2 dx dy sx sy (max (x2 - x1).natAbs (y2 - y1).natAbs + 1) x1 y1 (dx + dy)

/-! ### The syscalls -/

/-- R212. -/
def execSysClearScreen (s : State) : Host.Outcome State Fault Refusal :=
  .next (s.clearScreen.advance Instr.sysClearScreen.length)

/-- R213: bits 15 to 2 of `AX` are ignored (log 19). -/
def execSysSetColor (s : State) : Host.Outcome State Fault Refusal :=
  .next ((s.setColor s.regs.ax).advance Instr.sysSetColor.length)

/-- R214: `EX = 0` outlines, any other value fills. -/
def execSysDrawRect (s : State) : Host.Outcome State Fault Refusal :=
  .next ((s.draw (rectPoints s.regs.ax.toInt s.regs.bx.toInt s.regs.cx.toInt s.regs.dx.toInt (s.regs.ex != 0))).advance
    Instr.sysDrawRect.length)

/-- R215. -/
def execSysDrawCircle (s : State) : Host.Outcome State Fault Refusal :=
  .next ((s.draw (circlePoints s.regs.ax.toInt s.regs.bx.toInt s.regs.cx.toInt)).advance Instr.sysDrawCircle.length)

/-- R216. -/
def execSysDrawLine (s : State) : Host.Outcome State Fault Refusal :=
  .next ((s.draw (linePoints s.regs.ax.toInt s.regs.bx.toInt s.regs.cx.toInt s.regs.dx.toInt)).advance
    Instr.sysDrawLine.length)

end Sys2Proof.Machine
end

