-- ==== Sys2Proof/Machine/System.lean ====
section
/-! DEFINITION. `HALT`, `SYSCALL EXIT` and the dispatch of `SYSCALL` (44_system.md R180, R181, R182). -/

namespace Sys2Proof.Machine

/-- R180: `pc` stays at the address of the `HALT`. -/
def execHalt (s : State) : Host.Outcome State Fault Refusal :=
  .next s.halt

/-- R182: "In every observable respect it is `HALT`". -/
def execSysExit (s : State) : Host.Outcome State Fault Refusal :=
  .next s.halt

/-- R181: the dispatch on the `sysno` byte. The decoder gives the twelve assigned numbers constructors of their own, so only
the last case is reached by a program (log 11). -/
def execSyscall (n : Byte) (s : State) : Host.Outcome State Fault Refusal :=
  match n with
  | 0x00#8 => execSysAtoi s
  | 0x01#8 => execSysPrintInt s
  | 0x02#8 => execSysPrintChar s
  | 0x03#8 => execSysPrintString s
  | 0x04#8 => execSysExit s
  | 0x05#8 => execSysReadFile s
  | 0x06#8 => execSysClearScreen s
  | 0x07#8 => execSysSetColor s
  | 0x08#8 => execSysDrawRect s
  | 0x09#8 => execSysDrawCircle s
  | 0x0A#8 => execSysDrawLine s
  | 0x0B#8 => execSysPaintDisplay s
  | _ => s.settle (.error .unknownSyscall)

end Sys2Proof.Machine
end

