-- ==== Sys2Proof/Machine/Dispatch.lean ====
section
/-! DEFINITION. One arm for each instruction of spec/opcode_table.json. -/

namespace Sys2Proof.Machine

def exec (i : Instr) (s : State) : Host.Outcome State Fault Refusal :=
  match i with
  | .halt => Sys2Proof.Machine.execHalt s
  | .mov d r => Sys2Proof.Machine.execMov d r s
  | .add d r => Sys2Proof.Machine.execAdd d r s
  | .sub d r => Sys2Proof.Machine.execSub d r s
  | .mul r => Sys2Proof.Machine.execMul r s
  | .inc d => Sys2Proof.Machine.execInc d s
  | .dec d => Sys2Proof.Machine.execDec d s
  | .cmp a b => Sys2Proof.Machine.execCmp a b s
  | .jmp t => Sys2Proof.Machine.execJmp t s
  | .je t => Sys2Proof.Machine.execJe t s
  | .jne t => Sys2Proof.Machine.execJne t s
  | .jl t => Sys2Proof.Machine.execJl t s
  | .jle t => Sys2Proof.Machine.execJle t s
  | .jg t => Sys2Proof.Machine.execJg t s
  | .jge t => Sys2Proof.Machine.execJge t s
  | .loop t => Sys2Proof.Machine.execLoop t s
  | .call t => Sys2Proof.Machine.execCall t s
  | .ret => Sys2Proof.Machine.execRet s
  | .push r => Sys2Proof.Machine.execPush r s
  | .pop d => Sys2Proof.Machine.execPop d s
  | .syscall n => Sys2Proof.Machine.execSyscall n s
  | .sysAtoi => Sys2Proof.Machine.execSysAtoi s
  | .sysPrintInt => Sys2Proof.Machine.execSysPrintInt s
  | .sysPrintChar => Sys2Proof.Machine.execSysPrintChar s
  | .sysPrintString => Sys2Proof.Machine.execSysPrintString s
  | .sysExit => Sys2Proof.Machine.execSysExit s
  | .sysReadFile => Sys2Proof.Machine.execSysReadFile s
  | .sysClearScreen => Sys2Proof.Machine.execSysClearScreen s
  | .sysSetColor => Sys2Proof.Machine.execSysSetColor s
  | .sysDrawRect => Sys2Proof.Machine.execSysDrawRect s
  | .sysDrawCircle => Sys2Proof.Machine.execSysDrawCircle s
  | .sysDrawLine => Sys2Proof.Machine.execSysDrawLine s
  | .sysPaintDisplay => Sys2Proof.Machine.execSysPaintDisplay s

end Sys2Proof.Machine
end

