-- ==== Sys2Proof/Machine/Fetch.lean ====
section
/-! DEFINITION. Instruction fetch (20_memory.md R59, R60; 30_encoding.md R86) and the failure that a refused decoding raises
(60_exceptions.md R233, R234). -/

namespace Sys2Proof.Machine

/-- R59: the bytes that `Fetch8` can deliver from address `a` on, at most `n` of them: none at or above `CODE_END`. -/
def State.codeBytes (s : State) : Nat → Nat → List Byte
  | 0, _ => []
  | n + 1, a => if s.params.codeEnd ≤ a then [] else s.byteAt a :: s.codeBytes n (a + 1)

/-- R59, R60, R233: a missing byte is `ImageOverrun`; R88, R89, R234: everything else is `IllegalInstruction`. -/
def decodeFailure : DecodeError → Failure
  | .truncated => .imageOverrun
  | .badOpcode _ => .illegalInstruction
  | .badSpecifier _ => .illegalInstruction
  | .immediateDestination => .illegalInstruction

/-- R86 `Decode()`: the instruction at `pc`. An instruction has at most 7 bytes (R80). -/
def State.fetch (s : State) : Except Failure Instr :=
  match decode (s.codeBytes maxInstrBytes s.pc.toNat) with
  | .ok (i, _) => .ok i
  | .error e => .error (decodeFailure e)

end Sys2Proof.Machine
end

