-- ==== Sys2Proof/Machine/Step.lean ====
section
/-! DEFINITION. One step of the machine (00_scope.md R12) and the placing of one instruction where it fetches. -/

namespace Sys2Proof.Machine

/-- R12: decode at `pc`, then the instruction's rule. R27: once `STATUS` is not `Running` "no field of the state changes again",
so a further step answers the same state (log 8). A failed decoding fails the step (R236). -/
def step (s : State) : Host.Outcome State Fault Refusal :=
  if s.status ≠ .running then .next s
  else if s.params.consistent = false then .fault .inconsistentParameters
  else
    match s.fetch with
    | .ok i => exec i s
    | .error f => .next (s.fail f)

/-- The host's load of one instruction at `pc` (log 3): its bytes, the code region grown to hold them, and `STATUS` Running. -/
def State.withFetchWord (s : State) (nbits w : Nat) : State :=
  { s.placeCode s.pc.toNat (bytesOfBits nbits w) with status := .running }

end Sys2Proof.Machine
end

