-- ==== Sys2Proof/Machine/Loader.lean ====
section
/-! DEFINITION. The host's load and the reset state of any instance (70_reset_and_hazards.md R260, R261; 10_state.md R36). -/

namespace Sys2Proof.Machine

/-- R8: what the host chooses before reset is released. -/
structure Load where
  /-- `MEM_SIZE` -/
  memSize : Nat
  /-- `IMAGE`: code bytes, then data bytes -/
  image : List Byte
  /-- `CODE_END` -/
  codeEnd : Nat
  /-- `ENTRY` -/
  entry : Word
  /-- `ARG`, if there is one -/
  arg : Option (List Byte)
  /-- `STACK_LIMIT`; absent for the default `LOAD_END` -/
  stackLimit : Option Nat
  /-- `COLOR_RESET` -/
  colorReset : BitVec 2
  /-- what the instance fixes of `FS` -/
  files : List (List Byte × FsAnswer)
  deriving DecidableEq, Repr

/-- R8: `IMAGE_END`, the first address after the data region. -/
def Load.imageEnd (l : Load) : Nat := l.image.length

/-- R8, R261: what the loader writes after the image, the argument and a zero byte. -/
def Load.argBytes (l : Load) : List Byte :=
  match l.arg with
  | none => []
  | some a => a ++ [0]

/-- R8: `LOAD_END`, the first address after everything the loader wrote. -/
def Load.loadEnd (l : Load) : Nat := l.imageEnd + l.argBytes.length

/-- The parameters that a load fixes. -/
def Load.params (l : Load) : Params where
  memSize := l.memSize
  codeEnd := l.codeEnd
  imageEnd := l.imageEnd
  loadEnd := l.loadEnd
  stackLimit := l.stackLimit.getD l.loadEnd
  entry := l.entry
  colorReset := l.colorReset
  files := l.files

/-- R8, R260: the constraints on a load; `ARG` is a byte string without a zero byte. -/
def Load.valid (l : Load) : Bool := l.params.consistent && (l.arg.getD []).all fun b => decide (b ≠ 0)

/-- R36, R261: the state when reset is released. -/
def State.load (l : Load) : State where
  regs :=
    { ax := if l.arg.isSome then wrap16 l.imageEnd else 0
      bx := 0, cx := 0, dx := 0, ex := 0, fx := 0, fp := 0
      sp := wrap16 l.params.stackBase }
  pc := l.entry
  flags := { zf := false, nf := false, vf := false }
  status := .running
  mem := Cells.writeList (w := 8) [] 0 (l.image ++ l.argBytes)
  color := l.colorReset
  fb := []
  out := []
  disp := []
  params := l.params
  fsCalls := 0

/-- The load of the instance that `State.reset` belongs to (log 2): nothing is loaded. -/
def Load.reference : Load where
  memSize := 4096
  image := []
  codeEnd := 0
  entry := 0
  arg := none
  stackLimit := none
  colorReset := 0
  files := []

end Sys2Proof.Machine
end

