-- ==== Sys2Proof/Safety.lean ====
section
/-! DEFINITION. The terms that claims are stated in: the invariant of a run, operands in range, and what an instruction leaves
unchanged. -/

namespace Sys2Proof.Machine

/-! ### The invariant -/

/-- A framebuffer in canonical form with every listed pixel on the 160 × 144 grid (R30). -/
abbrev Framebuffer.Ok (fb : Framebuffer) : Prop :=
  Cells.wf fb = true ∧ Cells.below (Config.screenWidth * Config.screenHeight) fb = true

/-- What every run from a valid load keeps: consistent parameters (R8, R260), a canonical memory within `MEM_SIZE` (R31),
canonical frames (R30, R34), and no result that is both zero and negative (R25; 95_test_vectors.md section 2.4). -/
abbrev State.Inv (s : State) : Prop :=
  s.params.consistent = true ∧ s.mem.wf = true ∧ Cells.below s.params.memSize s.mem = true ∧
  s.fb.Ok ∧ (∀ f ∈ s.disp, Framebuffer.Ok f) ∧ (s.flags.zf && s.flags.nf) = false

/-! ### Operands -/

/-- The word of memory at `a` exists: `a + 2 ≤ MEM_SIZE` (R53). -/
abbrev State.WordInRange (s : State) (a : Nat) : Prop := a + 2 ≤ s.params.memSize

/-- A SRC operand can be read (R91). -/
def State.SrcInRange (s : State) : Src → Prop
  | .reg _ => True
  | .imm _ => True
  | .mem m => s.WordInRange (s.ea m)

/-- A DST operand can be written (R92), and read where the instruction reads it. -/
def State.DstInRange (s : State) : Dst → Prop
  | .reg _ => True
  | .mem m => s.WordInRange (s.ea m)

/-- The word that a SRC operand stands for (R91), where it is in range. -/
def State.srcWord (s : State) : Src → Word
  | .reg r => s.reg r
  | .imm v => v
  | .mem m => s.wordAt (s.ea m)

/-- The word that a DST operand holds. -/
def State.dstWord (s : State) (d : Dst) : Word := s.srcWord d.toSrc

/-- The push of a word from `s` stays in the stack region (R62). -/
def State.CanPush (s : State) : Prop :=
  s.params.stackLimit ≤ s.pushAddr ∧ s.pushAddr + 2 ≤ s.params.stackBase

/-- There is a whole word between `SP` and `STACK_BASE`, and `SP` is not below `STACK_LIMIT` (R63). -/
def State.CanPop (s : State) : Prop :=
  s.regs.sp.toNat + 2 ≤ s.params.stackBase ∧ s.params.stackLimit ≤ s.regs.sp.toNat

/-! ### Frames -/

/-- Every byte of memory reads as before. -/
def State.SameBytes (s t : State) : Prop := ∀ a, t.byteAt a = s.byteAt a

/-- Every byte of memory outside the `n` bytes at `a` reads as before. -/
def State.SameBytesBut (s t : State) (a n : Nat) : Prop :=
  ∀ b, (b < a ∨ a + n ≤ b) → t.byteAt b = s.byteAt b

/-- Every register but those listed is as before. -/
def State.SameRegsBut (s t : State) (changed : List Reg) : Prop :=
  ∀ r, r ∉ changed → t.reg r = s.reg r

/-- Nothing outside the execution engine changes: the rasterizer, the host records, the parameters, the answered calls. -/
def State.SameOutside (s t : State) : Prop :=
  t.color = s.color ∧ t.fb = s.fb ∧ t.out = s.out ∧ t.disp = s.disp ∧ t.params = s.params ∧ t.fsCalls = s.fsCalls

/-- The word `v` has been written to the operand `d` of an instruction begun in `s` (R92) and to nothing else: a register
operand leaves memory as it was; a memory operand leaves the registers, and every byte but the two at its address. -/
def State.Written (s t : State) (d : Dst) (v : Word) : Prop :=
  match d with
  | .reg r => t.reg r = v ∧ s.SameRegsBut t [r] ∧ s.SameBytes t
  | .mem m => t.byteAt (s.ea m) = loByte v ∧ t.byteAt (s.ea m + 1) = hiByte v ∧
      s.SameRegsBut t [] ∧ s.SameBytesBut t (s.ea m) 2

/-- "next" (R12): `pc` has moved past the instruction `i`, and the machine still runs or has stopped as before. -/
def State.PastInstr (s t : State) (i : Instr) : Prop :=
  t.pc = wrap16 (s.pc.toNat + i.length) ∧ t.status = s.status

/-! ### Bytes in memory -/

/-- The bytes `bs` stand at address `a`, all of them below `CODE_END` (R59). -/
def State.HoldsCode (s : State) (a : Nat) (bs : List Byte) : Prop :=
  ∀ k, (h : k < bs.length) → a + k < s.params.codeEnd ∧ s.byteAt (a + k) = bs[k]

/-- The zero-terminated string `str` stands at address `a`, its terminator inside memory (R190). -/
def State.HoldsString (s : State) (a : Nat) (str : List Byte) : Prop :=
  (∀ k, (h : k < str.length) → s.byteAt (a + k) = str[k] ∧ str[k] ≠ 0) ∧
    s.byteAt (a + str.length) = 0 ∧ a + str.length < s.params.memSize

/-- From address `a` on there is no zero byte inside memory (R190). -/
def State.Unterminated (s : State) (a : Nat) : Prop :=
  ∀ b, a ≤ b → b < s.params.memSize → s.byteAt b ≠ 0

/-- R191: a byte from `0x30` to `0x39`. -/
def IsDecimalDigit (b : Byte) : Prop := 0x30 ≤ b.toNat ∧ b.toNat ≤ 0x39

/-- The decimal digits `ds` stand at address `a`, and after them, inside memory, a byte that is not a digit (R191). -/
def State.HoldsDigits (s : State) (a : Nat) (ds : List Byte) : Prop :=
  (∀ k, (h : k < ds.length) → s.byteAt (a + k) = ds[k] ∧ IsDecimalDigit ds[k]) ∧
    ¬ IsDecimalDigit (s.byteAt (a + ds.length)) ∧ a + ds.length < s.params.memSize

/-- The number that decimal digits stand for, the first the most significant (R191). -/
def digitsValue (ds : List Byte) : Nat := ds.foldl (fun val b => val * 10 + (b.toNat - 0x30)) 0

/-! ### The loops of the rasterizer, as relations -/

/-- R215: the values `x`, `y`, `d` with which the loop of the circle of radius `r` is entered, from the first on. -/
inductive CircleReaches (r : Int) : Int → Int → Int → Prop where
  | start : CircleReaches r 0 r (1 - r)
  | straight {x y d : Int} : CircleReaches r x y d → x ≤ y → d < 0 → CircleReaches r (x + 1) y (d + 2 * x + 3)
  | diagonal {x y d : Int} : CircleReaches r x y d → x ≤ y → ¬ d < 0 →
      CircleReaches r (x + 1) (y - 1) (d + 2 * (x - y) + 5)

/-- R215: one of the eight points that the loop plots for `x` and `y`, as an offset from the centre. -/
def CircleOffset (x y : Int) (p : Point) : Prop :=
  (p.1.natAbs = x.natAbs ∧ p.2.natAbs = y.natAbs) ∨ (p.1.natAbs = y.natAbs ∧ p.2.natAbs = x.natAbs)

/-- R216: `sx` and `sy`. -/
def lineSign (a b : Int) : Int := if a < b then 1 else -1

/-- R216: the values `x`, `y`, `err` with which the loop of the line from `(x1, y1)` to `(x2, y2)` is entered. -/
inductive LineReaches (x1 y1 x2 y2 : Int) : Int → Int → Int → Prop where
  | start : LineReaches x1 y1 x2 y2 x1 y1 (|x2 - x1| + -|y2 - y1|)
  | move {x y err : Int} : LineReaches x1 y1 x2 y2 x y err → ¬ (x = x2 ∧ y = y2) →
      LineReaches x1 y1 x2 y2
        (if 2 * err ≥ -|y2 - y1| then x + lineSign x1 x2 else x)
        (if 2 * err ≤ |x2 - x1| then y + lineSign y1 y2 else y)
        (err + (if 2 * err ≥ -|y2 - y1| then -|y2 - y1| else 0) + (if 2 * err ≤ |x2 - x1| then |x2 - x1| else 0))

end Sys2Proof.Machine
end

