-- ==== Sys2Proof/Certificates/Slice0/Obligations.lean ====
section
/-! DEFINITION. The statements for the provers. Each docstring names the rules of spec/ it formalises; where a clause is the
model's own choice the docstring says so and names the log entry. "Next" is `Host.Outcome.next`; a run-time failure is a next
state too (60_exceptions.md R236, log 9). -/

open Sys2Proof Sys2Proof.Machine

/-! ### Reset and the invariant -/

/-- R36, R261: every field of the state, and every byte of memory, when reset is released after a valid load. -/
def Obligations.LoadGivesResetState : Prop :=
  ∀ l : Load, l.valid = true →
    (l.arg = none → (State.load l).reg .ax = 0) ∧
    (∀ arg, l.arg = some arg →
      (State.load l).reg .ax = wrap16 l.image.length ∧
      (∀ i, (h : i < arg.length) → (State.load l).byteAt (l.image.length + i) = arg[i]) ∧
      (State.load l).byteAt (l.image.length + arg.length) = 0) ∧
    (∀ r ∈ [Reg.bx, Reg.cx, Reg.dx, Reg.ex, Reg.fx, Reg.fp], (State.load l).reg r = 0) ∧
    ((State.load l).reg .sp).toNat = l.memSize ∧
    (State.load l).pc = l.entry ∧
    (State.load l).flags = { zf := false, nf := false, vf := false } ∧
    (State.load l).status = .running ∧
    (∀ i, (h : i < l.image.length) → (State.load l).byteAt i = l.image[i]) ∧
    (∀ a, l.loadEnd ≤ a → (State.load l).byteAt a = 0) ∧
    (State.load l).color = l.colorReset ∧
    (∀ x y, x < 160 → y < 144 → (State.load l).fb.pixel x y = 0) ∧
    (State.load l).out = [] ∧ (State.load l).disp = [] ∧ (State.load l).params = l.params

/-- The invariant holds at `State.reset`. The instance that `State.reset` belongs to is the model's choice (log 2). -/
def Obligations.ResetMeetsInvariant : Prop := State.reset.Inv

/-- The invariant holds after every valid load (R36, R261): the fields that R36 gives, in canonical form. -/
def Obligations.LoadMeetsInvariant : Prop := ∀ l : Load, l.valid = true → (State.load l).Inv

/-- Every step keeps the invariant: consistent parameters, a canonical memory within `MEM_SIZE`, canonical frames, and never a
result that is zero and negative at once (95_test_vectors.md section 2.4). The canonical form is the model's (log 5, log 14). -/
def Obligations.StepKeepsInvariant : Prop :=
  ∀ s t : State, s.Inv → step s = .next t → t.Inv

/-! ### The step -/

/-- 60_exceptions.md section 1, R236 and R267: where the parameters are those of R8, nothing ends in a Lean fault or a refusal.
For a running machine this holds given that the host answers `READ_FILE` and `PAINT_DISPLAY` (R197, R267); the model's host
always does (log 7). For a stopped machine R27 enables no step: that the model's step answers is the model's choice (log 8).
Where the parameters are not those of R8, a running machine has no step (the model's choice, log 10). -/
def Obligations.StepAlwaysAnswersNext : Prop :=
  ∀ s : State,
    (s.params.consistent = true → ∃ t, step s = .next t) ∧
    (s.params.consistent = false → s.status = .running → step s = .fault .inconsistentParameters)

/-- R12, R86: where the bytes of a well-formed instruction stand at `pc` inside the code region, the step of a running machine
is the meaning of that instruction at that very state. (`exec` itself moves `pc`.) -/
def Obligations.StepRunsTheInstructionAtPc : Prop :=
  ∀ (s : State) (i : Instr), s.status = .running → s.params.consistent = true → i.WellFormed →
    s.HoldsCode s.pc.toNat (encode i) → step s = exec i s

/-- R27: once `STATUS` is not `Running` no field changes again. That the model's step answers the same state, where the spec
enables no step, is log 8. -/
def Obligations.StoppedMachineNeverChanges : Prop :=
  ∀ (n : Nat) (s : State), s.status ≠ .running → Sys2Proof.core.run n s = .next s

/-! ### Encoding -/

/-- 30_encoding.md sections 1 to 4: the bytes of a well-formed instruction, whatever follows them, decode to it. -/
def Obligations.DecodeEncodeRoundTrip : Prop :=
  ∀ (i : Instr) (rest : List Byte), i.WellFormed → decode (encode i ++ rest) = .ok (i, rest)

/-- 92_eei_decisions.md D16, "every instruction has one encoding": bytes that decode are the encoding of a well-formed
instruction, of 1 to 7 bytes, and what follows it. -/
def Obligations.EncodingIsUnique : Prop :=
  ∀ (bs rest : List Byte) (i : Instr), decode bs = .ok (i, rest) →
    i.WellFormed ∧ bs = encode i ++ rest ∧ (encode i).length = i.length ∧ 1 ≤ i.length ∧ i.length ≤ 7

/-- Worked encodings of 30_encoding.md section 9. -/
def Obligations.WorkedEncodingsDecode : Prop :=
  decode [0x10, 0x00, 0x40, 0xFE, 0xFF] = .ok (.mov (.reg .ax) (.mem (.fpRel 0xFFFE)), []) ∧
  decode [0x10, 0x20, 0x00, 0x01, 0x10, 0x34, 0x12] = .ok (.mov (.mem (.abs 0x0100)) (.imm 0x1234), []) ∧
  decode [0x20, 0x31, 0x02] = .ok (.add (.mem (.ind .bx)) (.reg .cx), []) ∧
  decode [0x25, 0x00, 0x10, 0xFF, 0xFF] = .ok (.cmp (.reg .ax) (.imm 0xFFFF), []) ∧
  decode [0x37, 0x08, 0x00] = .ok (.loop 0x0008, []) ∧
  decode [0x41, 0x06] = .ok (.pop (.reg .fp), []) ∧
  decode [0x50, 0x01] = .ok (.sysPrintInt, [])

/-- R88: the 235 opcode bytes outside the table of R82 raise `IllegalInstruction` whatever follows, before any other byte. -/
def Obligations.UnassignedOpcodesAreIllegal : Prop :=
  let assigned : List Byte := [0x01, 0x10, 0x20, 0x21, 0x22, 0x23, 0x24, 0x25, 0x30, 0x31, 0x32, 0x33, 0x34, 0x35, 0x36,
    0x37, 0x38, 0x39, 0x40, 0x41, 0x50]
  (((List.range 256).map (BitVec.ofNat 8)).filter fun op => decide (op ∉ assigned)).length = 235 ∧
  ∀ (op : Byte), op ∉ assigned →
    (∀ rest, decode (op :: rest) = .error (.badOpcode op)) ∧
    (∀ s : State, s.status = .running → s.params.consistent = true → s.pc.toNat < s.params.codeEnd →
      s.byteAt s.pc.toNat = op → step s = .next { s with status := .failed .illegalInstruction })

/-- R89: a specifier byte outside the nineteen legal values of R83, as first or as second operand, or an immediate in a DST
position raises `IllegalInstruction` (whatever stands after it: it may be the last byte of the code region); an unassigned `sysno`
raises `UnknownSyscall` instead. -/
def Obligations.IllegalOperandsAreRefused : Prop :=
  let legal : List Byte := [0x00, 0x01, 0x02, 0x03, 0x04, 0x05, 0x06, 0x07, 0x10, 0x20, 0x30, 0x31, 0x32, 0x33, 0x34, 0x35,
    0x36, 0x37, 0x40]
  ∀ s : State, s.status = .running → s.params.consistent = true →
    (∀ op ∈ ([0x10, 0x20, 0x21, 0x22, 0x23, 0x24, 0x25, 0x40, 0x41] : List Byte), ∀ b : Byte, b ∉ legal →
      s.HoldsCode s.pc.toNat [op, b] → step s = .next { s with status := .failed .illegalInstruction }) ∧
    (∀ op ∈ ([0x10, 0x20, 0x21, 0x23, 0x24, 0x41] : List Byte), s.HoldsCode s.pc.toNat [op, 0x10] →
      step s = .next { s with status := .failed .illegalInstruction }) ∧
    (∀ op ∈ ([0x10, 0x20, 0x21] : List Byte), ∀ (d : Dst) (b : Byte), b ∉ legal →
      s.HoldsCode s.pc.toNat (op :: (encodeDst d ++ [b])) →
      step s = .next { s with status := .failed .illegalInstruction }) ∧
    (∀ (a : Src) (b : Byte), b ∉ legal → s.HoldsCode s.pc.toNat (0x25 :: (encodeSrc a ++ [b])) →
      step s = .next { s with status := .failed .illegalInstruction }) ∧
    (∀ n : Byte, 0x0C ≤ n.toNat → s.HoldsCode s.pc.toNat [0x50, n] →
      step s = .next { s with status := .failed .unknownSyscall })

/-- R233: `ImageOverrun` when an instruction byte is needed at or above `CODE_END`: `pc` outside the code region, and an
instruction cut short by its end. -/
def Obligations.CodeRegionBoundsFetch : Prop :=
  ∀ s : State, s.status = .running → s.params.consistent = true →
    (s.params.codeEnd ≤ s.pc.toNat → step s = .next { s with status := .failed .imageOverrun }) ∧
    (∀ (i : Instr) (k : Nat), i.WellFormed → k < (encode i).length → s.params.codeEnd = s.pc.toNat + k →
      s.HoldsCode s.pc.toNat ((encode i).take k) → step s = .next { s with status := .failed .imageOverrun })

/-! ### Flag laws -/

/-- R130 `AddFlags(a, b)`. -/
def Obligations.AdditionFlags : Prop :=
  ∀ a b : Word,
    (addFlags a b).result.toNat = (a.toNat + b.toNat) % 65536 ∧
    ((addFlags a b).flags.zf = true ↔ (addFlags a b).result = 0) ∧
    (addFlags a b).flags.nf = (addFlags a b).result.getLsbD 15 ∧
    ((addFlags a b).flags.vf = true ↔
      a.getLsbD 15 = b.getLsbD 15 ∧ (addFlags a b).result.getLsbD 15 ≠ a.getLsbD 15) ∧
    ((addFlags a b).flags.vf = true ↔ a.toInt + b.toInt < -32768 ∨ 32767 < a.toInt + b.toInt)

/-- R131 `SubFlags(a, b)`. -/
def Obligations.SubtractionFlags : Prop :=
  ∀ a b : Word,
    ((subFlags a b).result.toNat : Int) = ((a.toNat : Int) - b.toNat) % 65536 ∧
    ((subFlags a b).flags.zf = true ↔ (subFlags a b).result = 0) ∧
    ((subFlags a b).flags.zf = true ↔ a = b) ∧
    (subFlags a b).flags.nf = (subFlags a b).result.getLsbD 15 ∧
    ((subFlags a b).flags.vf = true ↔
      a.getLsbD 15 ≠ b.getLsbD 15 ∧ (subFlags a b).result.getLsbD 15 ≠ a.getLsbD 15) ∧
    ((subFlags a b).flags.vf = true ↔ a.toInt - b.toInt < -32768 ∨ 32767 < a.toInt - b.toInt) ∧
    ((subFlags a b).flags.nf ≠ (subFlags a b).flags.vf ↔ a.toInt < b.toInt)

/-! ### Operands and memory -/

/-- R90: the effective addresses, from the registers of the state. -/
def Obligations.EffectiveAddresses : Prop :=
  ∀ (s : State) (v : Word) (r : Reg),
    s.ea (.abs v) = v.toNat ∧ s.ea (.ind r) = (s.reg r).toNat ∧
    s.ea (.fpRel v) = ((s.reg .fp).toNat + v.toNat) % 65536

/-- R53, R54, R55: `MemRead` and `MemWrite` of a byte and of a word, in range and out of it; a word is little-endian (R50). -/
def Obligations.MemoryAccess : Prop :=
  ∀ (s : State) (a : Nat) (b : Byte) (w : Word), s.mem.wf = true →
    (a + 1 ≤ s.params.memSize →
      s.memRead1 a = .ok (s.byteAt a) ∧
      ∃ t, s.memWrite1 a b = .ok t ∧ t.byteAt a = b ∧ s.SameBytesBut t a 1 ∧ t = { s with mem := t.mem }) ∧
    (a + 2 ≤ s.params.memSize →
      s.memRead2 a = .ok (s.byteAt (a + 1) ++ s.byteAt a) ∧
      ∃ t, s.memWrite2 a w = .ok t ∧ (t.byteAt a).toNat = w.toNat % 256 ∧ (t.byteAt (a + 1)).toNat = w.toNat / 256 ∧
        s.SameBytesBut t a 2 ∧ t = { s with mem := t.mem }) ∧
    (s.params.memSize < a + 1 →
      s.memRead1 a = .error .segmentationFault ∧ s.memWrite1 a b = .error .segmentationFault) ∧
    (s.params.memSize < a + 2 →
      s.memRead2 a = .error .segmentationFault ∧ s.memWrite2 a w = .error .segmentationFault)

/-! ### Data movement and arithmetic -/

/-- R120 `MOV dst, src`: encoding, the word moved, the frame, and the failure of an operand out of range. -/
def Obligations.MovCopiesWord : Prop :=
  ∀ (d : Dst) (r : Src) (s : State),
    encode (.mov d r) = 0x10 :: (encodeDst d ++ encodeSrc r) ∧
    (s.mem.wf = true → s.SrcInRange r → s.DstInRange d →
      ∃ t, exec (.mov d r) s = .next t ∧ s.Written t d (s.srcWord r) ∧ t.flags = s.flags ∧
        s.PastInstr t (.mov d r) ∧ s.SameOutside t) ∧
    (¬ s.SrcInRange r ∨ ¬ s.DstInRange d →
      exec (.mov d r) s = .next { s with status := .failed .segmentationFault })

/-- R132 `ADD dst, src` and R133 `SUB dst, src`: encoding, result, flags, frame, and the failure of an operand out of range. -/
def Obligations.AddAndSubCombine : Prop :=
  ∀ (d : Dst) (r : Src) (s : State),
    encode (.add d r) = 0x20 :: (encodeDst d ++ encodeSrc r) ∧
    encode (.sub d r) = 0x21 :: (encodeDst d ++ encodeSrc r) ∧
    (s.mem.wf = true → s.SrcInRange r → s.DstInRange d →
      (∃ t, exec (.add d r) s = .next t ∧ s.Written t d (s.dstWord d + s.srcWord r) ∧
        t.flags = (addFlags (s.dstWord d) (s.srcWord r)).flags ∧ s.PastInstr t (.add d r) ∧ s.SameOutside t) ∧
      (∃ t, exec (.sub d r) s = .next t ∧ s.Written t d (s.dstWord d - s.srcWord r) ∧
        t.flags = (subFlags (s.dstWord d) (s.srcWord r)).flags ∧ s.PastInstr t (.sub d r) ∧ s.SameOutside t)) ∧
    (¬ s.SrcInRange r ∨ ¬ s.DstInRange d →
      exec (.add d r) s = .next { s with status := .failed .segmentationFault } ∧
      exec (.sub d r) s = .next { s with status := .failed .segmentationFault })

/-- R135 `INC dst` and R136 `DEC dst`: as an addition or a subtraction of 1, flags included. -/
def Obligations.IncAndDecByOne : Prop :=
  ∀ (d : Dst) (s : State),
    encode (.inc d) = 0x23 :: encodeDst d ∧ encode (.dec d) = 0x24 :: encodeDst d ∧
    (s.mem.wf = true → s.DstInRange d →
      (∃ t, exec (.inc d) s = .next t ∧ s.Written t d (s.dstWord d + 1) ∧
        t.flags = (addFlags (s.dstWord d) 1).flags ∧ s.PastInstr t (.inc d) ∧ s.SameOutside t) ∧
      (∃ t, exec (.dec d) s = .next t ∧ s.Written t d (s.dstWord d - 1) ∧
        t.flags = (subFlags (s.dstWord d) 1).flags ∧ s.PastInstr t (.dec d) ∧ s.SameOutside t)) ∧
    (¬ s.DstInRange d →
      exec (.inc d) s = .next { s with status := .failed .segmentationFault } ∧
      exec (.dec d) s = .next { s with status := .failed .segmentationFault })

/-- R134 `MUL src`: the truncated product in `AX`, the same for the signed and the unsigned reading of the factors, and the
flags, `VF` from the exact signed product. -/
def Obligations.MulMultipliesAccumulator : Prop :=
  ∀ (r : Src) (s : State),
    encode (.mul r) = 0x22 :: encodeSrc r ∧
    (s.SrcInRange r →
      ∃ t, exec (.mul r) s = .next t ∧
        t.reg .ax = wrap16 ((s.reg .ax).toInt * (s.srcWord r).toInt) ∧
        (t.reg .ax).toNat = (s.reg .ax).toNat * (s.srcWord r).toNat % 65536 ∧
        s.SameRegsBut t [.ax] ∧ s.SameBytes t ∧
        (t.flags.zf = true ↔ t.reg .ax = 0) ∧ t.flags.nf = (t.reg .ax).getLsbD 15 ∧
        (t.flags.vf = true ↔ (s.reg .ax).toInt * (s.srcWord r).toInt < -32768 ∨
          32767 < (s.reg .ax).toInt * (s.srcWord r).toInt) ∧
        s.PastInstr t (.mul r) ∧ s.SameOutside t) ∧
    (¬ s.SrcInRange r → exec (.mul r) s = .next { s with status := .failed .segmentationFault })

/-- R137 `CMP a, b`: the flags of the difference, and nothing else. -/
def Obligations.CmpSetsFlagsOnly : Prop :=
  ∀ (a b : Src) (s : State),
    encode (.cmp a b) = 0x25 :: (encodeSrc a ++ encodeSrc b) ∧
    (s.SrcInRange a → s.SrcInRange b →
      exec (.cmp a b) s = .next
        { s with flags := (subFlags (s.srcWord a) (s.srcWord b)).flags
                 pc := wrap16 (s.pc.toNat + (1 + a.size + b.size)) }) ∧
    (¬ s.SrcInRange a ∨ ¬ s.SrcInRange b →
      exec (.cmp a b) s = .next { s with status := .failed .segmentationFault })

/-! ### Control transfer -/

/-- R151 `JMP target`. -/
def Obligations.JmpSetsPc : Prop :=
  ∀ (target : Word) (s : State),
    encode (.jmp target) = [0x30, loByte target, hiByte target] ∧ exec (.jmp target) s = .next { s with pc := target }

/-- R152 to R157: each conditional jump goes to its target exactly under its condition on the flags, else past its three bytes;
it writes only `pc`; and after `CMP a, b` it is taken exactly for its signed relation. -/
def Obligations.ConditionalJumps : Prop :=
  (∀ (target : Word) (s : State),
    encode (.je target) = [0x31, loByte target, hiByte target] ∧
    encode (.jne target) = [0x32, loByte target, hiByte target] ∧
    encode (.jl target) = [0x33, loByte target, hiByte target] ∧
    encode (.jle target) = [0x34, loByte target, hiByte target] ∧
    encode (.jg target) = [0x35, loByte target, hiByte target] ∧
    encode (.jge target) = [0x36, loByte target, hiByte target] ∧
    exec (.je target) s = .next { s with pc := if s.flags.zf = true then target else wrap16 (s.pc.toNat + 3) } ∧
    exec (.jne target) s = .next { s with pc := if s.flags.zf = false then target else wrap16 (s.pc.toNat + 3) } ∧
    exec (.jl target) s = .next { s with pc := if s.flags.nf ≠ s.flags.vf then target else wrap16 (s.pc.toNat + 3) } ∧
    exec (.jle target) s = .next
      { s with pc := if s.flags.zf = true ∨ s.flags.nf ≠ s.flags.vf then target else wrap16 (s.pc.toNat + 3) } ∧
    exec (.jg target) s = .next
      { s with pc := if s.flags.zf = false ∧ s.flags.nf = s.flags.vf then target else wrap16 (s.pc.toNat + 3) } ∧
    exec (.jge target) s = .next { s with pc := if s.flags.nf = s.flags.vf then target else wrap16 (s.pc.toNat + 3) }) ∧
  (∀ (target : Word) (a b : Src) (s t : State), s.SrcInRange a → s.SrcInRange b → exec (.cmp a b) s = .next t →
    exec (.je target) t = .next { t with pc := if s.srcWord a = s.srcWord b then target else wrap16 (t.pc.toNat + 3) } ∧
    exec (.jne target) t = .next { t with pc := if s.srcWord a ≠ s.srcWord b then target else wrap16 (t.pc.toNat + 3) } ∧
    exec (.jl target) t = .next
      { t with pc := if (s.srcWord a).toInt < (s.srcWord b).toInt then target else wrap16 (t.pc.toNat + 3) } ∧
    exec (.jle target) t = .next
      { t with pc := if (s.srcWord a).toInt ≤ (s.srcWord b).toInt then target else wrap16 (t.pc.toNat + 3) } ∧
    exec (.jg target) t = .next
      { t with pc := if (s.srcWord b).toInt < (s.srcWord a).toInt then target else wrap16 (t.pc.toNat + 3) } ∧
    exec (.jge target) t = .next
      { t with pc := if (s.srcWord b).toInt ≤ (s.srcWord a).toInt then target else wrap16 (t.pc.toNat + 3) })

/-- R158 `LOOP target`: `CX` is decremented, wrapping, and the branch is taken unless the new `CX` is 0; no flag is written;
entered with `CX = 0` it wraps to `0xFFFF` and branches. -/
def Obligations.LoopDecrementsAndBranches : Prop :=
  ∀ (target : Word) (s : State),
    encode (.loop target) = [0x37, loByte target, hiByte target] ∧
    ∃ t, exec (.loop target) s = .next t ∧
      t.reg .cx = s.reg .cx - 1 ∧ s.SameRegsBut t [.cx] ∧ s.SameBytes t ∧ t.flags = s.flags ∧ t.status = s.status ∧
      s.SameOutside t ∧
      (t.reg .cx ≠ 0 → t.pc = target) ∧ (t.reg .cx = 0 → t.pc = wrap16 (s.pc.toNat + 3)) ∧
      (s.reg .cx = 0 → t.reg .cx = 0xFFFF ∧ t.pc = target)

/-- R159 `CALL target`: the address after the `CALL` is pushed and `pc` is the target; where the push leaves the stack region
(R62) nothing but `STATUS` changes. -/
def Obligations.CallPushesReturnAddress : Prop :=
  ∀ (target : Word) (s : State),
    encode (.call target) = [0x38, loByte target, hiByte target] ∧
    s.pushAddr = ((s.reg .sp).toNat + 65534) % 65536 ∧
    (s.mem.wf = true → s.CanPush →
      ∃ t, exec (.call target) s = .next t ∧ t.pc = target ∧
        (t.reg .sp).toNat = s.pushAddr ∧ s.SameRegsBut t [.sp] ∧
        t.byteAt s.pushAddr = loByte (wrap16 (s.pc.toNat + 3)) ∧
        t.byteAt (s.pushAddr + 1) = hiByte (wrap16 (s.pc.toNat + 3)) ∧
        s.SameBytesBut t s.pushAddr 2 ∧ t.flags = s.flags ∧ t.status = s.status ∧ s.SameOutside t) ∧
    (¬ s.CanPush → exec (.call target) s = .next { s with status := .failed .segmentationFault })

/-- R160 `RET`: `pc` is the word on top of the stack, which is dropped; `StackUnderflow` without a whole word between `SP` and
`STACK_BASE`, tested first, and `SegmentationFault` below `STACK_LIMIT` (R63). -/
def Obligations.RetPopsPc : Prop :=
  ∀ s : State,
    encode .ret = [0x39] ∧
    (s.CanPop → exec .ret s = .next
      { s with pc := s.wordAt (s.reg .sp).toNat, regs := s.regs.set .sp (wrap16 ((s.reg .sp).toNat + 2)) }) ∧
    (s.params.stackBase < (s.reg .sp).toNat + 2 → exec .ret s = .next { s with status := .failed .stackUnderflow }) ∧
    ((s.reg .sp).toNat + 2 ≤ s.params.stackBase → (s.reg .sp).toNat < s.params.stackLimit →
      exec .ret s = .next { s with status := .failed .segmentationFault })

/-- 42_control_transfer.md sections 3 and 4: a `RET` right after a `CALL` goes to the instruction after the `CALL` with every
register as it was; memory differs only in the two bytes pushed. -/
def Obligations.ReturnUndoesCall : Prop :=
  ∀ (target : Word) (s t : State), s.mem.wf = true → s.CanPush → exec (.call target) s = .next t →
    ∃ u, exec .ret t = .next u ∧ u.pc = wrap16 (s.pc.toNat + 3) ∧ u.regs = s.regs ∧ u.flags = s.flags ∧
      u.status = s.status ∧ s.SameBytesBut u s.pushAddr 2 ∧ s.SameOutside u

/-! ### Stack instructions -/

/-- R170 `PUSH src`: the operand is read, then pushed; the failures of the operand and of the stack region (R62). -/
def Obligations.PushStoresWord : Prop :=
  ∀ (r : Src) (s : State),
    encode (.push r) = 0x40 :: encodeSrc r ∧
    (s.mem.wf = true → s.SrcInRange r → s.CanPush →
      ∃ t, exec (.push r) s = .next t ∧
        (t.reg .sp).toNat = s.pushAddr ∧ s.SameRegsBut t [.sp] ∧
        t.byteAt s.pushAddr = loByte (s.srcWord r) ∧ t.byteAt (s.pushAddr + 1) = hiByte (s.srcWord r) ∧
        s.SameBytesBut t s.pushAddr 2 ∧ t.flags = s.flags ∧ s.PastInstr t (.push r) ∧ s.SameOutside t) ∧
    (¬ s.SrcInRange r ∨ ¬ s.CanPush → exec (.push r) s = .next { s with status := .failed .segmentationFault })

/-- R171 `POP dst`: into a register (`POP SP` ends with the popped word) and into memory at the address of the registers before
the instruction; the failures in their order. -/
def Obligations.PopLoadsWord : Prop :=
  ∀ (d : Dst) (s : State),
    encode (.pop d) = 0x41 :: encodeDst d ∧
    (s.mem.wf = true → s.CanPop → s.DstInRange d →
      ∃ t, exec (.pop d) s = .next t ∧ t.flags = s.flags ∧ s.PastInstr t (.pop d) ∧ s.SameOutside t ∧
        (d ≠ .reg .sp → t.reg .sp = wrap16 ((s.reg .sp).toNat + 2)) ∧
        (∀ r, d = .reg r →
          t.reg r = s.wordAt (s.reg .sp).toNat ∧ s.SameRegsBut t [r, .sp] ∧ s.SameBytes t) ∧
        (∀ m, d = .mem m →
          t.byteAt (s.ea m) = loByte (s.wordAt (s.reg .sp).toNat) ∧
          t.byteAt (s.ea m + 1) = hiByte (s.wordAt (s.reg .sp).toNat) ∧
          s.SameRegsBut t [.sp] ∧ s.SameBytesBut t (s.ea m) 2)) ∧
    (s.params.stackBase < (s.reg .sp).toNat + 2 → exec (.pop d) s = .next { s with status := .failed .stackUnderflow }) ∧
    ((s.reg .sp).toNat + 2 ≤ s.params.stackBase → (s.reg .sp).toNat < s.params.stackLimit →
      exec (.pop d) s = .next { s with status := .failed .segmentationFault }) ∧
    (s.CanPop → ¬ s.DstInRange d → exec (.pop d) s = .next { s with status := .failed .segmentationFault })

/-- 43_stack.md: a `POP` into a register right after a `PUSH` brings the pushed word back and restores `SP`. -/
def Obligations.PopUndoesPush : Prop :=
  ∀ (r : Src) (q : Reg) (s t : State), s.mem.wf = true → s.SrcInRange r → s.CanPush → q ≠ .sp →
    exec (.push r) s = .next t →
    ∃ u, exec (.pop (.reg q)) t = .next u ∧ u.reg q = s.srcWord r ∧ u.reg .sp = s.reg .sp ∧ s.SameRegsBut u [q]

/-! ### System instructions -/

/-- R180 `HALT` and R182 `SYSCALL EXIT`: `STATUS` is `Halted`; `pc` and everything else stay. -/
def Obligations.HaltAndExitStop : Prop :=
  encode .halt = [0x01] ∧ encode .sysExit = [0x50, 0x04] ∧
  ∀ s : State, exec .halt s = .next { s with status := .halted } ∧ exec .sysExit s = .next { s with status := .halted }

/-- R181, R93: the `sysno` byte selects the operation, and `0x0C` to `0xFF` raise `UnknownSyscall`. -/
def Obligations.SyscallDispatch : Prop :=
  (∀ (n : Byte) (rest : List Byte) (s : State), 0x0C ≤ n.toNat →
    encode (.syscall n) = [0x50, n] ∧ decode (0x50 :: n :: rest) = .ok (.syscall n, rest) ∧
    exec (.syscall n) s = .next { s with status := .failed .unknownSyscall }) ∧
  (∀ (n : Byte) (i : Instr), (n, i) ∈ ([(0x00, .sysAtoi), (0x01, .sysPrintInt), (0x02, .sysPrintChar), (0x03, .sysPrintString),
      (0x04, .sysExit), (0x05, .sysReadFile), (0x06, .sysClearScreen), (0x07, .sysSetColor), (0x08, .sysDrawRect),
      (0x09, .sysDrawCircle), (0x0A, .sysDrawLine), (0x0B, .sysPaintDisplay)] : List (Byte × Instr)) →
    (∀ rest, decode (0x50 :: n :: rest) = .ok (i, rest)) ∧ ∀ s, exec (.syscall n) s = exec i s)

/-- R230, R27: the codes of the five failures, and the exit status that the host reads. -/
def Obligations.FailureCodes : Prop :=
  Failure.segmentationFault.code = 1 ∧ Failure.stackUnderflow.code = 2 ∧ Failure.imageOverrun.code = 3 ∧
  Failure.illegalInstruction.code = 4 ∧ Failure.unknownSyscall.code = 5 ∧
  Status.running.exitStatus = none ∧ Status.halted.exitStatus = some 0 ∧
  ∀ f : Failure, (Status.failed f).exitStatus = some f.code

/-! ### Host syscalls -/

/-- R191 `ATOI`: an optional `-` and decimal digits up to the first other byte, wrapped to 16 bits; a scan that leaves memory
fails. -/
def Obligations.AtoiParsesDecimal : Prop :=
  encode .sysAtoi = [0x50, 0x00] ∧
  ∀ s : State,
    (∀ ds, s.HoldsDigits (s.reg .ax).toNat ds → s.byteAt (s.reg .ax).toNat ≠ 0x2D →
      exec .sysAtoi s = .next
        { s with regs := s.regs.set .ax (wrap16 (digitsValue ds)), pc := wrap16 (s.pc.toNat + 2) }) ∧
    (∀ ds, s.byteAt (s.reg .ax).toNat = 0x2D → s.HoldsDigits ((s.reg .ax).toNat + 1) ds →
      exec .sysAtoi s = .next
        { s with regs := s.regs.set .ax (wrap16 (-(digitsValue ds : Int))), pc := wrap16 (s.pc.toNat + 2) }) ∧
    (s.params.memSize ≤ (s.reg .ax).toNat →
      exec .sysAtoi s = .next { s with status := .failed .segmentationFault }) ∧
    ((∀ b, (s.reg .ax).toNat ≤ b → b < s.params.memSize →
        IsDecimalDigit (s.byteAt b) ∨ (b = (s.reg .ax).toNat ∧ s.byteAt b = 0x2D)) →
      exec .sysAtoi s = .next { s with status := .failed .segmentationFault })

/-- R192 `PRINT_INT`: the decimal numeral of `sint(AX)`, with `-` for a negative one, no leading zeros, nothing after it. -/
def Obligations.PrintIntWritesNumeral : Prop :=
  encode .sysPrintInt = [0x50, 0x01] ∧
  ∀ s : State, ∃ ds : List Byte,
    exec .sysPrintInt s = .next
      { s with out := s.out ++ ((if (s.reg .ax).toInt < 0 then [0x2D] else []) ++ ds), pc := wrap16 (s.pc.toNat + 2) } ∧
    digitsValue ds = (s.reg .ax).toInt.natAbs ∧ (∀ b ∈ ds, IsDecimalDigit b) ∧ ds ≠ [] ∧
    (ds.head? = some 0x30 → ds = [0x30])

/-- R193 `PRINT_CHAR`: the low byte of `AX`, whatever it is. -/
def Obligations.PrintCharWritesLowByte : Prop :=
  encode .sysPrintChar = [0x50, 0x02] ∧
  ∀ s : State, exec .sysPrintChar s = .next
    { s with out := s.out ++ [BitVec.ofNat 8 ((s.reg .ax).toNat % 256)], pc := wrap16 (s.pc.toNat + 2) }

/-- R194 `PRINT_STRING` and R190 `CStr`: the bytes up to the first zero byte, not it; without one inside memory the step fails and
`OUT` is unchanged. -/
def Obligations.PrintStringWritesString : Prop :=
  encode .sysPrintString = [0x50, 0x03] ∧
  ∀ s : State,
    (∀ str, s.HoldsString (s.reg .ax).toNat str →
      s.cstr (s.reg .ax) = .ok str ∧
      exec .sysPrintString s = .next { s with out := s.out ++ str, pc := wrap16 (s.pc.toNat + 2) }) ∧
    (s.Unterminated (s.reg .ax).toNat →
      s.cstr (s.reg .ax) = .error .segmentationFault ∧
      exec .sysPrintString s = .next { s with status := .failed .segmentationFault })

/-- R195 `READ_FILE`: for every answer of the filesystem to the path at `AX` (a missing file is no failure, R248), and the
failures; where the buffer of `CX` bytes at `BX` fits, the step completes whatever the answer. The counter of answered calls
is the model's own (log 6), and the host does answer, as R197 assumes (log 7). -/
def Obligations.ReadFileCopiesAnswer : Prop :=
  encode .sysReadFile = [0x50, 0x05] ∧
  ∀ s : State,
    (∀ path, s.mem.wf = true → s.HoldsString (s.reg .ax).toNat path →
      (s.fsAnswer path = .notFound →
        exec .sysReadFile s = .next
          { s with regs := s.regs.set .ax 0xFFFF, pc := wrap16 (s.pc.toNat + 2), fsCalls := s.fsCalls + 1 }) ∧
      (∀ content n, s.fsAnswer path = .bytes content → n = min content.length (s.reg .cx).toNat →
        (n = 0 ∨ (s.reg .bx).toNat + n ≤ s.params.memSize →
          ∃ t, exec .sysReadFile s = .next t ∧ t.reg .ax = wrap16 n ∧ s.SameRegsBut t [.ax] ∧
            (∀ k, (h : k < content.length) → k < n → t.byteAt ((s.reg .bx).toNat + k) = content[k]) ∧
            s.SameBytesBut t (s.reg .bx).toNat n ∧ t.flags = s.flags ∧ s.PastInstr t .sysReadFile ∧
            t.color = s.color ∧ t.fb = s.fb ∧ t.out = s.out ∧ t.disp = s.disp ∧ t.params = s.params) ∧
        (0 < n → s.params.memSize < (s.reg .bx).toNat + n →
          exec .sysReadFile s = .next { s with status := .failed .segmentationFault })) ∧
      ((s.reg .bx).toNat + (s.reg .cx).toNat ≤ s.params.memSize →
        ∃ t, exec .sysReadFile s = .next t ∧ s.PastInstr t .sysReadFile)) ∧
    (s.Unterminated (s.reg .ax).toNat →
      exec .sysReadFile s = .next { s with status := .failed .segmentationFault })

/-- R196 `PAINT_DISPLAY`: a copy of the framebuffer is appended to `DISP`, and nothing else changes but `pc`. The host
does answer, as R197 assumes (log 7). -/
def Obligations.PaintDisplayPresentsFrame : Prop :=
  encode .sysPaintDisplay = [0x50, 0x0B] ∧
  ∀ s : State, exec .sysPaintDisplay s = .next { s with disp := s.disp ++ [s.fb], pc := wrap16 (s.pc.toNat + 2) }

/-- R191 and R192 together: `ATOI` of the zero-terminated text that `PRINT_INT` writes for a word gives that word back. -/
def Obligations.AtoiInvertsPrintInt : Prop :=
  ∀ (s t u : State) (text : List Byte), exec .sysPrintInt s = .next t → t.out = s.out ++ text →
    u.HoldsString (u.reg .ax).toNat text →
    ∃ v, exec .sysAtoi u = .next v ∧ v.reg .ax = s.reg .ax ∧ u.SameRegsBut v [.ax] ∧ u.PastInstr v .sysAtoi

/-! ### Rasterizer -/

/-- R212 `CLEAR_SCREEN`: every pixel 0 and `COLOR` reset; nothing else changes but `pc`. -/
def Obligations.ClearScreenZeroesPixels : Prop :=
  encode .sysClearScreen = [0x50, 0x06] ∧
  ∀ s : State, ∃ fb, exec .sysClearScreen s = .next
      { s with fb := fb, color := s.params.colorReset, pc := wrap16 (s.pc.toNat + 2) } ∧
    ∀ x y, x < 160 → y < 144 → Framebuffer.pixel fb x y = 0

/-- R213 `SET_COLOR`: the low two bits of `AX`. -/
def Obligations.SetColorMasks : Prop :=
  encode .sysSetColor = [0x50, 0x07] ∧
  ∀ s : State, ∃ c, exec .sysSetColor s = .next { s with color := c, pc := wrap16 (s.pc.toNat + 2) } ∧
    c.toNat = (s.reg .ax).toNat % 4

/-- R214 `DRAW_RECT`: the pixels of the box, or of its one-pixel border when `EX` is 0, take the current colour; every other pixel
and everything but `pc` stays; a width or height that is not positive draws nothing. -/
def Obligations.DrawRectSetsBox : Prop :=
  encode .sysDrawRect = [0x50, 0x08] ∧
  ∀ s : State, Cells.wf s.fb = true →
    ∃ fb, exec .sysDrawRect s = .next { s with fb := fb, pc := wrap16 (s.pc.toNat + 2) } ∧
      ∀ px py : Nat, px < 160 → py < 144 →
        (((s.reg .ax).toInt ≤ px ∧ (px : Int) ≤ (s.reg .ax).toInt + (s.reg .cx).toInt - 1 ∧
          (s.reg .bx).toInt ≤ py ∧ (py : Int) ≤ (s.reg .bx).toInt + (s.reg .dx).toInt - 1 ∧
          (s.reg .ex ≠ 0 ∨ (px : Int) = (s.reg .ax).toInt ∨ (px : Int) = (s.reg .ax).toInt + (s.reg .cx).toInt - 1 ∨
            (py : Int) = (s.reg .bx).toInt ∨ (py : Int) = (s.reg .bx).toInt + (s.reg .dx).toInt - 1)) →
          Framebuffer.pixel fb px py = s.color) ∧
        (¬ ((s.reg .ax).toInt ≤ px ∧ (px : Int) ≤ (s.reg .ax).toInt + (s.reg .cx).toInt - 1 ∧
          (s.reg .bx).toInt ≤ py ∧ (py : Int) ≤ (s.reg .bx).toInt + (s.reg .dx).toInt - 1 ∧
          (s.reg .ex ≠ 0 ∨ (px : Int) = (s.reg .ax).toInt ∨ (px : Int) = (s.reg .ax).toInt + (s.reg .cx).toInt - 1 ∨
            (py : Int) = (s.reg .bx).toInt ∨ (py : Int) = (s.reg .bx).toInt + (s.reg .dx).toInt - 1)) →
          Framebuffer.pixel fb px py = s.fb.pixel px py)

/-- R215 `DRAW_CIRCLE`: exactly the pixels that the loop of the rule plots take the current colour (none for a negative radius);
every other pixel and everything but `pc` stays. -/
def Obligations.DrawCircleSetsLoopPoints : Prop :=
  encode .sysDrawCircle = [0x50, 0x09] ∧
  ∀ s : State, Cells.wf s.fb = true →
    ∃ fb, exec .sysDrawCircle s = .next { s with fb := fb, pc := wrap16 (s.pc.toNat + 2) } ∧
      ∀ px py : Nat, px < 160 → py < 144 →
        ((0 ≤ (s.reg .cx).toInt ∧ ∃ x y d : Int, CircleReaches (s.reg .cx).toInt x y d ∧ x ≤ y ∧
            CircleOffset x y ((px : Int) - (s.reg .ax).toInt, (py : Int) - (s.reg .bx).toInt)) →
          Framebuffer.pixel fb px py = s.color) ∧
        (¬ (0 ≤ (s.reg .cx).toInt ∧ ∃ x y d : Int, CircleReaches (s.reg .cx).toInt x y d ∧ x ≤ y ∧
            CircleOffset x y ((px : Int) - (s.reg .ax).toInt, (py : Int) - (s.reg .bx).toInt)) →
          Framebuffer.pixel fb px py = s.fb.pixel px py)

/-- R216 `DRAW_LINE`: exactly the pixels that the loop of the rule plots take the current colour; every other pixel and everything
but `pc` stays. -/
def Obligations.DrawLineSetsLoopPoints : Prop :=
  encode .sysDrawLine = [0x50, 0x0A] ∧
  ∀ s : State, Cells.wf s.fb = true →
    ∃ fb, exec .sysDrawLine s = .next { s with fb := fb, pc := wrap16 (s.pc.toNat + 2) } ∧
      ∀ px py : Nat, px < 160 → py < 144 →
        ((∃ err, LineReaches (s.reg .ax).toInt (s.reg .bx).toInt (s.reg .cx).toInt (s.reg .dx).toInt px py err) →
          Framebuffer.pixel fb px py = s.color) ∧
        (¬ (∃ err, LineReaches (s.reg .ax).toInt (s.reg .bx).toInt (s.reg .cx).toInt (s.reg .dx).toInt px py err) →
          Framebuffer.pixel fb px py = s.fb.pixel px py)

/-- 46_rasterizer.md, the derived properties under R216: the line plots `max(|x2-x1|, |y2-y1|) + 1` points, from the first end to
the other, each next to the one before it and monotone in both coordinates. -/
def Obligations.LinePathIsConnected : Prop :=
  ∀ x1 y1 x2 y2 : Int,
    (linePoints x1 y1 x2 y2).length = max (x2 - x1).natAbs (y2 - y1).natAbs + 1 ∧
    (linePoints x1 y1 x2 y2).head? = some (x1, y1) ∧
    (linePoints x1 y1 x2 y2).getLast? = some (x2, y2) ∧
    ∀ k, (h : k + 1 < (linePoints x1 y1 x2 y2).length) →
      let p := (linePoints x1 y1 x2 y2)[k]
      let q := (linePoints x1 y1 x2 y2)[k + 1]
      (q.1 = p.1 ∨ q.1 = p.1 + lineSign x1 x2) ∧ (q.2 = p.2 ∨ q.2 = p.2 + lineSign y1 y2) ∧ q ≠ p

/-- A property of the algorithm of 46_rasterizer.md section 2 (`DRAW_CIRCLE`): every plotted point is near the circle, its
squared distance from the centre within `r` of `r²`. -/
def Obligations.CirclePointsAreNearRadius : Prop :=
  ∀ (cx cy r : Int), ∀ p ∈ circlePoints cx cy r,
    r * r - r ≤ (p.1 - cx) * (p.1 - cx) + (p.2 - cy) * (p.2 - cy) ∧
    (p.1 - cx) * (p.1 - cx) + (p.2 - cy) * (p.2 - cy) ≤ r * r + r

/-- 46_rasterizer.md section 3: "drawing is idempotent": the same drawing syscall again, with the same registers and colour,
leaves the framebuffer as it is. -/
def Obligations.DrawingIsIdempotent : Prop :=
  ∀ i ∈ [Instr.sysClearScreen, Instr.sysDrawRect, Instr.sysDrawCircle, Instr.sysDrawLine], ∀ s t u : State,
    Cells.wf s.fb = true → exec i s = .next t → exec i t = .next u → u.fb = t.fb

/-! ### The whole machine -/

/-- R238: failures are precise. Whatever instruction stands at `pc`, a step that fails changes `STATUS` and nothing else. -/
def Obligations.FailuresArePrecise : Prop :=
  ∀ (s t : State) (f : Failure), s.status = .running → step s = .next t → t.status = .failed f →
    t = { s with status := .failed f }

/-- 70_reset_and_hazards.md section 3: `STATUS = Halted` is reached only by executing `HALT` or `SYSCALL EXIT`. -/
def Obligations.HaltedOnlyByHaltOrExit : Prop :=
  ∀ s t : State, s.status = .running → step s = .next t → t.status = .halted →
    s.HoldsCode s.pc.toNat (encode .halt) ∨ s.HoldsCode s.pc.toNat (encode .sysExit)

/-- 10_state.md section 4: `ADD`, `SUB`, `INC`, `DEC`, `MUL` and `CMP` are the only instructions that write a flag. -/
def Obligations.FlagWritersAreSix : Prop :=
  ∀ (i : Instr) (s t : State), exec i s = .next t → t.flags ≠ s.flags →
    (∃ d r, i = .add d r ∨ i = .sub d r) ∨ (∃ d, i = .inc d ∨ i = .dec d) ∨ (∃ r, i = .mul r) ∨ ∃ a b, i = .cmp a b

/-- R183: a syscall writes exactly the state that its row of the table names; the guest's stack and registers but `AX`, and the
flags, are preserved by every one. A failed syscall has only changed `STATUS` (R238). -/
def Obligations.SyscallsWriteOnlyTheirTable : Prop :=
  ∀ i ∈ [Instr.sysAtoi, .sysPrintInt, .sysPrintChar, .sysPrintString, .sysExit, .sysReadFile, .sysClearScreen, .sysSetColor,
      .sysDrawRect, .sysDrawCircle, .sysDrawLine, .sysPaintDisplay], ∀ s t : State, exec i s = .next t →
    s.SameRegsBut t [.ax] ∧ t.flags = s.flags ∧ t.params = s.params ∧
    (i ≠ .sysAtoi → i ≠ .sysReadFile → t.reg .ax = s.reg .ax) ∧
    (i ∉ [Instr.sysPrintInt, .sysPrintChar, .sysPrintString] → t.out = s.out) ∧
    (i ≠ .sysReadFile → s.SameBytes t) ∧
    (i = .sysReadFile → s.SameBytesBut t (s.reg .bx).toNat (s.reg .cx).toNat) ∧
    (i ∉ [Instr.sysClearScreen, .sysDrawRect, .sysDrawCircle, .sysDrawLine] → t.fb = s.fb) ∧
    (i ∉ [Instr.sysClearScreen, .sysSetColor] → t.color = s.color) ∧
    (i ≠ .sysPaintDisplay → t.disp = s.disp) ∧
    (i ≠ .sysExit → t.status = s.status ∨ ∃ f, t = { s with status := .failed f })

/-- 10_state.md sections 6 and 7 (R29, R30, R32): no instruction but `SYSCALL` touches the rasterizer, the host records or the
answered calls, and none of those that store nothing changes a byte of memory: `HALT`, `MUL`, `CMP`, the jumps, `LOOP`, `RET`, and
`MOV`, `ADD`, `SUB`, `INC`, `DEC`, `POP` with a register destination. -/
def Obligations.EngineInstructionsFrame : Prop :=
  ∀ (s t : State),
    (∀ (d : Dst) (r a b : Src) (target : Word),
      ∀ i ∈ [Instr.halt, .mov d r, .add d r, .sub d r, .mul r, .inc d, .dec d, .cmp a b, .jmp target, .je target, .jne target,
        .jl target, .jle target, .jg target, .jge target, .loop target, .call target, .ret, .push r, .pop d],
        exec i s = .next t → s.SameOutside t) ∧
    (∀ (q : Reg) (r a b : Src) (target : Word),
      ∀ i ∈ [Instr.halt, .mov (.reg q) r, .add (.reg q) r, .sub (.reg q) r, .mul r, .inc (.reg q), .dec (.reg q), .cmp a b,
        .jmp target, .je target, .jne target, .jl target, .jle target, .jg target, .jge target, .loop target, .ret,
        .pop (.reg q)],
        exec i s = .next t → s.SameBytes t)

/-- 00_scope.md section 4 (R8): no parameter changes during a run. That the parameters stand in `State` is log 1. -/
def Obligations.ParametersNeverChange : Prop :=
  ∀ (n : Nat) (s t : State), Sys2Proof.core.run n s = .next t → t.params = s.params

/-- 10_state.md section 7 (R33, R34): the output stream and the display record are append-only over a whole run. -/
def Obligations.OutputRecordsOnlyGrow : Prop :=
  ∀ (n : Nat) (s t : State), Sys2Proof.core.run n s = .next t →
    (∃ bytes, t.out = s.out ++ bytes) ∧ ∃ frames, t.disp = s.disp ++ frames

/-- 20_memory.md section 6 (R68): a store into the code region is seen by the next fetch: a `MOV` of an immediate onto the two
bytes right after itself makes the next step run the instruction that they encode. -/
def Obligations.StoreIntoCodeIsFetched : Prop :=
  ∀ (s : State) (v : Word) (i : Instr), s.status = .running → s.params.consistent = true → s.mem.wf = true →
    s.pc.toNat + 9 ≤ s.params.codeEnd → i.WellFormed → encode i = [loByte v, hiByte v] →
    ∃ t, exec (.mov (.mem (.abs (wrap16 (s.pc.toNat + 7)))) (.imm v)) s = .next t ∧ step t = exec i t
end

