-- ==== Sys2Proof/Laws/Cells.lean ====
section
/-! SUPPORT. The laws of `Cells`: read after write, and the canonical form, which every write keeps. -/

namespace Sys2Proof.Machine

variable {w : Nat}

@[simp] theorem Cells.read_nil (a : Nat) : Cells.read ([] : Cells w) a = unlisted w := rfl

theorem Cells.read_listed (k : Nat) (v : BitVec w) (rest : Cells w) (a : Nat) :
    Cells.read ((k, v) :: rest) a = if a = k then v else Cells.read rest a := rfl

/-- A cell put in front of a store that does not list its key is read back. -/
theorem Cells.read_cons_self (a : Nat) (v : BitVec w) (rest : Cells w) (h : Cells.read rest a = unlisted w) :
    Cells.read (Cells.cons a v rest) a = v := by
  unfold Cells.cons
  split
  · next hv => rw [h, hv]
  · simp [Cells.read_listed]

theorem Cells.read_cons_ne {a b : Nat} (v : BitVec w) (rest : Cells w) (h : b ≠ a) :
    Cells.read (Cells.cons a v rest) b = Cells.read rest b := by
  unfold Cells.cons
  split
  · rfl
  · simp [Cells.read_listed, h]

/-- A write leaves every other cell alone, in any store. -/
theorem Cells.read_write_ne {a b : Nat} (m : Cells w) (v : BitVec w) (h : b ≠ a) :
    Cells.read (Cells.write m a v) b = Cells.read m b := by
  induction m with
  | nil => simp [Cells.write, Cells.read_cons_ne v [] h]
  | cons c rest ih =>
    obtain ⟨k, u⟩ := c
    unfold Cells.write
    split
    · exact Cells.read_cons_ne v _ h
    · split
      · next _ hk => subst hk; rw [Cells.read_cons_ne v _ h, Cells.read_listed, if_neg h]
      · rw [Cells.read_listed, Cells.read_listed, ih]

/-- A key below the first listed one reads as unlisted. -/
theorem Cells.read_below_first {lo a : Nat} {m : Cells w} (h : Cells.wfFrom lo m = true) (ha : a < lo) :
    Cells.read m a = unlisted w := by
  induction m generalizing lo with
  | nil => rfl
  | cons c rest ih =>
    obtain ⟨k, u⟩ := c
    simp only [Cells.wfFrom, Bool.and_eq_true, decide_eq_true_eq] at h
    rw [Cells.read_listed, if_neg (by omega)]
    exact ih h.2 (by omega)

theorem Cells.read_write_self_from {lo a : Nat} {m : Cells w} (v : BitVec w) (h : Cells.wfFrom lo m = true) :
    Cells.read (Cells.write m a v) a = v := by
  induction m generalizing lo with
  | nil => exact Cells.read_cons_self a v [] rfl
  | cons c rest ih =>
    obtain ⟨k, u⟩ := c
    have h' := h
    simp only [Cells.wfFrom, Bool.and_eq_true, decide_eq_true_eq] at h
    unfold Cells.write
    split
    · next hlt =>
      refine Cells.read_cons_self a v _ ?_
      rw [Cells.read_listed, if_neg (by omega)]
      exact Cells.read_below_first h.2 (by omega)
    · split
      · exact Cells.read_cons_self a v _ (Cells.read_below_first h.2 (by omega))
      · rw [Cells.read_listed, if_neg (by omega)]
        exact ih h.2

/-- A read after a write to the same key gives the value written. -/
theorem Cells.read_write_self {m : Cells w} (a : Nat) (v : BitVec w) (h : Cells.wf m = true) :
    Cells.read (Cells.write m a v) a = v :=
  Cells.read_write_self_from v h

theorem Cells.wfFrom_mono {lo lo' : Nat} {m : Cells w} (h : Cells.wfFrom lo m = true) (hl : lo' ≤ lo) :
    Cells.wfFrom lo' m = true := by
  cases m with
  | nil => rfl
  | cons c rest =>
    obtain ⟨k, u⟩ := c
    simp only [Cells.wfFrom, Bool.and_eq_true, decide_eq_true_eq] at h ⊢
    exact ⟨⟨by omega, h.1.2⟩, h.2⟩

theorem Cells.wfFrom_cons {lo a : Nat} {rest : Cells w} (v : BitVec w) (h : Cells.wfFrom (a + 1) rest = true)
    (ha : lo ≤ a) : Cells.wfFrom lo (Cells.cons a v rest) = true := by
  unfold Cells.cons
  split
  · exact Cells.wfFrom_mono h (by omega)
  · next hv => simp [Cells.wfFrom, ha, hv, h]

theorem Cells.wfFrom_write {lo a : Nat} {m : Cells w} (v : BitVec w) (h : Cells.wfFrom lo m = true) (ha : lo ≤ a) :
    Cells.wfFrom lo (Cells.write m a v) = true := by
  induction m generalizing lo with
  | nil => exact Cells.wfFrom_cons v rfl ha
  | cons c rest ih =>
    obtain ⟨k, u⟩ := c
    simp only [Cells.wfFrom, Bool.and_eq_true, decide_eq_true_eq] at h
    unfold Cells.write
    split
    · next hlt => exact Cells.wfFrom_cons v (by simp [Cells.wfFrom, h.1.2, h.2]; omega) ha
    · split
      · next _ hk => exact Cells.wfFrom_cons v (by rw [hk]; exact h.2) ha
      · simp only [Cells.wfFrom, Bool.and_eq_true, decide_eq_true_eq]
        exact ⟨h.1, ih h.2 (by omega)⟩

/-- A write keeps the canonical form. -/
theorem Cells.wf_write {m : Cells w} (a : Nat) (v : BitVec w) (h : Cells.wf m = true) :
    Cells.wf (Cells.write m a v) = true :=
  Cells.wfFrom_write v h (Nat.zero_le a)

/-- Writes of consecutive cells keep the canonical form. -/
theorem Cells.wf_writeList {m : Cells w} (a : Nat) (vs : List (BitVec w)) (h : Cells.wf m = true) :
    Cells.wf (Cells.writeList m a vs) = true := by
  induction vs generalizing a with
  | nil => exact h
  | cons v vs ih => exact Cells.wf_write a v (ih (a + 1))

theorem Cells.below_cons {bound a : Nat} {rest : Cells w} (v : BitVec w) (h : Cells.below bound rest = true)
    (ha : a < bound) : Cells.below bound (Cells.cons a v rest) = true := by
  unfold Cells.cons
  split
  · exact h
  · simp only [Cells.below, List.all_cons, Bool.and_eq_true, decide_eq_true_eq]
    exact ⟨ha, h⟩

/-- A write below a bound keeps every listed key below it. -/
theorem Cells.below_write {bound a : Nat} {m : Cells w} (v : BitVec w) (h : Cells.below bound m = true) (ha : a < bound) :
    Cells.below bound (Cells.write m a v) = true := by
  induction m with
  | nil => exact Cells.below_cons v rfl ha
  | cons c rest ih =>
    obtain ⟨k, u⟩ := c
    have h' := h
    simp only [Cells.below, List.all_cons, Bool.and_eq_true, decide_eq_true_eq] at h
    unfold Cells.write
    split
    · exact Cells.below_cons v h' ha
    · split
      · exact Cells.below_cons v h.2 ha
      · simp only [Cells.below, List.all_cons, Bool.and_eq_true, decide_eq_true_eq]
        exact ⟨h.1, ih h.2⟩

theorem Cells.below_writeList {bound a : Nat} {m : Cells w} (vs : List (BitVec w)) (h : Cells.below bound m = true)
    (ha : vs = [] ∨ a + vs.length ≤ bound) : Cells.below bound (Cells.writeList m a vs) = true := by
  induction vs generalizing a with
  | nil => exact h
  | cons v vs ih =>
    simp only [List.length_cons, reduceCtorEq, false_or] at ha
    exact Cells.below_write v (ih (Or.inr (by omega))) (by omega)

theorem Cells.below_mono {b b' : Nat} {m : Cells w} (h : Cells.below b m = true) (hb : b ≤ b') :
    Cells.below b' m = true := by
  simp only [Cells.below, List.all_eq_true, decide_eq_true_eq] at h ⊢
  exact fun c hc => Nat.lt_of_lt_of_le (h c hc) hb

/-- A key at or above the bound of a store reads as unlisted. -/
theorem Cells.read_of_below {bound a : Nat} {m : Cells w} (h : Cells.below bound m = true) (ha : bound ≤ a) :
    Cells.read m a = unlisted w := by
  induction m with
  | nil => rfl
  | cons c rest ih =>
    obtain ⟨k, u⟩ := c
    simp only [Cells.below, List.all_cons, Bool.and_eq_true, decide_eq_true_eq] at h
    rw [Cells.read_listed, if_neg (by omega)]
    exact ih h.2

/-- Consecutive writes leave the cells outside their range alone. -/
theorem Cells.read_writeList_outside {a b : Nat} (m : Cells w) (vs : List (BitVec w)) (h : b < a ∨ a + vs.length ≤ b) :
    Cells.read (Cells.writeList m a vs) b = Cells.read m b := by
  induction vs generalizing a with
  | nil => rfl
  | cons v vs ih =>
    simp only [List.length_cons] at h
    rw [Cells.writeList, Cells.read_write_ne _ v (by omega)]
    exact ih (by omega)

/-- Consecutive writes are read back. -/
theorem Cells.read_writeList_inside {a i : Nat} {m : Cells w} (vs : List (BitVec w)) (h : Cells.wf m = true)
    (hi : i < vs.length) : Cells.read (Cells.writeList m a vs) (a + i) = vs[i] := by
  induction vs generalizing a i with
  | nil => exact absurd hi (Nat.not_lt_zero i)
  | cons v vs ih =>
    cases i with
    | zero => exact Cells.read_write_self a v (Cells.wf_writeList (a + 1) vs h)
    | succ j =>
      rw [Cells.writeList, Cells.read_write_ne _ v (by omega), show a + (j + 1) = a + 1 + j by omega]
      exact ih (by simpa using hi)

theorem Cells.ext_from {lo : Nat} {m m' : Cells w} (h : Cells.wfFrom lo m = true) (h' : Cells.wfFrom lo m' = true)
    (hr : ∀ a, Cells.read m a = Cells.read m' a) : m = m' := by
  induction m generalizing lo m' with
  | nil =>
    cases m' with
    | nil => rfl
    | cons c rest =>
      obtain ⟨k, u⟩ := c
      simp only [Cells.wfFrom, Bool.and_eq_true, decide_eq_true_eq] at h'
      have := hr k
      simp [Cells.read_listed] at this
      exact absurd this.symm h'.1.2
  | cons c rest ih =>
    obtain ⟨k, u⟩ := c
    cases m' with
    | nil =>
      simp only [Cells.wfFrom, Bool.and_eq_true, decide_eq_true_eq] at h
      have := hr k
      simp [Cells.read_listed] at this
      exact absurd this h.1.2
    | cons c' rest' =>
      obtain ⟨k', u'⟩ := c'
      simp only [Cells.wfFrom, Bool.and_eq_true, decide_eq_true_eq] at h h'
      have hk : k = k' := by
        rcases Nat.lt_trichotomy k k' with hlt | he | hlt
        · have := hr k
          rw [Cells.read_listed, if_pos rfl, Cells.read_listed, if_neg (by omega),
            Cells.read_below_first h'.2 (by omega)] at this
          exact absurd this h.1.2
        · exact he
        · have := hr k'
          rw [Cells.read_listed, if_neg (by omega), Cells.read_below_first h.2 (by omega), Cells.read_listed,
            if_pos rfl] at this
          exact absurd this.symm h'.1.2
      subst hk
      have hu : u = u' := by simpa [Cells.read_listed] using hr k
      subst hu
      have hrest : rest = rest' := by
        refine ih h.2 h'.2 fun a => ?_
        by_cases ha : a = k
        · subst ha
          rw [Cells.read_below_first h.2 (by omega), Cells.read_below_first h'.2 (by omega)]
        · simpa [Cells.read_listed, ha] using hr a
      rw [hrest]

/-- Equal contents are equal data. -/
theorem Cells.ext {m m' : Cells w} (h : Cells.wf m = true) (h' : Cells.wf m' = true)
    (hr : ∀ a, Cells.read m a = Cells.read m' a) : m = m' :=
  Cells.ext_from h h' hr

end Sys2Proof.Machine
end

