-- ==== Sys2Proof/Laws/State.lean ====
section
/-! SUPPORT. One lemma for each field of `State` under each of its updates, true by `rfl`, so that no proof unfolds a record
update; the field lemmas of `jumpIf`, and the register file's read after write. -/

namespace Sys2Proof.Machine

/-! ### `State.setReg` -/

@[simp] theorem State.setReg_regs (s : State) (r : Reg) (v : Word) :
    (s.setReg r v).regs = s.regs.set r v := rfl
@[simp] theorem State.setReg_pc (s : State) (r : Reg) (v : Word) :
    (s.setReg r v).pc = s.pc := rfl
@[simp] theorem State.setReg_flags (s : State) (r : Reg) (v : Word) :
    (s.setReg r v).flags = s.flags := rfl
@[simp] theorem State.setReg_status (s : State) (r : Reg) (v : Word) :
    (s.setReg r v).status = s.status := rfl
@[simp] theorem State.setReg_mem (s : State) (r : Reg) (v : Word) :
    (s.setReg r v).mem = s.mem := rfl
@[simp] theorem State.setReg_color (s : State) (r : Reg) (v : Word) :
    (s.setReg r v).color = s.color := rfl
@[simp] theorem State.setReg_fb (s : State) (r : Reg) (v : Word) :
    (s.setReg r v).fb = s.fb := rfl
@[simp] theorem State.setReg_out (s : State) (r : Reg) (v : Word) :
    (s.setReg r v).out = s.out := rfl
@[simp] theorem State.setReg_disp (s : State) (r : Reg) (v : Word) :
    (s.setReg r v).disp = s.disp := rfl
@[simp] theorem State.setReg_params (s : State) (r : Reg) (v : Word) :
    (s.setReg r v).params = s.params := rfl
@[simp] theorem State.setReg_fsCalls (s : State) (r : Reg) (v : Word) :
    (s.setReg r v).fsCalls = s.fsCalls := rfl

/-! ### `State.setFlags` -/

@[simp] theorem State.setFlags_regs (s : State) (f : Flags) :
    (s.setFlags f).regs = s.regs := rfl
@[simp] theorem State.setFlags_pc (s : State) (f : Flags) :
    (s.setFlags f).pc = s.pc := rfl
@[simp] theorem State.setFlags_flags (s : State) (f : Flags) :
    (s.setFlags f).flags = f := rfl
@[simp] theorem State.setFlags_status (s : State) (f : Flags) :
    (s.setFlags f).status = s.status := rfl
@[simp] theorem State.setFlags_mem (s : State) (f : Flags) :
    (s.setFlags f).mem = s.mem := rfl
@[simp] theorem State.setFlags_color (s : State) (f : Flags) :
    (s.setFlags f).color = s.color := rfl
@[simp] theorem State.setFlags_fb (s : State) (f : Flags) :
    (s.setFlags f).fb = s.fb := rfl
@[simp] theorem State.setFlags_out (s : State) (f : Flags) :
    (s.setFlags f).out = s.out := rfl
@[simp] theorem State.setFlags_disp (s : State) (f : Flags) :
    (s.setFlags f).disp = s.disp := rfl
@[simp] theorem State.setFlags_params (s : State) (f : Flags) :
    (s.setFlags f).params = s.params := rfl
@[simp] theorem State.setFlags_fsCalls (s : State) (f : Flags) :
    (s.setFlags f).fsCalls = s.fsCalls := rfl

/-! ### `State.jump` -/

@[simp] theorem State.jump_regs (s : State) (t : Word) :
    (s.jump t).regs = s.regs := rfl
@[simp] theorem State.jump_pc (s : State) (t : Word) :
    (s.jump t).pc = t := rfl
@[simp] theorem State.jump_flags (s : State) (t : Word) :
    (s.jump t).flags = s.flags := rfl
@[simp] theorem State.jump_status (s : State) (t : Word) :
    (s.jump t).status = s.status := rfl
@[simp] theorem State.jump_mem (s : State) (t : Word) :
    (s.jump t).mem = s.mem := rfl
@[simp] theorem State.jump_color (s : State) (t : Word) :
    (s.jump t).color = s.color := rfl
@[simp] theorem State.jump_fb (s : State) (t : Word) :
    (s.jump t).fb = s.fb := rfl
@[simp] theorem State.jump_out (s : State) (t : Word) :
    (s.jump t).out = s.out := rfl
@[simp] theorem State.jump_disp (s : State) (t : Word) :
    (s.jump t).disp = s.disp := rfl
@[simp] theorem State.jump_params (s : State) (t : Word) :
    (s.jump t).params = s.params := rfl
@[simp] theorem State.jump_fsCalls (s : State) (t : Word) :
    (s.jump t).fsCalls = s.fsCalls := rfl

/-! ### `State.advance` -/

@[simp] theorem State.advance_regs (s : State) (len : Nat) :
    (s.advance len).regs = s.regs := rfl
@[simp] theorem State.advance_pc (s : State) (len : Nat) :
    (s.advance len).pc = wrap16 (s.pc.toNat + len) := rfl
@[simp] theorem State.advance_flags (s : State) (len : Nat) :
    (s.advance len).flags = s.flags := rfl
@[simp] theorem State.advance_status (s : State) (len : Nat) :
    (s.advance len).status = s.status := rfl
@[simp] theorem State.advance_mem (s : State) (len : Nat) :
    (s.advance len).mem = s.mem := rfl
@[simp] theorem State.advance_color (s : State) (len : Nat) :
    (s.advance len).color = s.color := rfl
@[simp] theorem State.advance_fb (s : State) (len : Nat) :
    (s.advance len).fb = s.fb := rfl
@[simp] theorem State.advance_out (s : State) (len : Nat) :
    (s.advance len).out = s.out := rfl
@[simp] theorem State.advance_disp (s : State) (len : Nat) :
    (s.advance len).disp = s.disp := rfl
@[simp] theorem State.advance_params (s : State) (len : Nat) :
    (s.advance len).params = s.params := rfl
@[simp] theorem State.advance_fsCalls (s : State) (len : Nat) :
    (s.advance len).fsCalls = s.fsCalls := rfl

/-! ### `State.fail` -/

@[simp] theorem State.fail_regs (s : State) (f : Failure) :
    (s.fail f).regs = s.regs := rfl
@[simp] theorem State.fail_pc (s : State) (f : Failure) :
    (s.fail f).pc = s.pc := rfl
@[simp] theorem State.fail_flags (s : State) (f : Failure) :
    (s.fail f).flags = s.flags := rfl
@[simp] theorem State.fail_status (s : State) (f : Failure) :
    (s.fail f).status = .failed f := rfl
@[simp] theorem State.fail_mem (s : State) (f : Failure) :
    (s.fail f).mem = s.mem := rfl
@[simp] theorem State.fail_color (s : State) (f : Failure) :
    (s.fail f).color = s.color := rfl
@[simp] theorem State.fail_fb (s : State) (f : Failure) :
    (s.fail f).fb = s.fb := rfl
@[simp] theorem State.fail_out (s : State) (f : Failure) :
    (s.fail f).out = s.out := rfl
@[simp] theorem State.fail_disp (s : State) (f : Failure) :
    (s.fail f).disp = s.disp := rfl
@[simp] theorem State.fail_params (s : State) (f : Failure) :
    (s.fail f).params = s.params := rfl
@[simp] theorem State.fail_fsCalls (s : State) (f : Failure) :
    (s.fail f).fsCalls = s.fsCalls := rfl

/-! ### `State.halt` -/

@[simp] theorem State.halt_regs (s : State) :
    s.halt.regs = s.regs := rfl
@[simp] theorem State.halt_pc (s : State) :
    s.halt.pc = s.pc := rfl
@[simp] theorem State.halt_flags (s : State) :
    s.halt.flags = s.flags := rfl
@[simp] theorem State.halt_status (s : State) :
    s.halt.status = .halted := rfl
@[simp] theorem State.halt_mem (s : State) :
    s.halt.mem = s.mem := rfl
@[simp] theorem State.halt_color (s : State) :
    s.halt.color = s.color := rfl
@[simp] theorem State.halt_fb (s : State) :
    s.halt.fb = s.fb := rfl
@[simp] theorem State.halt_out (s : State) :
    s.halt.out = s.out := rfl
@[simp] theorem State.halt_disp (s : State) :
    s.halt.disp = s.disp := rfl
@[simp] theorem State.halt_params (s : State) :
    s.halt.params = s.params := rfl
@[simp] theorem State.halt_fsCalls (s : State) :
    s.halt.fsCalls = s.fsCalls := rfl

/-! ### `State.storeByte` -/

@[simp] theorem State.storeByte_regs (s : State) (a : Nat) (v : Byte) :
    (s.storeByte a v).regs = s.regs := rfl
@[simp] theorem State.storeByte_pc (s : State) (a : Nat) (v : Byte) :
    (s.storeByte a v).pc = s.pc := rfl
@[simp] theorem State.storeByte_flags (s : State) (a : Nat) (v : Byte) :
    (s.storeByte a v).flags = s.flags := rfl
@[simp] theorem State.storeByte_status (s : State) (a : Nat) (v : Byte) :
    (s.storeByte a v).status = s.status := rfl
@[simp] theorem State.storeByte_mem (s : State) (a : Nat) (v : Byte) :
    (s.storeByte a v).mem = s.mem.write a v := rfl
@[simp] theorem State.storeByte_color (s : State) (a : Nat) (v : Byte) :
    (s.storeByte a v).color = s.color := rfl
@[simp] theorem State.storeByte_fb (s : State) (a : Nat) (v : Byte) :
    (s.storeByte a v).fb = s.fb := rfl
@[simp] theorem State.storeByte_out (s : State) (a : Nat) (v : Byte) :
    (s.storeByte a v).out = s.out := rfl
@[simp] theorem State.storeByte_disp (s : State) (a : Nat) (v : Byte) :
    (s.storeByte a v).disp = s.disp := rfl
@[simp] theorem State.storeByte_params (s : State) (a : Nat) (v : Byte) :
    (s.storeByte a v).params = s.params := rfl
@[simp] theorem State.storeByte_fsCalls (s : State) (a : Nat) (v : Byte) :
    (s.storeByte a v).fsCalls = s.fsCalls := rfl

/-! ### `State.storeWord` -/

@[simp] theorem State.storeWord_regs (s : State) (a : Nat) (v : Word) :
    (s.storeWord a v).regs = s.regs := rfl
@[simp] theorem State.storeWord_pc (s : State) (a : Nat) (v : Word) :
    (s.storeWord a v).pc = s.pc := rfl
@[simp] theorem State.storeWord_flags (s : State) (a : Nat) (v : Word) :
    (s.storeWord a v).flags = s.flags := rfl
@[simp] theorem State.storeWord_status (s : State) (a : Nat) (v : Word) :
    (s.storeWord a v).status = s.status := rfl
@[simp] theorem State.storeWord_mem (s : State) (a : Nat) (v : Word) :
    (s.storeWord a v).mem = (s.mem.write a (loByte v)).write (a + 1) (hiByte v) := rfl
@[simp] theorem State.storeWord_color (s : State) (a : Nat) (v : Word) :
    (s.storeWord a v).color = s.color := rfl
@[simp] theorem State.storeWord_fb (s : State) (a : Nat) (v : Word) :
    (s.storeWord a v).fb = s.fb := rfl
@[simp] theorem State.storeWord_out (s : State) (a : Nat) (v : Word) :
    (s.storeWord a v).out = s.out := rfl
@[simp] theorem State.storeWord_disp (s : State) (a : Nat) (v : Word) :
    (s.storeWord a v).disp = s.disp := rfl
@[simp] theorem State.storeWord_params (s : State) (a : Nat) (v : Word) :
    (s.storeWord a v).params = s.params := rfl
@[simp] theorem State.storeWord_fsCalls (s : State) (a : Nat) (v : Word) :
    (s.storeWord a v).fsCalls = s.fsCalls := rfl

/-! ### `State.storeBytes` -/

@[simp] theorem State.storeBytes_regs (s : State) (d : Nat) (bs : List Byte) :
    (s.storeBytes d bs).regs = s.regs := rfl
@[simp] theorem State.storeBytes_pc (s : State) (d : Nat) (bs : List Byte) :
    (s.storeBytes d bs).pc = s.pc := rfl
@[simp] theorem State.storeBytes_flags (s : State) (d : Nat) (bs : List Byte) :
    (s.storeBytes d bs).flags = s.flags := rfl
@[simp] theorem State.storeBytes_status (s : State) (d : Nat) (bs : List Byte) :
    (s.storeBytes d bs).status = s.status := rfl
@[simp] theorem State.storeBytes_mem (s : State) (d : Nat) (bs : List Byte) :
    (s.storeBytes d bs).mem = s.mem.writeList d bs := rfl
@[simp] theorem State.storeBytes_color (s : State) (d : Nat) (bs : List Byte) :
    (s.storeBytes d bs).color = s.color := rfl
@[simp] theorem State.storeBytes_fb (s : State) (d : Nat) (bs : List Byte) :
    (s.storeBytes d bs).fb = s.fb := rfl
@[simp] theorem State.storeBytes_out (s : State) (d : Nat) (bs : List Byte) :
    (s.storeBytes d bs).out = s.out := rfl
@[simp] theorem State.storeBytes_disp (s : State) (d : Nat) (bs : List Byte) :
    (s.storeBytes d bs).disp = s.disp := rfl
@[simp] theorem State.storeBytes_params (s : State) (d : Nat) (bs : List Byte) :
    (s.storeBytes d bs).params = s.params := rfl
@[simp] theorem State.storeBytes_fsCalls (s : State) (d : Nat) (bs : List Byte) :
    (s.storeBytes d bs).fsCalls = s.fsCalls := rfl

/-! ### `State.dropTop` -/

@[simp] theorem State.dropTop_regs (s : State) :
    s.dropTop.regs = s.regs.set .sp (wrap16 (s.regs.sp.toNat + 2)) := rfl
@[simp] theorem State.dropTop_pc (s : State) :
    s.dropTop.pc = s.pc := rfl
@[simp] theorem State.dropTop_flags (s : State) :
    s.dropTop.flags = s.flags := rfl
@[simp] theorem State.dropTop_status (s : State) :
    s.dropTop.status = s.status := rfl
@[simp] theorem State.dropTop_mem (s : State) :
    s.dropTop.mem = s.mem := rfl
@[simp] theorem State.dropTop_color (s : State) :
    s.dropTop.color = s.color := rfl
@[simp] theorem State.dropTop_fb (s : State) :
    s.dropTop.fb = s.fb := rfl
@[simp] theorem State.dropTop_out (s : State) :
    s.dropTop.out = s.out := rfl
@[simp] theorem State.dropTop_disp (s : State) :
    s.dropTop.disp = s.disp := rfl
@[simp] theorem State.dropTop_params (s : State) :
    s.dropTop.params = s.params := rfl
@[simp] theorem State.dropTop_fsCalls (s : State) :
    s.dropTop.fsCalls = s.fsCalls := rfl

/-! ### `State.emit` -/

@[simp] theorem State.emit_regs (s : State) (bs : List Byte) :
    (s.emit bs).regs = s.regs := rfl
@[simp] theorem State.emit_pc (s : State) (bs : List Byte) :
    (s.emit bs).pc = s.pc := rfl
@[simp] theorem State.emit_flags (s : State) (bs : List Byte) :
    (s.emit bs).flags = s.flags := rfl
@[simp] theorem State.emit_status (s : State) (bs : List Byte) :
    (s.emit bs).status = s.status := rfl
@[simp] theorem State.emit_mem (s : State) (bs : List Byte) :
    (s.emit bs).mem = s.mem := rfl
@[simp] theorem State.emit_color (s : State) (bs : List Byte) :
    (s.emit bs).color = s.color := rfl
@[simp] theorem State.emit_fb (s : State) (bs : List Byte) :
    (s.emit bs).fb = s.fb := rfl
@[simp] theorem State.emit_out (s : State) (bs : List Byte) :
    (s.emit bs).out = s.out ++ bs := rfl
@[simp] theorem State.emit_disp (s : State) (bs : List Byte) :
    (s.emit bs).disp = s.disp := rfl
@[simp] theorem State.emit_params (s : State) (bs : List Byte) :
    (s.emit bs).params = s.params := rfl
@[simp] theorem State.emit_fsCalls (s : State) (bs : List Byte) :
    (s.emit bs).fsCalls = s.fsCalls := rfl

/-! ### `State.present` -/

@[simp] theorem State.present_regs (s : State) :
    s.present.regs = s.regs := rfl
@[simp] theorem State.present_pc (s : State) :
    s.present.pc = s.pc := rfl
@[simp] theorem State.present_flags (s : State) :
    s.present.flags = s.flags := rfl
@[simp] theorem State.present_status (s : State) :
    s.present.status = s.status := rfl
@[simp] theorem State.present_mem (s : State) :
    s.present.mem = s.mem := rfl
@[simp] theorem State.present_color (s : State) :
    s.present.color = s.color := rfl
@[simp] theorem State.present_fb (s : State) :
    s.present.fb = s.fb := rfl
@[simp] theorem State.present_out (s : State) :
    s.present.out = s.out := rfl
@[simp] theorem State.present_disp (s : State) :
    s.present.disp = s.disp ++ [s.fb] := rfl
@[simp] theorem State.present_params (s : State) :
    s.present.params = s.params := rfl
@[simp] theorem State.present_fsCalls (s : State) :
    s.present.fsCalls = s.fsCalls := rfl

/-! ### `State.noteAnswer` -/

@[simp] theorem State.noteAnswer_regs (s : State) :
    s.noteAnswer.regs = s.regs := rfl
@[simp] theorem State.noteAnswer_pc (s : State) :
    s.noteAnswer.pc = s.pc := rfl
@[simp] theorem State.noteAnswer_flags (s : State) :
    s.noteAnswer.flags = s.flags := rfl
@[simp] theorem State.noteAnswer_status (s : State) :
    s.noteAnswer.status = s.status := rfl
@[simp] theorem State.noteAnswer_mem (s : State) :
    s.noteAnswer.mem = s.mem := rfl
@[simp] theorem State.noteAnswer_color (s : State) :
    s.noteAnswer.color = s.color := rfl
@[simp] theorem State.noteAnswer_fb (s : State) :
    s.noteAnswer.fb = s.fb := rfl
@[simp] theorem State.noteAnswer_out (s : State) :
    s.noteAnswer.out = s.out := rfl
@[simp] theorem State.noteAnswer_disp (s : State) :
    s.noteAnswer.disp = s.disp := rfl
@[simp] theorem State.noteAnswer_params (s : State) :
    s.noteAnswer.params = s.params := rfl
@[simp] theorem State.noteAnswer_fsCalls (s : State) :
    s.noteAnswer.fsCalls = s.fsCalls + 1 := rfl

/-! ### `State.draw` -/

@[simp] theorem State.draw_regs (s : State) (ps : List Point) :
    (s.draw ps).regs = s.regs := rfl
@[simp] theorem State.draw_pc (s : State) (ps : List Point) :
    (s.draw ps).pc = s.pc := rfl
@[simp] theorem State.draw_flags (s : State) (ps : List Point) :
    (s.draw ps).flags = s.flags := rfl
@[simp] theorem State.draw_status (s : State) (ps : List Point) :
    (s.draw ps).status = s.status := rfl
@[simp] theorem State.draw_mem (s : State) (ps : List Point) :
    (s.draw ps).mem = s.mem := rfl
@[simp] theorem State.draw_color (s : State) (ps : List Point) :
    (s.draw ps).color = s.color := rfl
@[simp] theorem State.draw_fb (s : State) (ps : List Point) :
    (s.draw ps).fb = plotAll s.color ps s.fb := rfl
@[simp] theorem State.draw_out (s : State) (ps : List Point) :
    (s.draw ps).out = s.out := rfl
@[simp] theorem State.draw_disp (s : State) (ps : List Point) :
    (s.draw ps).disp = s.disp := rfl
@[simp] theorem State.draw_params (s : State) (ps : List Point) :
    (s.draw ps).params = s.params := rfl
@[simp] theorem State.draw_fsCalls (s : State) (ps : List Point) :
    (s.draw ps).fsCalls = s.fsCalls := rfl

/-! ### `State.clearScreen` -/

@[simp] theorem State.clearScreen_regs (s : State) :
    s.clearScreen.regs = s.regs := rfl
@[simp] theorem State.clearScreen_pc (s : State) :
    s.clearScreen.pc = s.pc := rfl
@[simp] theorem State.clearScreen_flags (s : State) :
    s.clearScreen.flags = s.flags := rfl
@[simp] theorem State.clearScreen_status (s : State) :
    s.clearScreen.status = s.status := rfl
@[simp] theorem State.clearScreen_mem (s : State) :
    s.clearScreen.mem = s.mem := rfl
@[simp] theorem State.clearScreen_color (s : State) :
    s.clearScreen.color = s.params.colorReset := rfl
@[simp] theorem State.clearScreen_fb (s : State) :
    s.clearScreen.fb = [] := rfl
@[simp] theorem State.clearScreen_out (s : State) :
    s.clearScreen.out = s.out := rfl
@[simp] theorem State.clearScreen_disp (s : State) :
    s.clearScreen.disp = s.disp := rfl
@[simp] theorem State.clearScreen_params (s : State) :
    s.clearScreen.params = s.params := rfl
@[simp] theorem State.clearScreen_fsCalls (s : State) :
    s.clearScreen.fsCalls = s.fsCalls := rfl

/-! ### `State.setColor` -/

@[simp] theorem State.setColor_regs (s : State) (v : Word) :
    (s.setColor v).regs = s.regs := rfl
@[simp] theorem State.setColor_pc (s : State) (v : Word) :
    (s.setColor v).pc = s.pc := rfl
@[simp] theorem State.setColor_flags (s : State) (v : Word) :
    (s.setColor v).flags = s.flags := rfl
@[simp] theorem State.setColor_status (s : State) (v : Word) :
    (s.setColor v).status = s.status := rfl
@[simp] theorem State.setColor_mem (s : State) (v : Word) :
    (s.setColor v).mem = s.mem := rfl
@[simp] theorem State.setColor_color (s : State) (v : Word) :
    (s.setColor v).color = v.extractLsb' 0 2 := rfl
@[simp] theorem State.setColor_fb (s : State) (v : Word) :
    (s.setColor v).fb = s.fb := rfl
@[simp] theorem State.setColor_out (s : State) (v : Word) :
    (s.setColor v).out = s.out := rfl
@[simp] theorem State.setColor_disp (s : State) (v : Word) :
    (s.setColor v).disp = s.disp := rfl
@[simp] theorem State.setColor_params (s : State) (v : Word) :
    (s.setColor v).params = s.params := rfl
@[simp] theorem State.setColor_fsCalls (s : State) (v : Word) :
    (s.setColor v).fsCalls = s.fsCalls := rfl

/-! ### `State.placeCode` -/

@[simp] theorem State.placeCode_regs (s : State) (a : Nat) (bs : List Byte) :
    (s.placeCode a bs).regs = s.regs := rfl
@[simp] theorem State.placeCode_pc (s : State) (a : Nat) (bs : List Byte) :
    (s.placeCode a bs).pc = s.pc := rfl
@[simp] theorem State.placeCode_flags (s : State) (a : Nat) (bs : List Byte) :
    (s.placeCode a bs).flags = s.flags := rfl
@[simp] theorem State.placeCode_status (s : State) (a : Nat) (bs : List Byte) :
    (s.placeCode a bs).status = s.status := rfl
@[simp] theorem State.placeCode_mem (s : State) (a : Nat) (bs : List Byte) :
    (s.placeCode a bs).mem = s.mem.writeList a bs := rfl
@[simp] theorem State.placeCode_color (s : State) (a : Nat) (bs : List Byte) :
    (s.placeCode a bs).color = s.color := rfl
@[simp] theorem State.placeCode_fb (s : State) (a : Nat) (bs : List Byte) :
    (s.placeCode a bs).fb = s.fb := rfl
@[simp] theorem State.placeCode_out (s : State) (a : Nat) (bs : List Byte) :
    (s.placeCode a bs).out = s.out := rfl
@[simp] theorem State.placeCode_disp (s : State) (a : Nat) (bs : List Byte) :
    (s.placeCode a bs).disp = s.disp := rfl
@[simp] theorem State.placeCode_fsCalls (s : State) (a : Nat) (bs : List Byte) :
    (s.placeCode a bs).fsCalls = s.fsCalls := rfl

/-! ### `State.jumpIf` -/

theorem State.jumpIf_pc (s : State) (c : Bool) (t : Word) :
    (s.jumpIf c t).pc = if c then t else wrap16 (s.pc.toNat + 3) := by
  cases c <;> rfl
@[simp] theorem State.jumpIf_regs (s : State) (c : Bool) (t : Word) : (s.jumpIf c t).regs = s.regs := by
  cases c <;> rfl
@[simp] theorem State.jumpIf_flags (s : State) (c : Bool) (t : Word) : (s.jumpIf c t).flags = s.flags := by
  cases c <;> rfl
@[simp] theorem State.jumpIf_status (s : State) (c : Bool) (t : Word) : (s.jumpIf c t).status = s.status := by
  cases c <;> rfl
@[simp] theorem State.jumpIf_mem (s : State) (c : Bool) (t : Word) : (s.jumpIf c t).mem = s.mem := by
  cases c <;> rfl
@[simp] theorem State.jumpIf_color (s : State) (c : Bool) (t : Word) : (s.jumpIf c t).color = s.color := by
  cases c <;> rfl
@[simp] theorem State.jumpIf_fb (s : State) (c : Bool) (t : Word) : (s.jumpIf c t).fb = s.fb := by
  cases c <;> rfl
@[simp] theorem State.jumpIf_out (s : State) (c : Bool) (t : Word) : (s.jumpIf c t).out = s.out := by
  cases c <;> rfl
@[simp] theorem State.jumpIf_disp (s : State) (c : Bool) (t : Word) : (s.jumpIf c t).disp = s.disp := by
  cases c <;> rfl
@[simp] theorem State.jumpIf_params (s : State) (c : Bool) (t : Word) : (s.jumpIf c t).params = s.params := by
  cases c <;> rfl
@[simp] theorem State.jumpIf_fsCalls (s : State) (c : Bool) (t : Word) : (s.jumpIf c t).fsCalls = s.fsCalls := by
  cases c <;> rfl

/-! ### Registers -/

@[simp] theorem Regs.get_set_self (x : Regs) (r : Reg) (v : Word) : (x.set r v).get r = v := by
  cases r <;> rfl

theorem Regs.get_set_ne (x : Regs) {r q : Reg} (v : Word) (h : q ≠ r) : (x.set r v).get q = x.get q := by
  cases r <;> cases q <;> first | rfl | exact absurd rfl h

/-- Two register files with the same eight values are equal. -/
theorem Regs.ext_get {x y : Regs} (h : ∀ r, x.get r = y.get r) : x = y := by
  cases x; cases y
  simp only [Regs.mk.injEq]
  exact ⟨h .ax, h .bx, h .cx, h .dx, h .ex, h .fx, h .fp, h .sp⟩

@[simp] theorem Regs.set_get_self (x : Regs) (r : Reg) : x.set r (x.get r) = x := by
  cases r <;> rfl

@[simp] theorem State.reg_setReg_self (s : State) (r : Reg) (v : Word) : (s.setReg r v).reg r = v :=
  Regs.get_set_self s.regs r v

theorem State.reg_setReg_ne (s : State) {r q : Reg} (v : Word) (h : q ≠ r) : (s.setReg r v).reg q = s.reg q :=
  Regs.get_set_ne s.regs v h

theorem State.reg_eq_of_regs {s t : State} (h : t.regs = s.regs) (r : Reg) : t.reg r = s.reg r := by
  rw [State.reg, State.reg, h]

theorem State.byteAt_eq_of_mem {s t : State} (h : t.mem = s.mem) (a : Nat) : t.byteAt a = s.byteAt a := by
  rw [State.byteAt, State.byteAt, h]

/-! ### Reset -/

/-- The memory right after reset has the canonical form. -/
theorem State.reset_mem_wf : State.reset.mem.wf = true := rfl

/-- `State.reset` is the reset state of the instance `Load.reference` (log 2). -/
theorem State.reset_eq_load : State.reset = State.load Load.reference := by decide

end Sys2Proof.Machine
end

