-- ==== Sys2Proof/Laws/Ops.lean ====
section
/-! SUPPORT. One lemma for each shared operation that says what it can do; the proofs about instructions cite these. -/

namespace Sys2Proof

/-! ### Words and bytes -/

theorem loByte_toNat (w : Word) : (loByte w).toNat = w.toNat % 256 := by
  simp [loByte, BitVec.extractLsb'_toNat]

theorem hiByte_toNat (w : Word) : (hiByte w).toNat = w.toNat / 256 := by
  have := w.isLt
  simp only [hiByte, BitVec.extractLsb'_toNat, Nat.shiftRight_eq_div_pow]
  omega

/-- R50: the value of the word `hi : lo`. -/
theorem wordOfBytes_toNat (lo hi : Byte) : (wordOfBytes lo hi).toNat = hi.toNat * 256 + lo.toNat := by
  have h : (wordOfBytes lo hi).toNat = hi.toNat <<< 8 ||| lo.toNat := BitVec.toNat_append hi lo
  rw [h, ← Nat.shiftLeft_add_eq_or_of_lt lo.isLt, Nat.shiftLeft_eq]

@[simp] theorem loByte_wordOfBytes (lo hi : Byte) : loByte (wordOfBytes lo hi) = lo := by
  apply BitVec.eq_of_toNat_eq
  have := lo.isLt
  rw [loByte_toNat, wordOfBytes_toNat]
  omega

@[simp] theorem hiByte_wordOfBytes (lo hi : Byte) : hiByte (wordOfBytes lo hi) = hi := by
  apply BitVec.eq_of_toNat_eq
  have := lo.isLt
  rw [hiByte_toNat, wordOfBytes_toNat]
  omega

@[simp] theorem wordOfBytes_loByte_hiByte (w : Word) : wordOfBytes (loByte w) (hiByte w) = w := by
  apply BitVec.eq_of_toNat_eq
  rw [wordOfBytes_toNat, loByte_toNat, hiByte_toNat]
  omega

/-- R10: `uint(wrap16(n)) = n mod 65536`. -/
theorem wrap16_toNat (n : Nat) : (wrap16 (n : Int)).toNat = n % 65536 := by
  simp [wrap16]

theorem wrap16_natCast (n : Nat) : wrap16 (n : Int) = BitVec.ofNat 16 n := by
  apply BitVec.eq_of_toNat_eq
  rw [wrap16_toNat]
  simp

@[simp] theorem wrap16_toNat_self (w : Word) : wrap16 (w.toNat : Int) = w := by
  rw [wrap16_natCast, BitVec.ofNat_toNat, BitVec.setWidth_eq]

/-- R130: the sum of the addition law is the sum of words. -/
theorem wrap16_add (a b : Word) : wrap16 ((a.toNat : Int) + b.toNat) = a + b := by
  apply BitVec.eq_of_toNat_eq
  rw [show (a.toNat : Int) + b.toNat = ((a.toNat + b.toNat : Nat) : Int) by push_cast; rfl, wrap16_toNat]
  simp

/-- R131: the difference of the subtraction law is the difference of words. -/
theorem wrap16_sub (a b : Word) : wrap16 ((a.toNat : Int) - b.toNat) = a - b := by
  apply BitVec.eq_of_toNat_eq
  have ha := a.isLt
  have hb := b.isLt
  simp only [wrap16, BitVec.toNat_ofInt, BitVec.toNat_sub]
  omega

namespace Machine

@[simp] theorem addFlags_result (a b : Word) : (addFlags a b).result = a + b := wrap16_add a b

@[simp] theorem subFlags_result (a b : Word) : (subFlags a b).result = a - b := wrap16_sub a b

/-! ### Failure and the end of a step -/

@[simp] theorem State.settle_ok (s t : State) : s.settle (.ok t) = .next t := rfl

@[simp] theorem State.settle_error (s : State) (f : Failure) : s.settle (.error f) = .next (s.fail f) := rfl

/-- Everything a settled step can do: the state of its rule, or the failed state. -/
theorem State.settle_cases {s t : State} {r : Except Failure State} (h : s.settle r = .next t) :
    r = .ok t ∨ ∃ f, r = .error f ∧ t = s.fail f := by
  cases r with
  | ok u => exact .inl (by cases h; rfl)
  | error f => exact .inr ⟨f, rfl, by cases h; rfl⟩

/-- A settled step always has a next state. -/
theorem State.settle_isNext (s : State) (r : Except Failure State) : ∃ t, s.settle r = .next t := by
  cases r with
  | ok u => exact ⟨u, rfl⟩
  | error f => exact ⟨s.fail f, rfl⟩

theorem bind_eq_ok {α β : Type} {x : Except Failure α} {f : α → Except Failure β} {b : β}
    (h : (x >>= f) = .ok b) : ∃ a, x = .ok a ∧ f a = .ok b := by
  cases x with
  | ok a => exact ⟨a, rfl, h⟩
  | error e => cases h

/-! ### Memory -/

theorem State.memRead1_eq (s : State) (a : Nat) :
    s.memRead1 a = if a + 1 ≤ s.params.memSize then .ok (s.byteAt a) else .error .segmentationFault := by
  unfold State.memRead1
  split <;> split <;> first | rfl | omega

theorem State.memRead2_eq (s : State) (a : Nat) :
    s.memRead2 a = if s.WordInRange a then .ok (s.wordAt a) else .error .segmentationFault := by
  unfold State.memRead2 State.WordInRange
  split <;> split <;> first | rfl | omega

theorem State.memWrite1_eq (s : State) (a : Nat) (v : Byte) :
    s.memWrite1 a v = if a + 1 ≤ s.params.memSize then .ok (s.storeByte a v) else .error .segmentationFault := by
  unfold State.memWrite1
  split <;> split <;> first | rfl | omega

theorem State.memWrite2_eq (s : State) (a : Nat) (v : Word) :
    s.memWrite2 a v = if s.WordInRange a then .ok (s.storeWord a v) else .error .segmentationFault := by
  unfold State.memWrite2 State.WordInRange
  split <;> split <;> first | rfl | omega

theorem State.byteAt_storeByte_self {s : State} (a : Nat) (v : Byte) (h : s.mem.wf = true) :
    (s.storeByte a v).byteAt a = v :=
  Cells.read_write_self a v h

theorem State.byteAt_storeByte_ne (s : State) {a b : Nat} (v : Byte) (h : b ≠ a) :
    (s.storeByte a v).byteAt b = s.byteAt b :=
  Cells.read_write_ne s.mem v h

/-- R50, R54: the low byte of a stored word is at its address. -/
theorem State.byteAt_storeWord_lo {s : State} (a : Nat) (v : Word) (h : s.mem.wf = true) :
    (s.storeWord a v).byteAt a = loByte v := by
  rw [State.byteAt, State.storeWord_mem, Cells.read_write_ne _ _ (by omega)]
  exact Cells.read_write_self a _ h

/-- R50, R54: the high byte of a stored word is at the next address. -/
theorem State.byteAt_storeWord_hi {s : State} (a : Nat) (v : Word) (h : s.mem.wf = true) :
    (s.storeWord a v).byteAt (a + 1) = hiByte v := by
  rw [State.byteAt, State.storeWord_mem]
  exact Cells.read_write_self (a + 1) _ (Cells.wf_write a _ h)

/-- R54: "No other byte changes." -/
theorem State.sameBytesBut_storeWord (s : State) (a : Nat) (v : Word) : s.SameBytesBut (s.storeWord a v) a 2 := by
  intro b hb
  rw [State.byteAt, State.storeWord_mem, Cells.read_write_ne _ _ (by omega), Cells.read_write_ne _ _ (by omega)]
  rfl

theorem State.wordAt_storeWord {s : State} (a : Nat) (v : Word) (h : s.mem.wf = true) :
    (s.storeWord a v).wordAt a = v := by
  rw [State.wordAt, State.byteAt_storeWord_lo a v h, State.byteAt_storeWord_hi a v h, wordOfBytes_loByte_hiByte]

theorem State.sameBytesBut_storeBytes (s : State) (a : Nat) (bs : List Byte) :
    s.SameBytesBut (s.storeBytes a bs) a bs.length :=
  fun _ hb => Cells.read_writeList_outside s.mem bs hb

theorem State.byteAt_storeBytes {s : State} {a i : Nat} (bs : List Byte) (h : s.mem.wf = true) (hi : i < bs.length) :
    (s.storeBytes a bs).byteAt (a + i) = bs[i] :=
  Cells.read_writeList_inside bs h hi

/-! ### Memory operations keep the canonical form and the bound of `MEM_SIZE` -/

theorem State.storeByte_wf {s : State} (a : Nat) (v : Byte) (h : s.mem.wf = true) : (s.storeByte a v).mem.wf = true :=
  Cells.wf_write a v h

theorem State.storeWord_wf {s : State} (a : Nat) (v : Word) (h : s.mem.wf = true) : (s.storeWord a v).mem.wf = true :=
  Cells.wf_write _ _ (Cells.wf_write _ _ h)

theorem State.storeBytes_wf {s : State} (a : Nat) (bs : List Byte) (h : s.mem.wf = true) :
    (s.storeBytes a bs).mem.wf = true :=
  Cells.wf_writeList a bs h

theorem State.placeCode_wf {s : State} (a : Nat) (bs : List Byte) (h : s.mem.wf = true) :
    (s.placeCode a bs).mem.wf = true :=
  Cells.wf_writeList a bs h

theorem State.storeWord_below {s : State} {a : Nat} (v : Word) (h : Cells.below s.params.memSize s.mem = true)
    (ha : s.WordInRange a) : Cells.below s.params.memSize (s.storeWord a v).mem = true := by
  unfold State.WordInRange at ha
  exact Cells.below_write _ (Cells.below_write _ h (by omega)) (by omega)

theorem State.storeBytes_below {s : State} {a : Nat} (bs : List Byte) (h : Cells.below s.params.memSize s.mem = true)
    (ha : bs = [] ∨ a + bs.length ≤ s.params.memSize) : Cells.below s.params.memSize (s.storeBytes a bs).mem = true :=
  Cells.below_writeList bs h ha

/-! ### Operands -/

/-- R91, all that `ReadOp` can do. -/
theorem State.readSrc_cases (s : State) (r : Src) :
    (s.SrcInRange r ∧ s.readSrc r = .ok (s.srcWord r)) ∨ (¬ s.SrcInRange r ∧ s.readSrc r = .error .segmentationFault) := by
  cases r with
  | reg r => exact .inl ⟨trivial, rfl⟩
  | imm v => exact .inl ⟨trivial, rfl⟩
  | mem m =>
    simp only [State.SrcInRange, State.readSrc, State.srcWord, State.memRead2_eq]
    by_cases h : s.WordInRange (s.ea m)
    · exact .inl ⟨h, if_pos h⟩
    · exact .inr ⟨h, if_neg h⟩

theorem State.readSrc_inRange {s : State} {r : Src} (h : s.SrcInRange r) : s.readSrc r = .ok (s.srcWord r) := by
  rcases s.readSrc_cases r with ⟨_, e⟩ | ⟨n, _⟩
  · exact e
  · exact absurd h n

theorem State.readSrc_outOfRange {s : State} {r : Src} (h : ¬ s.SrcInRange r) :
    s.readSrc r = .error .segmentationFault := by
  rcases s.readSrc_cases r with ⟨y, _⟩ | ⟨_, e⟩
  · exact absurd y h
  · exact e

theorem State.srcInRange_toSrc (s : State) (d : Dst) : s.SrcInRange d.toSrc ↔ s.DstInRange d := by
  cases d <;> rfl

theorem State.readDst_inRange {s : State} {d : Dst} (h : s.DstInRange d) : s.readDst d = .ok (s.dstWord d) :=
  State.readSrc_inRange ((s.srcInRange_toSrc d).mpr h)

theorem State.readDst_outOfRange {s : State} {d : Dst} (h : ¬ s.DstInRange d) :
    s.readDst d = .error .segmentationFault :=
  State.readSrc_outOfRange fun h' => h ((s.srcInRange_toSrc d).mp h')

/-- The state that a write of `v` to a destination gives, where it is in range. -/
def State.putDst (s : State) (d : Dst) (v : Word) : State :=
  match d with
  | .reg r => s.setReg r v
  | .mem m => s.storeWord (s.ea m) v

theorem State.writeDst_inRange {s : State} {d : Dst} (v : Word) (h : s.DstInRange d) :
    s.writeDst d v = .ok (s.putDst d v) := by
  cases d with
  | reg r => rfl
  | mem m => exact (s.memWrite2_eq _ v).trans (if_pos h)

theorem State.writeDst_outOfRange {s : State} {d : Dst} (v : Word) (h : ¬ s.DstInRange d) :
    s.writeDst d v = .error .segmentationFault := by
  cases d with
  | reg r => exact absurd trivial h
  | mem m => exact (s.memWrite2_eq _ v).trans (if_neg h)

/-- R92: a write puts the word in the operand and changes nothing else. -/
theorem State.written_putDst {s : State} (d : Dst) (v : Word) (h : s.mem.wf = true) : s.Written (s.putDst d v) d v := by
  cases d with
  | reg r =>
    exact ⟨Regs.get_set_self _ _ _, fun q hq => Regs.get_set_ne _ v (by simpa using hq), fun _ => rfl⟩
  | mem m =>
    exact ⟨State.byteAt_storeWord_lo _ v h, State.byteAt_storeWord_hi _ v h, fun _ _ => rfl,
      State.sameBytesBut_storeWord s _ v⟩

/-- What a write to an operand leaves alone, whatever the operand. -/
theorem State.putDst_other (s : State) (d : Dst) (v : Word) :
    (s.putDst d v).pc = s.pc ∧ (s.putDst d v).flags = s.flags ∧ (s.putDst d v).status = s.status ∧
      s.SameOutside (s.putDst d v) := by
  cases d <;> exact ⟨rfl, rfl, rfl, rfl, rfl, rfl, rfl, rfl, rfl⟩

/-- `Written` speaks of registers and memory only. -/
theorem State.Written.of_eq {s t u : State} {d : Dst} {v : Word} (h : s.Written t d v) (hr : u.regs = t.regs)
    (hm : u.mem = t.mem) : s.Written u d v := by
  have hreg : ∀ r, u.reg r = t.reg r := State.reg_eq_of_regs hr
  have hbyte : ∀ a, u.byteAt a = t.byteAt a := State.byteAt_eq_of_mem hm
  cases d with
  | reg r =>
    obtain ⟨h1, h2, h3⟩ := h
    exact ⟨(hreg r).trans h1, fun q hq => (hreg q).trans (h2 q hq), fun a => (hbyte a).trans (h3 a)⟩
  | mem m =>
    obtain ⟨h1, h2, h3, h4⟩ := h
    exact ⟨(hbyte _).trans h1, (hbyte _).trans h2, fun q hq => (hreg q).trans (h3 q hq),
      fun a ha => (hbyte a).trans (h4 a ha)⟩

/-- R132, R133: all that the shape of `ADD` and `SUB` can do. -/
theorem State.combineInto_cases (s : State) (f : Word → Word → AluOut) (d : Dst) (r : Src) :
    (s.DstInRange d ∧ s.SrcInRange r ∧
      s.combineInto f d r =
        .ok ((s.putDst d (f (s.dstWord d) (s.srcWord r)).result).setFlags (f (s.dstWord d) (s.srcWord r)).flags)) ∨
    ((¬ s.DstInRange d ∨ ¬ s.SrcInRange r) ∧ s.combineInto f d r = .error .segmentationFault) := by
  by_cases hd : s.DstInRange d
  · by_cases hr : s.SrcInRange r
    · refine .inl ⟨hd, hr, ?_⟩
      simp only [State.combineInto, State.readDst_inRange hd, State.readSrc_inRange hr, bind, Except.bind,
        State.writeDst_inRange _ hd]
    · refine .inr ⟨.inr hr, ?_⟩
      simp only [State.combineInto, State.readDst_inRange hd, State.readSrc_outOfRange hr, bind, Except.bind]
  · refine .inr ⟨.inl hd, ?_⟩
    simp only [State.combineInto, State.readDst_outOfRange hd, bind, Except.bind]

/-! ### The stack -/

/-- R62, all that `Push` can do. -/
theorem State.push_cases (s : State) (v : Word) :
    (s.CanPush ∧ s.push v = .ok ((s.storeWord s.pushAddr v).setReg .sp (BitVec.ofNat 16 s.pushAddr))) ∨
    (¬ s.CanPush ∧ s.push v = .error .segmentationFault) := by
  unfold State.push State.CanPush
  split
  · exact .inr ⟨by omega, rfl⟩
  · exact .inl ⟨by omega, rfl⟩

theorem State.push_of_canPush {s : State} (v : Word) (h : s.CanPush) :
    s.push v = .ok ((s.storeWord s.pushAddr v).setReg .sp (BitVec.ofNat 16 s.pushAddr)) := by
  rcases s.push_cases v with ⟨_, e⟩ | ⟨n, _⟩
  · exact e
  · exact absurd h n

theorem State.push_of_not_canPush {s : State} (v : Word) (h : ¬ s.CanPush) :
    s.push v = .error .segmentationFault := by
  rcases s.push_cases v with ⟨y, _⟩ | ⟨_, e⟩
  · exact absurd y h
  · exact e

/-- R63, all that `StackTop` can do. -/
theorem State.stackTop_cases (s : State) :
    (s.CanPop ∧ s.stackTop = .ok (s.wordAt s.regs.sp.toNat)) ∨
    (s.params.stackBase < s.regs.sp.toNat + 2 ∧ s.stackTop = .error .stackUnderflow) ∨
    (s.regs.sp.toNat + 2 ≤ s.params.stackBase ∧ s.regs.sp.toNat < s.params.stackLimit ∧
      s.stackTop = .error .segmentationFault) := by
  unfold State.stackTop State.CanPop
  split
  · exact .inr (.inl ⟨by assumption, rfl⟩)
  · split
    · exact .inr (.inr ⟨by omega, by assumption, rfl⟩)
    · exact .inl ⟨by omega, rfl⟩

theorem State.stackTop_of_canPop {s : State} (h : s.CanPop) : s.stackTop = .ok (s.wordAt s.regs.sp.toNat) := by
  rcases s.stackTop_cases with ⟨_, e⟩ | ⟨h1, _⟩ | ⟨_, h2, _⟩
  · exact e
  · unfold State.CanPop at h; omega
  · unfold State.CanPop at h; omega

/-- A push in the stack region writes words that exist (R62, `STACK_BASE = MEM_SIZE`). -/
theorem State.CanPush.wordInRange {s : State} (h : s.CanPush) : s.WordInRange s.pushAddr := h.2

/-! ### Host calls -/

/-- R195, all that the answer of the filesystem can do. -/
theorem State.takeAnswer_cases (s : State) (ans : FsAnswer) :
    (ans = .notFound ∧ s.takeAnswer ans = .ok (s.noteAnswer.setReg .ax 0xFFFF)) ∨
    (∃ content, ans = .bytes content ∧
      (s.readCount content = 0 ∨ s.regs.bx.toNat + s.readCount content ≤ s.params.memSize) ∧
      s.takeAnswer ans =
        .ok ((s.noteAnswer.storeBytes s.regs.bx.toNat (content.take (s.readCount content))).setReg .ax
          (wrap16 (s.readCount content)))) ∨
    (∃ content, ans = .bytes content ∧ 0 < s.readCount content ∧
      s.params.memSize < s.regs.bx.toNat + s.readCount content ∧
      s.takeAnswer ans = .error .segmentationFault) := by
  cases ans with
  | notFound => exact .inl ⟨rfl, rfl⟩
  | bytes content =>
    unfold State.takeAnswer
    dsimp only
    split
    · next h => exact .inr (.inr ⟨content, rfl, h.1, h.2, rfl⟩)
    · exact .inr (.inl ⟨content, rfl, by omega, rfl⟩)

/-- The number of bytes of the part of an answer that is stored. -/
theorem State.length_take_readCount (s : State) (content : List Byte) :
    (content.take (s.readCount content)).length = s.readCount content := by
  rw [List.length_take, State.readCount]
  omega

end Machine

end Sys2Proof
end

