-- ==== Sys2Proof/Laws/PerInstr.lean ====
section
/-! SUPPORT. Facts about every instruction as syntax, one lemma for each constructor. -/

namespace Sys2Proof.Laws

theorem length_encodeMemRef (m : MemRef) : (encodeMemRef m).length = m.size := by
  cases m <;> rfl

theorem length_encodeSrc (r : Src) : (encodeSrc r).length = r.size := by
  cases r with
  | reg => rfl
  | imm => rfl
  | mem m => exact length_encodeMemRef m

theorem length_encodeDst (d : Dst) : (encodeDst d).length = d.size := by
  cases d with
  | reg => rfl
  | mem m => exact length_encodeMemRef m

/-- R83: a memory operand has one or three bytes. -/
theorem MemRef.size_range (m : MemRef) : m.size = 1 ∨ m.size = 3 := by
  cases m <;> simp [MemRef.size]

theorem Src.size_range (r : Src) : r.size = 1 ∨ r.size = 3 := by
  cases r with
  | reg => exact .inl rfl
  | imm => exact .inr rfl
  | mem m => exact MemRef.size_range m

theorem Dst.size_range (d : Dst) : d.size = 1 ∨ d.size = 3 := by
  cases d with
  | reg => exact .inl rfl
  | mem m => exact MemRef.size_range m

/-- R80, R81: the encoding has as many bytes as the length that `pc` advances by, and one of the lengths of the five formats. -/
def EncodedLength.Statement (i : Instr) : Prop :=
  (encode i).length = i.length ∧ i.length ∈ [1, 2, 3, 4, 5, 7]

/-- Format F1 with a SRC operand. -/
theorem EncodedLength.ofSrc (op : Byte) (r : Src) :
    (op :: encodeSrc r).length = 1 + r.size ∧ 1 + r.size ∈ [1, 2, 3, 4, 5, 7] := by
  refine ⟨by rw [List.length_cons, length_encodeSrc, Nat.add_comm], ?_⟩
  rcases Src.size_range r with h | h <;> simp [h]

/-- Format F1 with a DST operand. -/
theorem EncodedLength.ofDst (op : Byte) (d : Dst) :
    (op :: encodeDst d).length = 1 + d.size ∧ 1 + d.size ∈ [1, 2, 3, 4, 5, 7] := by
  refine ⟨by rw [List.length_cons, length_encodeDst, Nat.add_comm], ?_⟩
  rcases Dst.size_range d with h | h <;> simp [h]

/-- Format F2 with a DST and a SRC operand. -/
theorem EncodedLength.ofDstSrc (op : Byte) (d : Dst) (r : Src) :
    (op :: (encodeDst d ++ encodeSrc r)).length = 1 + d.size + r.size ∧ 1 + d.size + r.size ∈ [1, 2, 3, 4, 5, 7] := by
  refine ⟨by rw [List.length_cons, List.length_append, length_encodeSrc, length_encodeDst]; omega, ?_⟩
  rcases Dst.size_range d with h | h <;> rcases Src.size_range r with h' | h' <;> simp [h, h']

/-- Format F2 with two SRC operands. -/
theorem EncodedLength.ofSrcSrc (op : Byte) (a b : Src) :
    (op :: (encodeSrc a ++ encodeSrc b)).length = 1 + a.size + b.size ∧ 1 + a.size + b.size ∈ [1, 2, 3, 4, 5, 7] := by
  refine ⟨by rw [List.length_cons, List.length_append, length_encodeSrc, length_encodeSrc]; omega, ?_⟩
  rcases Src.size_range a with h | h <;> rcases Src.size_range b with h' | h' <;> simp [h, h']

theorem EncodedLength.halt : EncodedLength.Statement .halt :=
  ⟨rfl, by decide⟩

theorem EncodedLength.mov (d : Dst) (r : Src) : EncodedLength.Statement (.mov d r) :=
  EncodedLength.ofDstSrc _ d r

theorem EncodedLength.add (d : Dst) (r : Src) : EncodedLength.Statement (.add d r) :=
  EncodedLength.ofDstSrc _ d r

theorem EncodedLength.sub (d : Dst) (r : Src) : EncodedLength.Statement (.sub d r) :=
  EncodedLength.ofDstSrc _ d r

theorem EncodedLength.mul (r : Src) : EncodedLength.Statement (.mul r) :=
  EncodedLength.ofSrc _ r

theorem EncodedLength.inc (d : Dst) : EncodedLength.Statement (.inc d) :=
  EncodedLength.ofDst _ d

theorem EncodedLength.dec (d : Dst) : EncodedLength.Statement (.dec d) :=
  EncodedLength.ofDst _ d

theorem EncodedLength.cmp (a b : Src) : EncodedLength.Statement (.cmp a b) :=
  EncodedLength.ofSrcSrc _ a b

theorem EncodedLength.jmp (t : Word) : EncodedLength.Statement (.jmp t) :=
  ⟨rfl, by simp [Instr.length]⟩

theorem EncodedLength.je (t : Word) : EncodedLength.Statement (.je t) :=
  ⟨rfl, by simp [Instr.length]⟩

theorem EncodedLength.jne (t : Word) : EncodedLength.Statement (.jne t) :=
  ⟨rfl, by simp [Instr.length]⟩

theorem EncodedLength.jl (t : Word) : EncodedLength.Statement (.jl t) :=
  ⟨rfl, by simp [Instr.length]⟩

theorem EncodedLength.jle (t : Word) : EncodedLength.Statement (.jle t) :=
  ⟨rfl, by simp [Instr.length]⟩

theorem EncodedLength.jg (t : Word) : EncodedLength.Statement (.jg t) :=
  ⟨rfl, by simp [Instr.length]⟩

theorem EncodedLength.jge (t : Word) : EncodedLength.Statement (.jge t) :=
  ⟨rfl, by simp [Instr.length]⟩

theorem EncodedLength.loop (t : Word) : EncodedLength.Statement (.loop t) :=
  ⟨rfl, by simp [Instr.length]⟩

theorem EncodedLength.call (t : Word) : EncodedLength.Statement (.call t) :=
  ⟨rfl, by simp [Instr.length]⟩

theorem EncodedLength.ret : EncodedLength.Statement .ret :=
  ⟨rfl, by decide⟩

theorem EncodedLength.push (r : Src) : EncodedLength.Statement (.push r) :=
  EncodedLength.ofSrc _ r

theorem EncodedLength.pop (d : Dst) : EncodedLength.Statement (.pop d) :=
  EncodedLength.ofDst _ d

theorem EncodedLength.syscall (n : Byte) : EncodedLength.Statement (.syscall n) :=
  ⟨rfl, by simp [Instr.length]⟩

theorem EncodedLength.sysAtoi : EncodedLength.Statement .sysAtoi :=
  ⟨rfl, by decide⟩

theorem EncodedLength.sysPrintInt : EncodedLength.Statement .sysPrintInt :=
  ⟨rfl, by decide⟩

theorem EncodedLength.sysPrintChar : EncodedLength.Statement .sysPrintChar :=
  ⟨rfl, by decide⟩

theorem EncodedLength.sysPrintString : EncodedLength.Statement .sysPrintString :=
  ⟨rfl, by decide⟩

theorem EncodedLength.sysExit : EncodedLength.Statement .sysExit :=
  ⟨rfl, by decide⟩

theorem EncodedLength.sysReadFile : EncodedLength.Statement .sysReadFile :=
  ⟨rfl, by decide⟩

theorem EncodedLength.sysClearScreen : EncodedLength.Statement .sysClearScreen :=
  ⟨rfl, by decide⟩

theorem EncodedLength.sysSetColor : EncodedLength.Statement .sysSetColor :=
  ⟨rfl, by decide⟩

theorem EncodedLength.sysDrawRect : EncodedLength.Statement .sysDrawRect :=
  ⟨rfl, by decide⟩

theorem EncodedLength.sysDrawCircle : EncodedLength.Statement .sysDrawCircle :=
  ⟨rfl, by decide⟩

theorem EncodedLength.sysDrawLine : EncodedLength.Statement .sysDrawLine :=
  ⟨rfl, by decide⟩

theorem EncodedLength.sysPaintDisplay : EncodedLength.Statement .sysPaintDisplay :=
  ⟨rfl, by decide⟩

end Sys2Proof.Laws
end

