-- ==== Sys2Proof/Laws/Raster.lean ====
section
/-! SUPPORT. What `plot` and a whole primitive do to the framebuffer (46_rasterizer.md R211, section 3). -/

namespace Sys2Proof.Machine

theorem onScreen_iff (p : Point) : onScreen p = true ↔ 0 ≤ p.1 ∧ p.1 < 160 ∧ 0 ≤ p.2 ∧ p.2 < 144 := by
  simp only [onScreen, Bool.and_eq_true, decide_eq_true_eq, and_assoc]
  rfl

/-- Two pixels of the screen have the same cell only if they are the same pixel. -/
theorem pixelKey_inj {x y x' y' : Nat} (hx : x < 160) (hx' : x' < 160) :
    pixelKey x y = pixelKey x' y' ↔ x = x' ∧ y = y' := by
  unfold pixelKey Config.screenWidth
  omega

theorem pixelKey_lt {x y : Nat} (hx : x < 160) (hy : y < 144) :
    pixelKey x y < Config.screenWidth * Config.screenHeight := by
  unfold pixelKey Config.screenWidth Config.screenHeight
  omega

/-- R211: what `plot` does to each pixel of the screen. -/
theorem plot_pixel {fb : Framebuffer} (c : BitVec 2) (p : Point) {x y : Nat} (h : Cells.wf fb = true) (hx : x < 160)
    (hy : y < 144) :
    Framebuffer.pixel (plot c p fb) x y = if p = ((x : Int), (y : Int)) then c else Framebuffer.pixel fb x y := by
  unfold plot
  split
  · next ho =>
    rw [onScreen_iff] at ho
    unfold Framebuffer.pixel
    by_cases he : p = ((x : Int), (y : Int))
    · subst he
      rw [if_pos rfl, Int.toNat_natCast, Int.toNat_natCast]
      exact Cells.read_write_self _ _ h
    · rw [if_neg he]
      refine Cells.read_write_ne _ _ fun hk => he ?_
      rw [pixelKey_inj hx (by omega)] at hk
      ext
      · simp only; omega
      · simp only; omega
  · next ho =>
    rw [onScreen_iff] at ho
    rw [if_neg]
    rintro rfl
    simp only at ho
    omega

theorem plot_wf {fb : Framebuffer} (c : BitVec 2) (p : Point) (h : Cells.wf fb = true) :
    Cells.wf (plot c p fb) = true := by
  unfold plot
  split
  · exact Cells.wf_write _ _ h
  · exact h

/-- A primitive keeps the canonical form of the framebuffer. -/
theorem plotAll_wf {fb : Framebuffer} (c : BitVec 2) (ps : List Point) (h : Cells.wf fb = true) :
    Cells.wf (plotAll c ps fb) = true := by
  induction ps with
  | nil => exact h
  | cons p ps ih => exact plot_wf c p ih

theorem plot_below {fb : Framebuffer} (c : BitVec 2) (p : Point)
    (h : Cells.below (Config.screenWidth * Config.screenHeight) fb = true) :
    Cells.below (Config.screenWidth * Config.screenHeight) (plot c p fb) = true := by
  unfold plot
  split
  · next ho =>
    rw [onScreen_iff] at ho
    exact Cells.below_write _ h (pixelKey_lt (by omega) (by omega))
  · exact h

/-- A primitive keeps every listed pixel on the screen (R211). -/
theorem plotAll_below {fb : Framebuffer} (c : BitVec 2) (ps : List Point)
    (h : Cells.below (Config.screenWidth * Config.screenHeight) fb = true) :
    Cells.below (Config.screenWidth * Config.screenHeight) (plotAll c ps fb) = true := by
  induction ps with
  | nil => exact h
  | cons p ps ih => exact plot_below c p ih

/-- All that a primitive does: the pixels of the screen among its points take the colour, the others stay. -/
theorem plotAll_pixel {fb : Framebuffer} (c : BitVec 2) (ps : List Point) {x y : Nat} (h : Cells.wf fb = true)
    (hx : x < 160) (hy : y < 144) :
    Framebuffer.pixel (plotAll c ps fb) x y =
      if ((x : Int), (y : Int)) ∈ ps then c else Framebuffer.pixel fb x y := by
  induction ps with
  | nil => rfl
  | cons p ps ih =>
    rw [show plotAll c (p :: ps) fb = plot c p (plotAll c ps fb) from rfl,
      plot_pixel c p (plotAll_wf c ps h) hx hy]
    by_cases he : p = ((x : Int), (y : Int))
    · rw [if_pos he, if_pos (by rw [he]; exact List.mem_cons_self)]
    · rw [if_neg he, ih]
      simp only [List.mem_cons, Ne.symm he, false_or]

/-- R214: membership in a clipped range of coordinates. -/
theorem mem_clipRange {lo hi n : Int} {bound : Nat} :
    n ∈ clipRange lo hi bound ↔ (0 ≤ n ∧ n < bound) ∧ lo ≤ n ∧ n ≤ hi := by
  simp only [clipRange, List.mem_filter, List.mem_map, List.mem_range, Bool.and_eq_true, decide_eq_true_eq]
  constructor
  · rintro ⟨⟨k, hk, rfl⟩, h⟩
    exact ⟨⟨Int.natCast_nonneg k, Int.ofNat_lt.mpr hk⟩, h⟩
  · rintro ⟨⟨h0, hb⟩, h⟩
    exact ⟨⟨n.toNat, by omega, by simp [h0]⟩, h⟩

end Sys2Proof.Machine
end

