-- ==== Sys2Proof/Laws/Text.lean ====
section
/-! SUPPORT. What the string scan and the digit loop can do (45_syscall_host.md R190, R191): their fuel is never used up. -/

namespace Sys2Proof.Machine

/-- R190: a zero-terminated string is read whole, given fuel for its bytes and its terminator. -/
theorem State.cstrFrom_string {s : State} {str : List Byte} {a fuel : Nat} (h : s.HoldsString a str)
    (hf : str.length < fuel) : s.cstrFrom fuel a = .ok str := by
  induction str generalizing a fuel with
  | nil =>
    obtain ⟨_, hz, hm⟩ := h
    cases fuel with
    | zero => exact absurd hf (Nat.not_lt_zero _)
    | succ fuel =>
      simp only [List.length_nil, Nat.add_zero] at hz hm
      simp only [State.cstrFrom, State.memRead1_eq, if_pos (show a + 1 ≤ s.params.memSize by omega), bind, Except.bind, hz,
        if_true]
  | cons b str ih =>
    obtain ⟨hk, hz, hm⟩ := h
    cases fuel with
    | zero => exact absurd hf (Nat.not_lt_zero _)
    | succ fuel =>
      simp only [List.length_cons] at hz hm hf
      have h0 := hk 0 (by simp)
      simp only [Nat.add_zero, List.getElem_cons_zero] at h0
      have hrest : s.HoldsString (a + 1) str := by
        refine ⟨fun k hlt => ?_, by rw [← hz]; congr 1; omega, by omega⟩
        have := hk (k + 1) (by simpa using hlt)
        rw [show a + 1 + k = a + (k + 1) by omega]
        simpa using this
      have e : s.cstrFrom fuel (a + 1) = .ok str := ih hrest (by omega)
      simp only [State.cstrFrom, State.memRead1_eq, if_pos (show a + 1 ≤ s.params.memSize by omega), bind, Except.bind,
        h0.1, if_neg h0.2, e]

/-- R190: without a zero byte inside memory the scan fails, whatever its fuel. -/
theorem State.cstrFrom_unterminated {s : State} {a : Nat} (fuel : Nat) (h : s.Unterminated a) :
    s.cstrFrom fuel a = .error .segmentationFault := by
  induction fuel generalizing a with
  | zero => rfl
  | succ fuel ih =>
    rw [State.cstrFrom, State.memRead1_eq]
    split
    · next hb =>
      have e : s.cstrFrom fuel (a + 1) = .error .segmentationFault := ih fun b hab hbm => h b (by omega) hbm
      simp only [bind, Except.bind, if_neg (h a (Nat.le_refl a) hb), e]
    · rfl

/-- From every address on there is a zero-terminated string or no terminator at all. -/
theorem State.string_or_unterminated (s : State) (a : Nat) : (∃ str, s.HoldsString a str) ∨ s.Unterminated a := by
  by_cases h : ∃ n, a + n < s.params.memSize ∧ s.byteAt (a + n) = 0
  · left
    classical
    refine ⟨(List.range (Nat.find h)).map fun k => s.byteAt (a + k), ?_, ?_, ?_⟩
    · intro k hk
      simp only [List.length_map, List.length_range] at hk
      have hn := Nat.find_min h hk
      have hm := (Nat.find_spec h).1
      simp only [List.getElem_map, List.getElem_range, true_and]
      exact fun hz => hn ⟨by omega, hz⟩
    · simpa using (Nat.find_spec h).2
    · simpa using (Nat.find_spec h).1
  · right
    intro b hab hbm hz
    exact h ⟨b - a, by omega, by rw [← hz]; congr 1; omega⟩

/-- R190, all that `CStr` can do. -/
theorem State.cstr_cases (s : State) (p : Word) :
    (∃ str, s.HoldsString p.toNat str ∧ s.cstr p = .ok str) ∨
    (s.Unterminated p.toNat ∧ s.cstr p = .error .segmentationFault) := by
  rcases s.string_or_unterminated p.toNat with ⟨str, h⟩ | h
  · refine .inl ⟨str, h, State.cstrFrom_string h ?_⟩
    have := h.2.2
    omega
  · exact .inr ⟨h, State.cstrFrom_unterminated _ h⟩

theorem isDigit_iff (b : Byte) : isDigit b = true ↔ IsDecimalDigit b := by
  simp [isDigit, IsDecimalDigit]

/-- R191: the digit loop over decimal digits that end inside memory. -/
theorem State.digitsFrom_digits {s : State} {ds : List Byte} {a fuel val : Nat} (h : s.HoldsDigits a ds)
    (hf : ds.length < fuel) :
    s.digitsFrom fuel a val = .ok (ds.foldl (fun v b => v * 10 + (b.toNat - 0x30)) val) := by
  induction ds generalizing a fuel val with
  | nil =>
    obtain ⟨_, hz, hm⟩ := h
    cases fuel with
    | zero => exact absurd hf (Nat.not_lt_zero _)
    | succ fuel =>
      simp only [List.length_nil, Nat.add_zero] at hz hm
      rw [← isDigit_iff] at hz
      simp only [State.digitsFrom, State.memRead1_eq, if_pos (show a + 1 ≤ s.params.memSize by omega), bind, Except.bind,
        if_neg hz, List.foldl_nil]
  | cons b ds ih =>
    obtain ⟨hk, hz, hm⟩ := h
    cases fuel with
    | zero => exact absurd hf (Nat.not_lt_zero _)
    | succ fuel =>
      simp only [List.length_cons] at hz hm hf
      have h0 := hk 0 (by simp)
      simp only [Nat.add_zero, List.getElem_cons_zero] at h0
      have hrest : s.HoldsDigits (a + 1) ds := by
        refine ⟨fun k hlt => ?_, by rwa [show a + 1 + ds.length = a + (ds.length + 1) by omega], by omega⟩
        have := hk (k + 1) (by simpa using hlt)
        rw [show a + 1 + k = a + (k + 1) by omega]
        simpa using this
      have hd := (isDigit_iff b).mpr h0.2
      simp only [State.digitsFrom, State.memRead1_eq, if_pos (show a + 1 ≤ s.params.memSize by omega), bind, Except.bind,
        h0.1, hd, if_true, List.foldl_cons]
      exact ih hrest (by omega)

/-- R191: digits up to the end of memory make the digit loop fail, whatever its fuel. -/
theorem State.digitsFrom_unended {s : State} {a : Nat} (fuel val : Nat)
    (h : ∀ b, a ≤ b → b < s.params.memSize → IsDecimalDigit (s.byteAt b)) :
    s.digitsFrom fuel a val = .error .segmentationFault := by
  induction fuel generalizing a val with
  | zero => rfl
  | succ fuel ih =>
    rw [State.digitsFrom, State.memRead1_eq]
    split
    · next hb =>
      have hd := (isDigit_iff _).mpr (h a (Nat.le_refl a) hb)
      simp only [bind, Except.bind, hd, if_true]
      exact ih _ fun b hab hbm => h b (by omega) hbm
    · rfl

end Sys2Proof.Machine
end

