-- ==== Sys2Proof/Tests/Slice0.lean ====
section
/-! SUPPORT. Small tests: the refused terms of `WellFormed`, one hand-written encoding for each constructor, one or two steps
of each instruction, and, for each statement that has hypotheses, states and operands that meet them. The expected results are
those of 95_test_vectors.md (the row is named in each comment) and of 30_encoding.md section 9; encodings are written out from
30_encoding.md R81 to R85 and R93. -/

open Sys2Proof Sys2Proof.Machine

namespace Sys2Proof.Tests

/-! ### WellFormed -/

/-- R93: number 0x05 is `READ_FILE`, so it is no unassigned number. -/
theorem test_assigned_sysno_ill_formed : (Instr.syscall 0x05).wellFormed = false := by decide

/-- R93: 0x0B is the last assigned number, 0x0C the first unassigned one. -/
theorem test_sysno_boundary : (Instr.syscall 0x0B).wellFormed = false ∧ (Instr.syscall 0x0C).wellFormed = true := by decide

/-! ### Encodings -/

/-- F0, opcode 0x01. -/
theorem test_decode_halt : decode [0x01] = .ok (.halt, []) := by decide

/-- F2, ABS destination, IMM source. -/
theorem test_decode_mov :
    decode [0x10, 0x20, 0x00, 0x01, 0x10, 0x34, 0x12] = .ok (.mov (.mem (.abs 0x0100)) (.imm 0x1234), []) := by decide

/-- REG destination, FPREL source. -/
theorem test_decode_mov_fp_relative :
    decode [0x10, 0x00, 0x40, 0xFE, 0xFF] = .ok (.mov (.reg .ax) (.mem (.fpRel 0xFFFE)), []) := by decide

/-- IND destination, REG source. -/
theorem test_decode_add : decode [0x20, 0x31, 0x02] = .ok (.add (.mem (.ind .bx)) (.reg .cx), []) := by decide

/-- REG SP, IMM. -/
theorem test_decode_sub : decode [0x21, 0x07, 0x10, 0x04, 0x00] = .ok (.sub (.reg .sp) (.imm 4), []) := by decide

/-- F1, FPREL. -/
theorem test_decode_mul : decode [0x22, 0x40, 0xFE, 0xFF] = .ok (.mul (.mem (.fpRel 0xFFFE)), []) := by decide

/-- F1, FPREL. -/
theorem test_decode_inc : decode [0x23, 0x40, 0xFC, 0xFF] = .ok (.inc (.mem (.fpRel 0xFFFC)), []) := by decide

/-- F1, REG CX. -/
theorem test_decode_dec : decode [0x24, 0x02] = .ok (.dec (.reg .cx), []) := by decide

/-- F2, REG, IMM. -/
theorem test_decode_cmp : decode [0x25, 0x00, 0x10, 0xFF, 0xFF] = .ok (.cmp (.reg .ax) (.imm 0xFFFF), []) := by decide

/-- FT, target low byte first. -/
theorem test_decode_jmp : decode [0x30, 0x23, 0x01] = .ok (.jmp 0x0123, []) := by decide

/-- FT. -/
theorem test_decode_je : decode [0x31, 0x80, 0x00] = .ok (.je 0x0080, []) := by decide

/-- FT. -/
theorem test_decode_jne : decode [0x32, 0x80, 0x00] = .ok (.jne 0x0080, []) := by decide

/-- FT. -/
theorem test_decode_jl : decode [0x33, 0x80, 0x00] = .ok (.jl 0x0080, []) := by decide

/-- FT. -/
theorem test_decode_jle : decode [0x34, 0x80, 0x00] = .ok (.jle 0x0080, []) := by decide

/-- FT. -/
theorem test_decode_jg : decode [0x35, 0x80, 0x00] = .ok (.jg 0x0080, []) := by decide

/-- FT. -/
theorem test_decode_jge : decode [0x36, 0x80, 0x00] = .ok (.jge 0x0080, []) := by decide

/-- FT. -/
theorem test_decode_loop : decode [0x37, 0x08, 0x00] = .ok (.loop 0x0008, []) := by decide

/-- FT. -/
theorem test_decode_call : decode [0x38, 0x40, 0x00] = .ok (.call 0x0040, []) := by decide

/-- F0. -/
theorem test_decode_ret : decode [0x39] = .ok (.ret, []) := by decide

/-- F1, IND SP. -/
theorem test_decode_push : decode [0x40, 0x37] = .ok (.push (.mem (.ind .sp)), []) := by decide

/-- F1, REG FP. -/
theorem test_decode_pop : decode [0x41, 0x06] = .ok (.pop (.reg .fp), []) := by decide

/-- FS, an unassigned number. -/
theorem test_decode_syscall : decode [0x50, 0x63] = .ok (.syscall 0x63, []) := by decide

/-- FS, number 0x00. -/
theorem test_decode_sys_atoi : decode [0x50, 0x00] = .ok (.sysAtoi, []) := by decide

/-- FS, number 0x01. -/
theorem test_decode_sys_print_int : decode [0x50, 0x01] = .ok (.sysPrintInt, []) := by decide

/-- FS, number 0x02. -/
theorem test_decode_sys_print_char : decode [0x50, 0x02] = .ok (.sysPrintChar, []) := by decide

/-- FS, number 0x03. -/
theorem test_decode_sys_print_string : decode [0x50, 0x03] = .ok (.sysPrintString, []) := by decide

/-- FS, number 0x04. -/
theorem test_decode_sys_exit : decode [0x50, 0x04] = .ok (.sysExit, []) := by decide

/-- FS, number 0x05. -/
theorem test_decode_sys_read_file : decode [0x50, 0x05] = .ok (.sysReadFile, []) := by decide

/-- FS, number 0x06. -/
theorem test_decode_sys_clear_screen : decode [0x50, 0x06] = .ok (.sysClearScreen, []) := by decide

/-- FS, number 0x07. -/
theorem test_decode_sys_set_color : decode [0x50, 0x07] = .ok (.sysSetColor, []) := by decide

/-- FS, number 0x08. -/
theorem test_decode_sys_draw_rect : decode [0x50, 0x08] = .ok (.sysDrawRect, []) := by decide

/-- FS, number 0x09. -/
theorem test_decode_sys_draw_circle : decode [0x50, 0x09] = .ok (.sysDrawCircle, []) := by decide

/-- FS, number 0x0A. -/
theorem test_decode_sys_draw_line : decode [0x50, 0x0A] = .ok (.sysDrawLine, []) := by decide

/-- FS, number 0x0B. -/
theorem test_decode_sys_paint_display : decode [0x50, 0x0B] = .ok (.sysPaintDisplay, []) := by decide

/-- R99: the word of a table row, the first byte least significant, and zeros after it. -/
theorem test_table_word : decodeTableWord 24 0x020020 = some (.add (.reg .ax) (.reg .cx)) ∧
    decodeTableWord 16 0x0B50 = some .sysPaintDisplay ∧ decodeTableWord 8 0x00 = none := by decide

/-- R81, R83: the encoder on the same bytes. -/
theorem test_encode : encode (.mov (.mem (.abs 0x0100)) (.imm 0x1234)) = [0x10, 0x20, 0x00, 0x01, 0x10, 0x34, 0x12] ∧
    encode (.call 0x0040) = [0x38, 0x40, 0x00] ∧ encode (.pop (.mem (.ind .sp))) = [0x41, 0x37] := by decide

/-! ### Steps -/

/-- The defaults of 95_test_vectors.md section 2, with the instruction's bytes at address 0. -/
def machine (code : List Byte) : State :=
  { State.reset with
    mem := Cells.writeList [] 0 code
    params := { Params.reference with codeEnd := 0x100, imageEnd := 0x100, loadEnd := 0x100, stackLimit := 0x100 } }

/-- The defaults with a filesystem that answers for the path "f" (0x66), whose name stands at 0x0200. -/
def machineWithFile (ans : FsAnswer) (dest count : Word) : State :=
  ((((machine [0x50, 0x05]).storeBytes 0x0200 [0x66, 0x00]).setReg .ax 0x0200).setReg .bx dest).setReg .cx count |>
    fun s => { s with params := { s.params with files := [([0x66], ans)] } }

/-- What one step shows of its next state; `none` where there is none. -/
def shows {α : Type} (s : State) (view : State → α) : Option α :=
  match step s with
  | .next t => some (view t)
  | .fault _ => none
  | .refused _ => none

/-- V110. -/
theorem test_halt_keeps_pc :
    shows ((machine [0x39, 0x01]).jump 0x0001)
      (fun t => (t.status, t.pc)) =
      some ((Status.halted, (0x0001 : Word))) := by decide

/-- V2. -/
theorem test_mov_loads_frame_word :
    shows (((machine [0x10, 0x00, 0x40, 0xFE, 0xFF]).setReg .fp 0x0FF0).storeBytes 0x0FEE [0x34, 0x12])
      (fun t => (t.reg .ax, t.pc)) =
      some (((0x1234 : Word), (0x0005 : Word))) := by decide

/-- V5: the word would end past `MEM_SIZE`. -/
theorem test_mov_at_top_of_memory_fails :
    shows (((machine [0x10, 0x31, 0x00]).setReg .ax 0xBEEF).setReg .bx 0x0FFF)
      (fun t => (t.status, t.byteAt 0x0FFF)) =
      some ((Status.failed .segmentationFault, (0x00 : Byte))) := by decide

/-- V20. -/
theorem test_add_overflows :
    shows ((machine [0x20, 0x00, 0x10, 0x01, 0x00]).setReg .ax 0x7FFF)
      (fun t => (t.reg .ax, t.flags)) =
      some (((0x8000 : Word), (⟨false, true, true⟩ : Flags))) := by decide

/-- V23. -/
theorem test_add_into_memory :
    shows ((((machine [0x20, 0x31, 0x02]).setReg .bx 0x0200).setReg .cx 0x0003).storeBytes 0x0200 [0xFE, 0xFF])
      (fun t => (t.wordAt 0x0200, t.flags)) =
      some (((0x0001 : Word), (⟨false, false, false⟩ : Flags))) := by decide

/-- V26. -/
theorem test_sub_borrows :
    shows (machine [0x21, 0x00, 0x10, 0x01, 0x00])
      (fun t => (t.reg .ax, t.flags)) =
      some (((0xFFFF : Word), (⟨false, true, false⟩ : Flags))) := by decide

/-- V30. -/
theorem test_sub_overflows :
    shows (((machine [0x21, 0x00, 0x01]).setReg .ax 0x7FFF).setReg .bx 0xFFFF)
      (fun t => (t.reg .ax, t.flags)) =
      some (((0x8000 : Word), (⟨false, true, true⟩ : Flags))) := by decide

/-- V31. -/
theorem test_mul_truncates :
    shows (((machine [0x22, 0x01]).setReg .ax 0x012C).setReg .bx 0x012C)
      (fun t => (t.reg .ax, t.flags)) =
      some (((0x5F90 : Word), (⟨false, false, true⟩ : Flags))) := by decide

/-- V33. -/
theorem test_mul_is_signed :
    shows (((machine [0x22, 0x01]).setReg .ax 0x0005).setReg .bx 0xFFFF)
      (fun t => (t.reg .ax, t.flags)) =
      some (((0xFFFB : Word), (⟨false, true, false⟩ : Flags))) := by decide

/-- V40. -/
theorem test_inc_wraps :
    shows ((machine [0x23, 0x00]).setReg .ax 0xFFFF)
      (fun t => (t.reg .ax, t.flags)) =
      some (((0x0000 : Word), (⟨true, false, false⟩ : Flags))) := by decide

/-- V44. -/
theorem test_dec_overflows :
    shows ((machine [0x24, 0x00]).setReg .ax 0x8000)
      (fun t => (t.reg .ax, t.flags)) =
      some (((0x7FFF : Word), (⟨false, false, true⟩ : Flags))) := by decide

/-- V47. -/
theorem test_cmp_overflows :
    shows (((machine [0x25, 0x00, 0x01]).setReg .ax 0x8000).setReg .bx 0x0001)
      (fun t => (t.reg .ax, t.flags)) =
      some (((0x8000 : Word), (⟨false, false, true⟩ : Flags))) := by decide

/-- V46. -/
theorem test_cmp_orders_operands :
    shows ((machine [0x25, 0x00, 0x10, 0x05, 0x00]).setReg .ax 0x0003)
      (fun t => (t.flags, t.pc)) =
      some (((⟨false, true, false⟩ : Flags), (0x0005 : Word))) := by decide

/-- V60. -/
theorem test_jmp :
    shows (machine [0x30, 0x23, 0x01])
      (fun t => t.pc) =
      some ((0x0123 : Word)) := by decide

/-- V61. -/
theorem test_je_taken :
    shows ((machine [0x31, 0x80, 0x00]).setFlags ⟨true, false, false⟩)
      (fun t => t.pc) =
      some ((0x0080 : Word)) := by decide

/-- V62. -/
theorem test_je_not_taken :
    shows ((machine [0x31, 0x80, 0x00]).setFlags ⟨false, true, false⟩)
      (fun t => t.pc) =
      some ((0x0003 : Word)) := by decide

/-- V81. -/
theorem test_jne_taken :
    shows ((machine [0x32, 0x80, 0x00]).setFlags ⟨false, true, true⟩)
      (fun t => t.pc) =
      some ((0x0080 : Word)) := by decide

/-- V82. -/
theorem test_jne_not_taken :
    shows ((machine [0x32, 0x80, 0x00]).setFlags ⟨true, false, false⟩)
      (fun t => t.pc) =
      some ((0x0003 : Word)) := by decide

/-- V63. -/
theorem test_jl_on_overflow :
    shows ((machine [0x33, 0x80, 0x00]).setFlags ⟨false, false, true⟩)
      (fun t => t.pc) =
      some ((0x0080 : Word)) := by decide

/-- V66. -/
theorem test_jle_on_zero :
    shows ((machine [0x34, 0x80, 0x00]).setFlags ⟨true, false, false⟩)
      (fun t => t.pc) =
      some ((0x0080 : Word)) := by decide

/-- V64. -/
theorem test_jg_on_both :
    shows ((machine [0x35, 0x80, 0x00]).setFlags ⟨false, true, true⟩)
      (fun t => t.pc) =
      some ((0x0080 : Word)) := by decide

/-- V65. -/
theorem test_jge_not_taken :
    shows ((machine [0x36, 0x80, 0x00]).setFlags ⟨true, false, true⟩)
      (fun t => t.pc) =
      some ((0x0003 : Word)) := by decide

/-- V69. -/
theorem test_loop_ends :
    shows (((machine [0x37, 0x08, 0x00]).setReg .cx 0x0001).setFlags ⟨false, true, false⟩)
      (fun t => (t.reg .cx, t.pc, t.flags)) =
      some (((0x0000 : Word), (0x0003 : Word), (⟨false, true, false⟩ : Flags))) := by decide

/-- V70. -/
theorem test_loop_wraps_and_branches :
    shows (machine [0x37, 0x08, 0x00])
      (fun t => (t.reg .cx, t.pc)) =
      some (((0xFFFF : Word), (0x0008 : Word))) := by decide

/-- V71, at address 0. -/
theorem test_call_pushes_next_address :
    shows (machine [0x38, 0x40, 0x00])
      (fun t => (t.reg .sp, t.pc, t.wordAt 0x0FFE)) =
      some (((0x0FFE : Word), (0x0040 : Word), (0x0003 : Word))) := by decide

/-- V72. -/
theorem test_call_at_stack_limit_fails :
    shows ((machine [0x38, 0x40, 0x00]).setReg .sp 0x0100)
      (fun t => (t.status, t.reg .sp, t.pc)) =
      some ((Status.failed .segmentationFault, (0x0100 : Word), (0x0000 : Word))) := by decide

/-- V75. -/
theorem test_ret :
    shows (((machine [0x39]).setReg .sp 0x0FFE).storeBytes 0x0FFE [0x13, 0x00])
      (fun t => (t.reg .sp, t.pc)) =
      some (((0x1000 : Word), (0x0013 : Word))) := by decide

/-- V76. -/
theorem test_ret_on_empty_stack_fails :
    shows (machine [0x39])
      (fun t => (t.status, t.reg .sp, t.pc)) =
      some ((Status.failed .stackUnderflow, (0x1000 : Word), (0x0000 : Word))) := by decide

/-- V91. -/
theorem test_push_old_sp :
    shows (machine [0x40, 0x07])
      (fun t => (t.reg .sp, t.wordAt 0x0FFE)) =
      some (((0x0FFE : Word), (0x1000 : Word))) := by decide

/-- V97. -/
theorem test_pop_into_sp :
    shows (((machine [0x41, 0x07]).setReg .sp 0x0FFE).storeBytes 0x0FFE [0x00, 0x08])
      (fun t => (t.reg .sp, t.pc)) =
      some (((0x0800 : Word), (0x0002 : Word))) := by decide

/-- V98. -/
theorem test_pop_into_memory_at_old_sp :
    shows (((machine [0x41, 0x37]).setReg .sp 0x0FFE).storeBytes 0x0FFE [0x34, 0x12])
      (fun t => (t.reg .sp, t.wordAt 0x0FFE)) =
      some (((0x1000 : Word), (0x1234 : Word))) := by decide

/-- V112. -/
theorem test_unknown_syscall :
    shows (machine [0x50, 0x0C])
      (fun t => (t.status, t.pc)) =
      some ((Status.failed .unknownSyscall, (0x0000 : Word))) := by decide

/-- V140: "-42". -/
theorem test_atoi_negative :
    shows (((machine [0x50, 0x00]).setReg .ax 0x0200).storeBytes 0x0200 [0x2D, 0x34, 0x32, 0x00])
      (fun t => (t.reg .ax, t.pc)) =
      some (((0xFFD6 : Word), (0x0002 : Word))) := by decide

/-- V144: "70000". -/
theorem test_atoi_wraps :
    shows (((machine [0x50, 0x00]).setReg .ax 0x0200).storeBytes 0x0200 [0x37, 0x30, 0x30, 0x30, 0x30, 0x00])
      (fun t => t.reg .ax) =
      some ((0x1170 : Word)) := by decide

/-- V154: "-32768". -/
theorem test_print_int_least :
    shows ((machine [0x50, 0x01]).setReg .ax 0x8000)
      (fun t => t.out) =
      some ([(0x2D : Byte), 0x33, 0x32, 0x37, 0x36, 0x38]) := by decide

/-- V151. -/
theorem test_print_int_zero :
    shows (machine [0x50, 0x01])
      (fun t => t.out) =
      some ([(0x30 : Byte)]) := by decide

/-- V156. -/
theorem test_print_char_low_byte :
    shows ((machine [0x50, 0x02]).setReg .ax 0x010A)
      (fun t => t.out) =
      some ([(0x0A : Byte)]) := by decide

/-- V158: "Hi". -/
theorem test_print_string :
    shows (((machine [0x50, 0x03]).setReg .ax 0x0200).storeBytes 0x0200 [0x48, 0x69, 0x00])
      (fun t => t.out) =
      some ([(0x48 : Byte), 0x69]) := by decide

/-- V160. -/
theorem test_print_string_unterminated_fails :
    shows (((machine [0x50, 0x03]).setReg .ax 0x0FFE).storeBytes 0x0FFE [0x61, 0x62])
      (fun t => (t.status, t.out)) =
      some ((Status.failed .segmentationFault, ([] : List Byte))) := by decide

/-- V111. -/
theorem test_exit_keeps_pc :
    shows ((machine [0x39, 0x50, 0x04]).jump 0x0001)
      (fun t => (t.status, t.pc)) =
      some ((Status.halted, (0x0001 : Word))) := by decide

/-- V162. -/
theorem test_read_file_cuts_short :
    shows (machineWithFile (.bytes [0x61, 0x62, 0x63, 0x64, 0x65]) 0x0300 0x0003)
      (fun t => (t.reg .ax, t.wordAt 0x0301, t.byteAt 0x0303)) =
      some (((0x0003 : Word), (0x6362 : Word), (0x00 : Byte))) := by decide

/-- V163. -/
theorem test_read_file_not_found :
    shows (machineWithFile (.notFound) 0x0300 0x0003)
      (fun t => (t.reg .ax, t.status)) =
      some (((0xFFFF : Word), Status.running)) := by decide

/-- V213. -/
theorem test_clear_screen_resets_color :
    shows ((machine [0x50, 0x06]).setColor 2)
      (fun t => (t.color, t.pc)) =
      some (((0 : BitVec 2), (0x0002 : Word))) := by decide

/-- V181. -/
theorem test_set_color_masks :
    shows ((machine [0x50, 0x07]).setReg .ax 0x0007)
      (fun t => (t.color, t.reg .ax)) =
      some (((3 : BitVec 2), (0x0007 : Word))) := by decide

/-- V183: the border of the 4 by 3 box at (2, 1). -/
theorem test_draw_rect_outline :
    shows ((((((machine [0x50, 0x08]).setColor 1).setReg .ax 2).setReg .bx 1).setReg .cx 4).setReg .dx 3)
      (fun t => [t.fb.pixel 2 1, t.fb.pixel 5 3, t.fb.pixel 3 2, t.fb.pixel 6 1]) =
      some ([(1 : BitVec 2), 1, 0, 0]) := by decide

/-- V185. -/
theorem test_draw_rect_clipped_left :
    shows (((((((machine [0x50, 0x08]).setColor 2).setReg .ax 0xFFFE).setReg .bx 0).setReg .cx 4).setReg .dx 1).setReg .ex 1)
      (fun t => [t.fb.pixel 0 0, t.fb.pixel 1 0, t.fb.pixel 2 0]) =
      some ([(2 : BitVec 2), 2, 0]) := by decide

/-- V196, with one pixel it leaves alone. -/
theorem test_draw_circle_radius_two :
    shows (((((machine [0x50, 0x09]).setColor 3).setReg .ax 10).setReg .bx 10).setReg .cx 2)
      (fun t => [t.fb.pixel 8 9, t.fb.pixel 10 12, t.fb.pixel 12 11, t.fb.pixel 9 9]) =
      some ([(3 : BitVec 2), 3, 3, 0]) := by decide

/-- V198. -/
theorem test_draw_circle_negative_radius :
    shows (((((machine [0x50, 0x09]).setColor 3).setReg .ax 10).setReg .bx 10).setReg .cx 0xFFFF)
      (fun t => t.fb) =
      some (([] : Framebuffer)) := by decide

/-- V203. -/
theorem test_draw_line_shallow :
    shows ((((machine [0x50, 0x0A]).setColor 2).setReg .cx 5).setReg .dx 2)
      (fun t => [t.fb.pixel 1 0, t.fb.pixel 2 1, t.fb.pixel 4 2, t.fb.pixel 1 1]) =
      some ([(2 : BitVec 2), 2, 2, 0]) := by decide

/-- V205. -/
theorem test_draw_line_backward :
    shows (((((machine [0x50, 0x0A]).setColor 2).setReg .ax 4).setReg .bx 1).setReg .dx 3)
      (fun t => [t.fb.pixel 0 3, t.fb.pixel 3 2, t.fb.pixel 2 2, t.fb.pixel 3 1]) =
      some ([(2 : BitVec 2), 2, 2, 0]) := by decide

/-- V171. -/
theorem test_paint_display :
    shows (machine [0x50, 0x0B])
      (fun t => (t.disp, t.pc)) =
      some (([([] : Framebuffer)], (0x0002 : Word))) := by decide

/-- V120. -/
theorem test_opcode_zero_is_illegal :
    shows (machine [0x00])
      (fun t => (t.status, t.pc)) =
      some ((Status.failed .illegalInstruction, (0x0000 : Word))) := by decide

/-- V133. -/
theorem test_fetch_at_code_end_fails :
    shows ((machine [0x00]).jump 0x0100)
      (fun t => t.status) =
      some (Status.failed .imageOverrun) := by decide

/-- The host's placing of a table word makes it the very next instruction, from reset too. -/
theorem test_fetch_word_runs :
    shows (State.reset.withFetchWord 24 0x012330) (fun t => (t.pc, t.status)) = some ((0x0123 : Word), Status.running) := by
  decide

/-! ### States and operands that meet the hypotheses of the statements -/

/-- A load of fourteen code bytes and the argument "3", exactly filling a memory of sixteen bytes up to the stack. -/
def smallLoad : Load where
  memSize := 16
  image := [0x01, 0x39, 0x50, 0x04, 0x41, 0x06, 0x40, 0x06, 0x23, 0x00, 0x24, 0x00, 0x22, 0x01]
  codeEnd := 14
  entry := 2
  arg := some [0x33]
  stackLimit := none
  colorReset := 3
  files := []

theorem witness_load_valid : Load.reference.valid = true ∧ smallLoad.valid = true ∧ smallLoad.loadEnd = 16 := by decide

theorem witness_load_meets_clauses :
    Load.reference.arg = none ∧ smallLoad.arg = some [0x33] ∧ 13 < smallLoad.image.length ∧ smallLoad.loadEnd ≤ 16 := by
  decide

theorem witness_step_keeps_invariant : (machine [0x50, 0x0B]).Inv ∧ ∃ t, step (machine [0x50, 0x0B]) = .next t :=
  ⟨by decide, _, rfl⟩

/-- Parameters that break R8: a code region larger than memory. -/
def inconsistent : State := { State.reset with params := { Params.reference with codeEnd := 5000 } }

theorem witness_step_always_answers_next :
    State.reset.params.consistent = true ∧ inconsistent.params.consistent = false ∧ inconsistent.status = .running := by
  decide

/-- A seven-byte instruction whose last byte is the last of the code region, and a one-byte one at the last code byte. -/
theorem witness_step_runs_instruction :
    ((machine []).storeBytes 0x00F9 [0x10, 0x20, 0x00, 0x02, 0x10, 0x34, 0x12]).HoldsCode 0x00F9
      (encode (.mov (.mem (.abs 0x0200)) (.imm 0x1234))) ∧
    ((machine []).storeBytes 0x00FF [0x39]).HoldsCode 0x00FF (encode .ret) ∧
    Instr.ret.WellFormed ∧ (machine []).status = .running ∧ (machine []).params.consistent = true := by
  refine ⟨?_, ?_, trivial, by decide, by decide⟩
  · unfold State.HoldsCode; decide
  · unfold State.HoldsCode; decide

theorem witness_stopped : (machine []).halt.status ≠ .running ∧ ((machine []).fail .unknownSyscall).status ≠ .running := by
  decide

theorem witness_well_formed_syscalls : (Instr.syscall 0x0C).WellFormed ∧ (Instr.syscall 0xFF).WellFormed := by
  constructor <;> simp [Instr.WellFormed]

theorem witness_decodes :
    decode [0x10, 0x40, 0xFE, 0xFF, 0x37, 0x99] = .ok (.mov (.mem (.fpRel 0xFFFE)) (.mem (.ind .sp)), [0x99]) := by decide

theorem witness_unassigned_opcode :
    (0x00 : Byte) ∉ ([0x01, 0x10, 0x20, 0x21, 0x22, 0x23, 0x24, 0x25, 0x30, 0x31, 0x32, 0x33, 0x34, 0x35, 0x36, 0x37, 0x38,
      0x39, 0x40, 0x41, 0x50] : List Byte) ∧
    ((machine [0x51]).storeBytes 0x00FF [0xFF]).byteAt 0x00FF = 0xFF ∧
    ((machine []).jump 0x00FF).pc.toNat < (machine []).params.codeEnd := by decide

/-- An illegal specifier as the last code byte, first and second operand; an immediate destination; both ends of the numbers. -/
theorem witness_illegal_operand :
    (0x08 : Byte) ∉ ([0x00, 0x01, 0x02, 0x03, 0x04, 0x05, 0x06, 0x07, 0x10, 0x20, 0x30, 0x31, 0x32, 0x33, 0x34, 0x35, 0x36, 0x37,
      0x40] : List Byte) ∧
    ((machine []).storeBytes 0x00FE [0x22, 0x08]).HoldsCode 0x00FE [0x22, 0x08] ∧
    ((machine []).storeBytes 0x00FE [0x41, 0x10]).HoldsCode 0x00FE [0x41, 0x10] ∧
    ((machine []).storeBytes 0x00FD [0x10, 0x07, 0x08]).HoldsCode 0x00FD (0x10 :: (encodeDst (.reg .sp) ++ [0x08])) ∧
    ((machine []).storeBytes 0x00FD [0x25, 0x37, 0x08]).HoldsCode 0x00FD (0x25 :: (encodeSrc (.mem (.ind .sp)) ++ [0x08])) ∧
    ((machine []).storeBytes 0x00FE [0x50, 0x0C]).HoldsCode 0x00FE [0x50, 0x0C] ∧
    0x0C ≤ (0x0C : Byte).toNat ∧ 0x0C ≤ (0xFF : Byte).toNat := by
  unfold State.HoldsCode; decide

/-- `pc` at `CODE_END`, and a `MOV` of which six bytes of seven are left. -/
theorem witness_code_region :
    (machine []).params.codeEnd ≤ ((machine []).jump 0x0100).pc.toNat ∧
    6 < (encode (.mov (.mem (.abs 0x0200)) (.imm 0x1234))).length ∧ (machine []).params.codeEnd = 0x00FA + 6 ∧
    ((machine []).storeBytes 0x00FA [0x10, 0x20, 0x00, 0x02, 0x10, 0x34, 0x12]).HoldsCode 0x00FA
      ((encode (.mov (.mem (.abs 0x0200)) (.imm 0x1234))).take 6) := by
  refine ⟨by decide, by decide, by decide, ?_⟩
  unfold State.HoldsCode; decide

/-- The last byte and the last word of memory, and the first of each that are out of range. -/
theorem witness_memory_access :
    (machine []).mem.wf = true ∧ 4095 + 1 ≤ (machine []).params.memSize ∧ 4094 + 2 ≤ (machine []).params.memSize ∧
    (machine []).params.memSize < 4096 + 1 ∧ (machine []).params.memSize < 4095 + 2 := by decide

theorem witness_operands_in_range :
    (machine []).mem.wf = true ∧ (machine []).SrcInRange (.mem (.abs 0x0FFE)) ∧ (machine []).DstInRange (.mem (.abs 0x0FFE)) ∧
    (machine []).SrcInRange (.imm 0xFFFF) ∧ (machine []).DstInRange (.reg .sp) :=
  ⟨by decide, by unfold State.SrcInRange; decide, by unfold State.DstInRange; decide, trivial, trivial⟩

theorem witness_operands_out_of_range :
    ¬ (machine []).SrcInRange (.mem (.abs 0x0FFF)) ∧ ¬ (machine []).DstInRange (.mem (.fpRel 0xFFFF)) :=
  ⟨by unfold State.SrcInRange; decide, by unfold State.DstInRange; decide⟩

theorem witness_jump_after_cmp : (machine []).SrcInRange (.reg .ax) ∧ (machine []).SrcInRange (.imm 1) ∧
    ∃ t, exec (.cmp (.reg .ax) (.imm 1)) (machine []) = .next t :=
  ⟨trivial, trivial, _, rfl⟩

/-- `LOOP` entered with 2, with 1 and with 0. -/
theorem witness_loop_counts :
    shows ((machine [0x37, 0x08, 0x00]).setReg .cx 2) (fun t => t.reg .cx) = some 1 ∧
    shows ((machine [0x37, 0x08, 0x00]).setReg .cx 1) (fun t => t.reg .cx) = some 0 ∧ (machine []).reg .cx = 0 := by decide

/-- The last push that fits above `STACK_LIMIT` = 0x100, the first that does not, and one whose address wraps. -/
theorem witness_push :
    ((machine []).setReg .sp 0x0102).CanPush ∧ ¬ ((machine []).setReg .sp 0x0101).CanPush ∧
    ¬ ((machine []).setReg .sp 0x0001).CanPush := by
  unfold State.CanPush; decide

/-- The highest and the lowest word that can be popped, and `SP` just outside at either end. -/
theorem witness_pop :
    ((machine []).setReg .sp 0x0FFE).CanPop ∧ ((machine []).setReg .sp 0x0100).CanPop ∧
    (machine []).params.stackBase < (((machine []).setReg .sp 0x0FFF).reg .sp).toNat + 2 ∧
    (((machine []).setReg .sp 0x00FF).reg .sp).toNat + 2 ≤ (machine []).params.stackBase ∧
    (((machine []).setReg .sp 0x00FF).reg .sp).toNat < (machine []).params.stackLimit := by
  unfold State.CanPop; decide

theorem witness_call_returns : (machine []).mem.wf = true ∧ (machine []).CanPush ∧
    ∃ t, exec (.call 0x0040) (machine []) = .next t :=
  ⟨by decide, by unfold State.CanPush; decide, _, rfl⟩

theorem witness_push_pops : (machine []).mem.wf = true ∧ (machine []).SrcInRange (.reg .fp) ∧ (machine []).CanPush ∧
    Reg.fx ≠ .sp ∧ ∃ t, exec (.push (.reg .fp)) (machine []) = .next t :=
  ⟨by decide, trivial, by unfold State.CanPush; decide, by decide, _, rfl⟩

theorem witness_pop_destinations :
    ((machine []).setReg .sp 0x0FFE).mem.wf = true ∧ ((machine []).setReg .sp 0x0FFE).DstInRange (.mem (.ind .sp)) ∧
    ¬ ((machine []).setReg .sp 0x0FFE).DstInRange (.mem (.abs 0x0FFF)) ∧ Dst.reg .ax ≠ .reg .sp :=
  ⟨by decide, by unfold State.DstInRange; decide, by unfold State.DstInRange; decide, by decide⟩

theorem witness_syscall_table : (0x0C : Nat) ≤ (0xFF : Byte).toNat ∧
    ((0x0B : Byte), Instr.sysPaintDisplay) ∈ [((0x00 : Byte), Instr.sysAtoi), (0x0B, .sysPaintDisplay)] := by decide

/-- "12" at 0x0200 and its end; "-3" whose terminator is the last byte of memory. -/
theorem witness_atoi_digits :
    ((machine []).storeBytes 0x0200 [0x31, 0x32]).HoldsDigits 0x0200 [0x31, 0x32] ∧
    ((machine []).storeBytes 0x0FFD [0x2D, 0x33]).HoldsDigits (0x0FFD + 1) [0x33] ∧
    ((machine []).storeBytes 0x0FFD [0x2D, 0x33]).byteAt 0x0FFD = 0x2D ∧
    ((machine []).storeBytes 0x0200 [0x31, 0x32]).byteAt 0x0200 ≠ 0x2D := by
  unfold State.HoldsDigits IsDecimalDigit; decide

/-- `AX` at `MEM_SIZE`; "-1" that fills memory to its last byte. -/
theorem witness_atoi_unended :
    (machine []).params.memSize ≤ (((machine []).setReg .ax 0x1000).reg .ax).toNat ∧
    ∀ b, 0x0FFE ≤ b → b < ((machine []).storeBytes 0x0FFE [0x2D, 0x31]).params.memSize →
      IsDecimalDigit (((machine []).storeBytes 0x0FFE [0x2D, 0x31]).byteAt b) ∨
      (b = 0x0FFE ∧ ((machine []).storeBytes 0x0FFE [0x2D, 0x31]).byteAt b = 0x2D) := by
  refine ⟨by decide, fun b hlo hhi => ?_⟩
  have hhi : b < 4096 := hhi
  obtain rfl | rfl : b = 0x0FFE ∨ b = 0x0FFF := by omega
  · exact .inr (by decide)
  · exact .inl (by unfold IsDecimalDigit; decide)

/-- "Hi" with its zero byte last in memory, the empty string, and two bytes with none. -/
theorem witness_strings :
    ((machine []).storeBytes 0x0FFD [0x48, 0x69]).HoldsString 0x0FFD [0x48, 0x69] ∧ (machine []).HoldsString 0x0FFF [] ∧
    ((machine []).storeBytes 0x0FFE [0x61, 0x62]).Unterminated 0x0FFE := by
  refine ⟨by unfold State.HoldsString; decide, by unfold State.HoldsString; decide, fun b hlo hhi => ?_⟩
  have hhi : b < 4096 := hhi
  obtain rfl | rfl : b = 0x0FFE ∨ b = 0x0FFF := by omega
  · decide
  · decide

/-- A missing file; three bytes that end at the top of memory; the same one byte further up; a full buffer that fits. -/
theorem witness_read_file :
    (machineWithFile .notFound 0x0300 3).HoldsString 0x0200 [0x66] ∧
    (machineWithFile .notFound 0x0300 3).fsAnswer [0x66] = .notFound ∧
    (machineWithFile (.bytes [1, 2, 3]) 0x0FFD 0xFFFF).fsAnswer [0x66] = .bytes [1, 2, 3] ∧
    ((machineWithFile (.bytes [1, 2, 3]) 0x0FFD 0xFFFF).reg .bx).toNat + 3 ≤ 4096 ∧
    4096 < ((machineWithFile (.bytes [1, 2, 3]) 0x0FFE 0xFFFF).reg .bx).toNat + 3 ∧
    ((machineWithFile .notFound 0x0FFD 3).reg .bx).toNat + ((machineWithFile .notFound 0x0FFD 3).reg .cx).toNat ≤ 4096 := by
  refine ⟨by unfold State.HoldsString; decide, ?_⟩
  decide

/-- `PRINT_INT` of -1 and a memory that holds "-1". -/
theorem witness_atoi_inverts_print_int :
    shows ((machine [0x50, 0x01]).setReg .ax 0xFFFF) (fun t => t.out) = some [0x2D, 0x31] ∧
    (((machine []).setReg .ax 0x0200).storeBytes 0x0200 [0x2D, 0x31]).HoldsString 0x0200 [0x2D, 0x31] := by
  refine ⟨by decide, ?_⟩
  unfold State.HoldsString; decide

theorem witness_canonical_frame : Cells.wf (machine []).fb = true := by decide

/-- The corner pixel of a filled rectangle, and a pixel just right of it. -/
theorem witness_rect_pixels :
    ((2 : Word).toInt ≤ (2 : Nat) ∧ ((2 : Nat) : Int) ≤ (2 : Word).toInt + (4 : Word).toInt - 1) ∧
    ¬ (((6 : Nat) : Int) ≤ (2 : Word).toInt + (4 : Word).toInt - 1) := by decide

theorem witness_circle_reaches : CircleReaches 3 0 3 (1 - 3) ∧ CircleOffset 0 3 (3, 0) ∧ ¬ CircleOffset 0 3 (1, 0) :=
  ⟨.start, .inr (by decide), by unfold CircleOffset; decide⟩

theorem witness_line_reaches : LineReaches 0 0 5 2 1 0 1 :=
  LineReaches.move (x1 := 0) (y1 := 0) (x2 := 5) (y2 := 2) .start (by decide)

theorem witness_line_has_two_points : 4 + 1 < (linePoints 0 0 5 2).length ∧ (linePoints 0 0 5 2)[4]? = some (4, 2) := by decide

theorem witness_circle_has_points : (10, 7) ∈ circlePoints 10 10 3 ∧ circlePoints 10 10 0 ≠ [] := by decide

theorem witness_draws_twice : ∃ t u, exec .sysDrawLine (machine []) = .next t ∧ exec .sysDrawLine t = .next u :=
  ⟨_, _, rfl, rfl⟩

/-- A step that fails and a step that halts. -/
theorem witness_step_stops :
    shows (machine [0x39]) (fun t => t.status) = some (.failed .stackUnderflow) ∧
    shows (machine [0x01]) (fun t => t.status) = some .halted := by decide

theorem witness_flag_writer : ∃ t, exec (.add (.reg .ax) (.imm 0)) (machine []) = .next t ∧ t.flags ≠ (machine []).flags :=
  ⟨_, rfl, by decide⟩

theorem witness_syscall_answers : ∃ t, exec .sysSetColor (machine []) = .next t := ⟨_, rfl⟩

theorem witness_engine_answers : (∃ t, exec (.mov (.mem (.abs 0x0200)) (.imm 1)) (machine []) = .next t) ∧
    ∃ t, exec (.pop (.reg .ax)) (machine []) = .next t :=
  ⟨⟨_, rfl⟩, _, rfl⟩

theorem witness_run : ∃ t, Sys2Proof.core.run 2 (machine [0x23, 0x00, 0x01]) = .next t := ⟨_, rfl⟩

/-- `INC AX` is the two bytes 23 00, so the word 0x0023. -/
theorem witness_store_into_code :
    encode (.inc (.reg .ax)) = [loByte 0x0023, hiByte 0x0023] ∧ (machine []).pc.toNat + 9 ≤ (machine []).params.codeEnd := by
  decide

end Sys2Proof.Tests
end

