-- ==== Sys2Proof/Proofs/Loader.lean ====
section
/-! SUPPORT. What the loader leaves in the state (70_reset_and_hazards.md R260, R261; 10_state.md R36), and O1. -/

namespace Sys2Proof.Machine

/-! ### The parameters of a valid load -/

/-- R8: the size of a memory with consistent parameters is a word. -/
theorem Params.memSize_lt_of_consistent {p : Params} (h : p.consistent = true) : p.memSize < 65536 := by
  simp only [Params.consistent, Bool.and_eq_true, decide_eq_true_eq] at h
  obtain ⟨⟨⟨⟨⟨-, hmax⟩, -⟩, -⟩, -⟩, -⟩ := h
  exact Nat.lt_succ_of_le hmax

/-- R260: a valid load fixes consistent parameters. -/
theorem Load.params_consistent {l : Load} (h : l.valid = true) : l.params.consistent = true := by
  simp only [Load.valid, Bool.and_eq_true] at h
  exact h.1

/-! ### The fields after a load -/

@[simp] theorem State.load_ax (l : Load) :
    (State.load l).reg .ax = if l.arg.isSome then wrap16 l.image.length else 0 := rfl

@[simp] theorem State.load_sp (l : Load) : (State.load l).reg .sp = wrap16 l.memSize := rfl

theorem State.load_reg_of_mem {l : Load} {r : Reg} (h : r ∈ [Reg.bx, .cx, .dx, .ex, .fx, .fp]) :
    (State.load l).reg r = 0 := by
  cases r with
  | ax | sp => exact absurd h (by decide)
  | bx | cx | dx | ex | fx | fp => rfl

/-- R36: `SP` is `MEM_SIZE`, which a valid load keeps small enough for a word. -/
theorem State.load_sp_toNat {l : Load} (h : l.valid = true) : ((State.load l).reg .sp).toNat = l.memSize := by
  have hsize : l.memSize < 65536 := Params.memSize_lt_of_consistent (Load.params_consistent h)
  rw [State.load_sp, wrap16_toNat, Nat.mod_eq_of_lt hsize]

/-- R36: a framebuffer that lists no cell shows pixel 0 everywhere. -/
theorem State.load_pixel (l : Load) (x y : Nat) : (State.load l).fb.pixel x y = 0 := rfl

/-! ### The memory after a load -/

/-- R261: what the loader writes from address 0 on, the image first. -/
def Load.bytes (l : Load) : List Byte := l.image ++ l.argBytes

theorem Load.bytes_length (l : Load) : l.bytes.length = l.loadEnd := List.length_append

theorem Load.bytes_of_arg {l : Load} {arg : List Byte} (h : l.arg = some arg) : l.bytes = l.image ++ (arg ++ [0]) := by
  simp only [Load.bytes, Load.argBytes, h]

theorem State.load_mem (l : Load) : (State.load l).mem = Cells.writeList [] 0 l.bytes := rfl

/-- Below `LOAD_END` the memory holds what the loader wrote. -/
theorem State.load_byteAt_lt {l : Load} {a : Nat} (h : a < l.bytes.length) : (State.load l).byteAt a = l.bytes[a] := by
  have e := Cells.read_writeList_inside (m := []) (a := 0) l.bytes rfl h
  rwa [Nat.zero_add, ← State.load_mem] at e

/-- R261: from `LOAD_END` on every byte is zero. -/
theorem State.load_byteAt_of_loadEnd_le {l : Load} {a : Nat} (h : l.loadEnd ≤ a) : (State.load l).byteAt a = 0 := by
  rw [State.byteAt, State.load_mem, Cells.read_writeList_outside [] l.bytes (.inr (by rwa [Nat.zero_add, l.bytes_length]))]
  rfl

/-- R261: the image stands at address 0. -/
theorem State.load_byteAt_image {l : Load} {i : Nat} (h : i < l.image.length) :
    (State.load l).byteAt i = l.image[i] := by
  have hi : i < l.bytes.length := Nat.lt_of_lt_of_le h (by simp [Load.bytes])
  exact (State.load_byteAt_lt hi).trans (List.getElem_append_left h)

/-- R261: the argument and its zero byte stand at `IMAGE_END`. -/
theorem State.load_byteAt_arg {l : Load} {arg : List Byte} {i : Nat} (harg : l.arg = some arg)
    (h : i < (arg ++ [0]).length) : (State.load l).byteAt (l.image.length + i) = (arg ++ [0])[i] := by
  have hi : l.image.length + i < l.bytes.length := by
    rw [Load.bytes_of_arg harg, List.length_append]
    omega
  rw [State.load_byteAt_lt hi]
  simp only [Load.bytes_of_arg harg, List.getElem_append_right' l.image h, Nat.add_comm]

/-- R36, R261: with an argument, `AX` points at it, and it ends in a zero byte. -/
theorem State.load_some_arg {l : Load} {arg : List Byte} (harg : l.arg = some arg) :
    (State.load l).reg .ax = wrap16 l.image.length ∧
    (∀ i, (h : i < arg.length) → (State.load l).byteAt (l.image.length + i) = arg[i]) ∧
    (State.load l).byteAt (l.image.length + arg.length) = 0 := by
  refine ⟨by simp [harg], fun i hi => ?_, ?_⟩
  · rw [State.load_byteAt_arg harg (by rw [List.length_append]; omega), List.getElem_append_left hi]
  · rw [State.load_byteAt_arg harg (by simp), List.getElem_concat_length rfl]

/-- Settles O1: register by register, and the memory by the four ranges that the loader leaves. -/
theorem loadGivesResetState : Obligations.LoadGivesResetState := by
  intro l hvalid
  have hax : l.arg = none → (State.load l).reg .ax = 0 := fun hnone => by simp [hnone]
  exact ⟨hax, fun _ => State.load_some_arg, fun _ => State.load_reg_of_mem, State.load_sp_toNat hvalid,
    rfl, rfl, rfl, fun _ => State.load_byteAt_image, fun _ => State.load_byteAt_of_loadEnd_le,
    rfl, fun x y _ _ => State.load_pixel l x y, rfl, rfl, rfl⟩

end Sys2Proof.Machine
end

