-- ==== Sys2Proof/Proofs/Memory.lean ====
section
/-! SUPPORT. `MemRead` and `MemWrite` of a byte and of a word, in range and out of it (20_memory.md R53, R54), and O17. -/

namespace Sys2Proof.Machine

/-! ### The state after a store -/

/-- R54: "No other byte changes." -/
theorem State.sameBytesBut_storeByte (s : State) (a : Nat) (v : Byte) : s.SameBytesBut (s.storeByte a v) a 1 :=
  fun _ hb => s.byteAt_storeByte_ne v (by omega)

/-- R54: the state that `MemWrite` of a byte leaves. -/
theorem State.storeByte_stored {s : State} (a : Nat) (v : Byte) (hwf : s.mem.wf = true) :
    (s.storeByte a v).byteAt a = v ∧ s.SameBytesBut (s.storeByte a v) a 1 ∧
    s.storeByte a v = { s with mem := (s.storeByte a v).mem } :=
  ⟨State.byteAt_storeByte_self a v hwf, s.sameBytesBut_storeByte a v, rfl⟩

/-- R50, R54: the state that `MemWrite` of a word leaves, its two bytes given as numbers. -/
theorem State.storeWord_stored {s : State} (a : Nat) (v : Word) (hwf : s.mem.wf = true) :
    ((s.storeWord a v).byteAt a).toNat = v.toNat % 256 ∧ ((s.storeWord a v).byteAt (a + 1)).toNat = v.toNat / 256 ∧
    s.SameBytesBut (s.storeWord a v) a 2 ∧ s.storeWord a v = { s with mem := (s.storeWord a v).mem } := by
  have hlo : ((s.storeWord a v).byteAt a).toNat = v.toNat % 256 := by
    rw [State.byteAt_storeWord_lo a v hwf, loByte_toNat]
  have hhi : ((s.storeWord a v).byteAt (a + 1)).toNat = v.toNat / 256 := by
    rw [State.byteAt_storeWord_hi a v hwf, hiByte_toNat]
  exact ⟨hlo, hhi, s.sameBytesBut_storeWord a v, rfl⟩

/-! ### Accesses out of range -/

/-- R53, R54: a byte at or above `MEM_SIZE` is neither read nor written. -/
theorem State.byteAccess_outOfRange {s : State} {a : Nat} (v : Byte) (h : s.params.memSize < a + 1) :
    s.memRead1 a = .error .segmentationFault ∧ s.memWrite1 a v = .error .segmentationFault := by
  have hout : ¬ a + 1 ≤ s.params.memSize := Nat.not_le_of_lt h
  exact ⟨(s.memRead1_eq a).trans (if_neg hout), (s.memWrite1_eq a v).trans (if_neg hout)⟩

/-- R53, R54: a word that ends above `MEM_SIZE` is neither read nor written, not even its low byte. -/
theorem State.wordAccess_outOfRange {s : State} {a : Nat} (v : Word) (h : s.params.memSize < a + 2) :
    s.memRead2 a = .error .segmentationFault ∧ s.memWrite2 a v = .error .segmentationFault := by
  have hout : ¬ s.WordInRange a := Nat.not_le_of_lt h
  exact ⟨(s.memRead2_eq a).trans (if_neg hout), (s.memWrite2_eq a v).trans (if_neg hout)⟩

/-- Settles O17: a byte and a word, each by whether the access ends at or below `MEM_SIZE`. -/
theorem memoryAccess : Obligations.MemoryAccess := by
  intro s a b w hwf
  refine ⟨fun hbyte => ?_, fun hword => ?_, State.byteAccess_outOfRange b, State.wordAccess_outOfRange w⟩
  · exact ⟨(s.memRead1_eq a).trans (if_pos hbyte), s.storeByte a b, (s.memWrite1_eq a b).trans (if_pos hbyte),
      State.storeByte_stored a b hwf⟩
  · exact ⟨(s.memRead2_eq a).trans (if_pos hword), s.storeWord a w, (s.memWrite2_eq a w).trans (if_pos hword),
      State.storeWord_stored a w hwf⟩

end Sys2Proof.Machine
end

