-- ==== Sys2Proof/Proofs/Encoding.lean ====
section
/-! SUPPORT. What the decoder answers on encoded operands, on illegal specifier bytes and on unassigned opcodes
(30_encoding.md R82 to R89, R93), what a step does with the answer, and O11, O12, O33. -/

namespace Sys2Proof

/-! ### Specifier bytes -/

/-- R83: the nineteen legal specifier bytes. -/
def legalSpecifiers : List Byte := [0x00, 0x01, 0x02, 0x03, 0x04, 0x05, 0x06, 0x07, 0x10, 0x20, 0x30, 0x31, 0x32, 0x33, 0x34,
  0x35, 0x36, 0x37, 0x40]

theorem specByte_specMode_specReg (s : Byte) : specByte (specMode s) (specReg s) = s :=
  BitVec.extractLsb'_append_extractLsb'_eq_extractLsb' (by decide) |>.trans (by simp)

@[simp] theorem Reg.ofNumber_number (r : Reg) : Reg.ofNumber r.number = some r := by
  cases r <;> rfl

theorem Reg.number_of_ofNumber {n : BitVec 4} {r : Reg} (h : Reg.ofNumber n = some r) : r.number = n := by
  unfold Reg.ofNumber at h
  split at h <;> cases h <;> rfl

/-- R83: modes 0 and 3 are legal with the number of a register. -/
theorem specByte_number_mem_legalSpecifiers (r : Reg) :
    specByte 0 r.number ∈ legalSpecifiers ∧ specByte 3 r.number ∈ legalSpecifiers := by
  cases r <;> decide

/-- R83: modes 1, 2 and 4 are legal with the register field 0. -/
theorem specByte_zero_mem_legalSpecifiers :
    specByte 1 0 ∈ legalSpecifiers ∧ specByte 2 0 ∈ legalSpecifiers ∧ specByte 4 0 ∈ legalSpecifiers := by
  decide

/-! ### One operand -/

@[simp] theorem takeWord_encodeWord (w : Word) (rest : List Byte) : takeWord (encodeWord w ++ rest) = .ok (w, rest) := by
  simp [takeWord, encodeWord]

theorem decodeOperand_encodeMemRef (cls : OperandClass) (m : MemRef) (rest : List Byte) :
    decodeOperand cls (encodeMemRef m ++ rest) = .ok (.mem m, rest) := by
  cases m with
  | abs v => exact congrArg (· >>= _) (takeWord_encodeWord v rest)
  | ind r => cases r <;> rfl
  | fpRel d => exact congrArg (· >>= _) (takeWord_encodeWord d rest)

theorem decodeSrc_encodeSrc (r : Src) (rest : List Byte) : decodeSrc (encodeSrc r ++ rest) = .ok (r, rest) := by
  cases r with
  | reg r => cases r <;> rfl
  | imm v => exact congrArg (· >>= _) (takeWord_encodeWord v rest)
  | mem m => exact decodeOperand_encodeMemRef .src m rest

theorem decodeDst_encodeDst (d : Dst) (rest : List Byte) : decodeDst (encodeDst d ++ rest) = .ok (d, rest) := by
  cases d with
  | reg r => cases r <;> rfl
  | mem m => exact congrArg (· >>= _) (decodeOperand_encodeMemRef .dst m rest)

/-- R83, R87: a specifier byte outside the nineteen is refused before its payload is taken. Mode by mode: were the register
field one that the mode allows, the byte would be legal. -/
theorem decodeOperand_of_not_legal (cls : OperandClass) {b : Byte} (h : b ∉ legalSpecifiers) (rest : List Byte) :
    decodeOperand cls (b :: rest) = .error (.badSpecifier b) := by
  obtain ⟨himm, habs, hfp⟩ := specByte_zero_mem_legalSpecifiers
  have hbyte : ∀ {m r : BitVec 4}, specMode b = m → specReg b = r → specByte m r ∉ legalSpecifiers := by
    rintro _ _ rfl rfl
    rwa [specByte_specMode_specReg]
  unfold decodeOperand
  dsimp only
  split
  next hmode =>
    split
    next => rfl
    next r hr =>
      obtain ⟨hreg, -⟩ := specByte_number_mem_legalSpecifiers r
      exact absurd hreg (hbyte hmode (Reg.number_of_ofNumber hr).symm)
  next hmode => exact if_pos fun hreg => hbyte hmode hreg himm
  next hmode => exact if_pos fun hreg => hbyte hmode hreg habs
  next hmode =>
    split
    next => rfl
    next r hr =>
      obtain ⟨-, hind⟩ := specByte_number_mem_legalSpecifiers r
      exact absurd hind (hbyte hmode (Reg.number_of_ofNumber hr).symm)
  next hmode => exact if_pos fun hreg => hbyte hmode hreg hfp
  next => rfl

theorem decodeDst_of_error {bs : List Byte} {e : DecodeError} (h : decodeOperand .dst bs = .error e) :
    decodeDst bs = .error e :=
  congrArg (· >>= _) h

/-- R84: "in a DST position mode `IMM` is illegal", whatever its payload. -/
theorem decodeDst_immediate (rest : List Byte) : decodeDst (0x10 :: rest) = .error .immediateDestination :=
  decodeDst_of_error rfl

/-- R81: an opcode, one operand and one byte more fit an instruction. -/
theorem length_opcode_src_byte (op : Byte) (a : Src) (b : Byte) : (op :: (encodeSrc a ++ [b])).length ≤ maxInstrBytes := by
  have hsize := Laws.Src.size_range a
  rw [List.length_cons, List.length_append, Laws.length_encodeSrc, List.length_singleton, maxInstrBytes]
  omega

/-- R84: a destination is encoded as the same operand of class SRC. -/
theorem encodeDst_eq_encodeSrc_toSrc (d : Dst) : encodeDst d = encodeSrc d.toSrc := by
  cases d <;> rfl

/-! ### A refused operand refuses the instruction -/

/-- R82: the opcodes whose first operand is a DST. -/
theorem decode_of_dst_error {bs : List Byte} {e : DecodeError} (h : decodeDst bs = .error e) :
    ∀ op ∈ ([0x10, 0x20, 0x21, 0x23, 0x24, 0x41] : List Byte), decode (op :: bs) = .error e := by
  have htwo : ∀ mk, decodeDstSrc mk bs = .error e := fun _ => congrArg (· >>= _) h
  have hone : ∀ mk, decodeOneDst mk bs = .error e := fun _ => congrArg (· >>= _) h
  simp only [List.forall_mem_cons]
  exact ⟨htwo .mov, htwo .add, htwo .sub, hone .inc, hone .dec, hone .pop, nofun⟩

/-- R82: the opcodes whose first operand is a SRC. -/
theorem decode_of_src_error {bs : List Byte} {e : DecodeError} (h : decodeSrc bs = .error e) :
    ∀ op ∈ ([0x22, 0x25, 0x40] : List Byte), decode (op :: bs) = .error e := by
  have htwo : ∀ mk, decodeSrcSrc mk bs = .error e := fun _ => congrArg (· >>= _) h
  have hone : ∀ mk, decodeOneSrc mk bs = .error e := fun _ => congrArg (· >>= _) h
  simp only [List.forall_mem_cons]
  exact ⟨hone .mul, htwo .cmp, hone .push, nofun⟩

/-- R87: the second operand is judged after a legal DST operand. -/
theorem decode_of_second_error (d : Dst) {bs : List Byte} {e : DecodeError} (h : decodeSrc bs = .error e) :
    ∀ op ∈ ([0x10, 0x20, 0x21] : List Byte), decode (op :: (encodeDst d ++ bs)) = .error e := by
  have htwo : ∀ mk, decodeDstSrc mk (encodeDst d ++ bs) = .error e := fun mk => by
    simp [decodeDstSrc, decodeDst_encodeDst, h, bind, Except.bind]
  simp only [List.forall_mem_cons]
  exact ⟨htwo .mov, htwo .add, htwo .sub, nofun⟩

/-- R87: the second operand of `CMP` is judged after a legal SRC operand. -/
theorem decode_cmp_of_second_error (a : Src) {bs : List Byte} {e : DecodeError} (h : decodeSrc bs = .error e) :
    decode (0x25 :: (encodeSrc a ++ bs)) = .error e := by
  show decodeSrcSrc .cmp (encodeSrc a ++ bs) = .error e
  simp [decodeSrcSrc, decodeSrc_encodeSrc, h, bind, Except.bind]

/-- R89: an illegal first specifier, whether its operand is a DST or a SRC. -/
theorem decode_of_not_legal {b : Byte} (h : b ∉ legalSpecifiers) (rest : List Byte) :
    ∀ op ∈ ([0x10, 0x20, 0x21, 0x22, 0x23, 0x24, 0x25, 0x40, 0x41] : List Byte),
      decode (op :: b :: rest) = .error (.badSpecifier b) := by
  intro op hop
  have hclass : op ∈ ([0x10, 0x20, 0x21, 0x23, 0x24, 0x41] : List Byte) ∨ op ∈ ([0x22, 0x25, 0x40] : List Byte) := by
    revert op
    decide
  rcases hclass with hdst | hsrc
  · exact decode_of_dst_error (decodeDst_of_error (decodeOperand_of_not_legal .dst h rest)) op hdst
  · exact decode_of_src_error (decodeOperand_of_not_legal .src h rest) op hsrc

/-! ### Opcodes and syscall numbers -/

/-- R82: the twenty-one opcode bytes. -/
def assignedOpcodes : List Byte := [0x01, 0x10, 0x20, 0x21, 0x22, 0x23, 0x24, 0x25, 0x30, 0x31, 0x32, 0x33, 0x34, 0x35, 0x36,
  0x37, 0x38, 0x39, 0x40, 0x41, 0x50]

/-- R88: an opcode byte outside the table is refused before any other byte. -/
theorem decode_of_unassigned {op : Byte} (h : op ∉ assignedOpcodes) (rest : List Byte) :
    decode (op :: rest) = .error (.badOpcode op) := by
  unfold decode
  dsimp only
  split
  case h_22 => rfl
  all_goals exact absurd (by decide) h

/-- All byte values, in order. -/
def allBytes : List Byte := (List.range 256).map (BitVec.ofNat 8)

theorem mem_allBytes (b : Byte) : b ∈ allBytes :=
  List.mem_map.mpr ⟨b.toNat, List.mem_range.mpr b.isLt, BitVec.ofNat_toNat 8 b |>.trans (BitVec.setWidth_eq b)⟩

theorem nodup_allBytes : allBytes.Nodup := by
  refine List.Nodup.map_on (fun m hm n hn h => ?_) List.nodup_range
  have hmod : m % 256 = n % 256 := congrArg BitVec.toNat h
  rwa [Nat.mod_eq_of_lt (List.mem_range.mp hm), Nat.mod_eq_of_lt (List.mem_range.mp hn)] at hmod

/-- R88: the bytes outside the table are those that the 21 distinct opcodes leave of the 256. -/
theorem length_unassignedOpcodes : (allBytes.filter fun op => decide (op ∉ assignedOpcodes)).length = 235 := by
  have hperm : (assignedOpcodes ++ allBytes.filter fun op => decide (op ∉ assignedOpcodes)).Perm allBytes := by
    refine (List.perm_ext_iff_of_nodup (List.nodup_append'.mpr ⟨by decide, nodup_allBytes.filter _, ?disjoint⟩)
      nodup_allBytes).mpr fun op => ?members
    case disjoint =>
      exact fun op hin hout => of_decide_eq_true (List.mem_filter.mp hout).2 hin
    case members =>
      simp only [List.mem_append, List.mem_filter, mem_allBytes, decide_eq_true_eq, true_and, iff_true]
      exact em _
  have hassigned : assignedOpcodes.length = 21 := rfl
  have hall : allBytes.length = 256 := List.length_map _ |>.trans List.length_range
  have hsum := hperm.length_eq
  rw [List.length_append] at hsum
  omega

theorem decode_syscall (n : Byte) (rest : List Byte) : decode (0x50 :: n :: rest) = .ok (decodeSysno n, rest) := rfl

/-- R93: the twelve assigned numbers. -/
theorem decodeSysno_of_assigned : ∀ p ∈ ([(0x00, .sysAtoi), (0x01, .sysPrintInt), (0x02, .sysPrintChar),
    (0x03, .sysPrintString), (0x04, .sysExit), (0x05, .sysReadFile), (0x06, .sysClearScreen), (0x07, .sysSetColor),
    (0x08, .sysDrawRect), (0x09, .sysDrawCircle), (0x0A, .sysDrawLine), (0x0B, .sysPaintDisplay)] : List (Byte × Instr)),
    decodeSysno p.1 = p.2 := by
  decide

/-- R93: the numbers from `0x0C` on are no named syscall. -/
theorem decodeSysno_of_unassigned {n : Byte} (h : UnassignedSysno n) : decodeSysno n = .syscall n := by
  unfold decodeSysno
  split
  case h_13 => rfl
  all_goals exact absurd h (by decide)

namespace Machine

/-- R181: the dispatch on a number is the meaning of the instruction that the number decodes to. -/
theorem exec_syscall (n : Byte) (s : State) : exec (.syscall n) s = exec (decodeSysno n) s := by
  unfold decodeSysno
  split <;> rfl

/-- R181, R235: an unassigned number fails the step. -/
theorem exec_syscall_of_unassigned {n : Byte} (h : UnassignedSysno n) (s : State) :
    exec (.syscall n) s = .next (s.fail .unknownSyscall) := by
  show execSyscall n s = _
  unfold execSyscall
  split
  case h_13 => exact s.settle_error .unknownSyscall
  all_goals exact absurd h (by decide)

/-! ### Fetch and step -/

theorem State.holdsCode_cons {s : State} {a : Nat} {b : Byte} {bs : List Byte} (h : s.HoldsCode a (b :: bs)) :
    a < s.params.codeEnd ∧ s.byteAt a = b ∧ s.HoldsCode (a + 1) bs := by
  obtain ⟨hlt, hb⟩ := h 0 (Nat.succ_pos _)
  refine ⟨hlt, hb, fun k hk => ?_⟩
  rw [Nat.add_assoc, Nat.add_comm 1 k]
  exact h (k + 1) (Nat.succ_lt_succ hk)

theorem State.holdsCode_singleton {s : State} {a : Nat} (h : a < s.params.codeEnd) : s.HoldsCode a [s.byteAt a] := by
  intro k hk
  obtain rfl : k = 0 := Nat.lt_one_iff.mp hk
  exact ⟨h, rfl⟩

/-- R59: `Fetch8` delivers the code bytes that stand at an address, and then what follows them. -/
theorem State.codeBytes_of_holdsCode {s : State} {bs : List Byte} {a n : Nat} (h : s.HoldsCode a bs) (hn : bs.length ≤ n) :
    s.codeBytes n a = bs ++ s.codeBytes (n - bs.length) (a + bs.length) := by
  induction bs generalizing a n with
  | nil => rfl
  | cons b bs ih =>
    obtain ⟨hlt, hb, htail⟩ := State.holdsCode_cons h
    obtain _ | n := n
    · exact absurd hn (Nat.not_succ_le_zero _)
    · rw [State.codeBytes, if_neg (Nat.not_le_of_lt hlt), hb, ih htail (Nat.le_of_succ_le_succ hn), List.length_cons,
        Nat.add_sub_add_right, Nat.add_right_comm, Nat.add_assoc, List.cons_append]

section
variable {s : State} {bs : List Byte}

/-- R12, R86: a running machine executes what the bytes at `pc` decode to. -/
theorem step_of_decode_ok {i : Instr} (hrun : s.status = .running) (hpar : s.params.consistent = true)
    (hcode : s.HoldsCode s.pc.toNat bs) (hlen : bs.length ≤ maxInstrBytes)
    (hdec : ∀ rest, decode (bs ++ rest) = .ok (i, rest)) : step s = exec i s := by
  have hfetch : s.fetch = .ok i := by rw [State.fetch, State.codeBytes_of_holdsCode hcode hlen, hdec]
  simp [step, hrun, hpar, hfetch]

/-- R86, R236: where the bytes at `pc` are refused, the step of a running machine fails. -/
theorem step_of_decode_error {e : DecodeError} (hrun : s.status = .running) (hpar : s.params.consistent = true)
    (hcode : s.HoldsCode s.pc.toNat bs) (hlen : bs.length ≤ maxInstrBytes)
    (hdec : ∀ rest, decode (bs ++ rest) = .error e) : step s = .next (s.fail (decodeFailure e)) := by
  have hfetch : s.fetch = .error (decodeFailure e) := by rw [State.fetch, State.codeBytes_of_holdsCode hcode hlen, hdec]
  simp [step, hrun, hpar, hfetch]

end

/-! ### The obligations -/

/-- Settles O11: the decoder refuses the byte alone, so the step fails at whatever follows it. -/
theorem unassignedOpcodesAreIllegal : Obligations.UnassignedOpcodesAreIllegal := by
  refine ⟨length_unassignedOpcodes, fun op hop => ⟨decode_of_unassigned hop, fun s hrun hpar hpc hbyte => ?_⟩⟩
  have hcode : s.HoldsCode s.pc.toNat [op] := hbyte ▸ State.holdsCode_singleton hpc
  exact step_of_decode_error hrun hpar hcode (by simp [maxInstrBytes]) (decode_of_unassigned hop)

/-- Settles O12: each clause names the refusal of the decoder, or for an unassigned number the failure of its execution. -/
theorem illegalOperandsAreRefused : Obligations.IllegalOperandsAreRefused := by
  intro s hrun hpar
  refine ⟨fun op hop b hb hcode => ?first, fun op hop hcode => ?immediate, fun op hop d b hb hcode => ?second,
    fun a b hb hcode => ?secondOfCmp, fun n hn hcode => ?sysno⟩
  case first =>
    exact step_of_decode_error hrun hpar hcode (by simp [maxInstrBytes]) fun rest => decode_of_not_legal hb rest op hop
  case immediate =>
    exact step_of_decode_error hrun hpar hcode (by simp [maxInstrBytes]) fun rest =>
      decode_of_dst_error (decodeDst_immediate rest) op hop
  case second =>
    have hlen := encodeDst_eq_encodeSrc_toSrc d ▸ length_opcode_src_byte op d.toSrc b
    refine step_of_decode_error hrun hpar hcode hlen (e := .badSpecifier b) fun rest => ?_
    rw [List.cons_append, List.append_assoc]
    exact decode_of_second_error d (decodeOperand_of_not_legal .src hb rest) op hop
  case secondOfCmp =>
    have hlen := length_opcode_src_byte 0x25 a b
    refine step_of_decode_error hrun hpar hcode hlen (e := .badSpecifier b) fun rest => ?_
    rw [List.cons_append, List.append_assoc]
    exact decode_cmp_of_second_error a (decodeOperand_of_not_legal .src hb rest)
  case sysno =>
    have hdec : ∀ rest, decode ([0x50, n] ++ rest) = .ok (.syscall n, rest) := fun rest =>
      (decode_syscall n rest).trans (by rw [decodeSysno_of_unassigned hn])
    exact (step_of_decode_ok hrun hpar hcode (by simp [maxInstrBytes]) hdec).trans (exec_syscall_of_unassigned hn s)

/-- Settles O33: both clauses follow from the instruction that the number decodes to. -/
theorem syscallDispatch : Obligations.SyscallDispatch := by
  refine ⟨fun n rest s hn => ⟨rfl, ?_, exec_syscall_of_unassigned hn s⟩, fun n i hmem => ?_⟩
  · rw [decode_syscall, decodeSysno_of_unassigned hn]
  · have hsysno : decodeSysno n = i := decodeSysno_of_assigned (n, i) hmem
    exact hsysno ▸ ⟨decode_syscall n, exec_syscall n⟩

end Machine

end Sys2Proof
end

