-- ==== Sys2Proof/Proofs/Move.lean ====
section
/-! SUPPORT. What `MOV` does, with both operands in range and with one out of it (40_data_movement.md R120), and O18. -/

namespace Sys2Proof.Machine

/-! ### The state that `MOV` leaves -/

/-- R120: the state after a `MOV` whose operands are in range. Both the source word and the address of the destination are
those of the state before it. -/
def State.moved (s : State) (d : Dst) (r : Src) : State :=
  (s.putDst d (s.srcWord r)).advance (Instr.mov d r).length

/-- R120: the destination holds the source word, and no other register or byte changes. -/
theorem State.written_moved {s : State} (d : Dst) (r : Src) (hwf : s.mem.wf = true) :
    s.Written (s.moved d r) d (s.srcWord r) :=
  (State.written_putDst d (s.srcWord r) hwf).of_eq (State.advance_regs _ _) (State.advance_mem _ _)

/-- R120: no flag is written, `pc` moves past the instruction, and nothing outside the execution engine changes. -/
theorem State.moved_other (s : State) (d : Dst) (r : Src) :
    (s.moved d r).flags = s.flags ∧ s.PastInstr (s.moved d r) (.mov d r) ∧ s.SameOutside (s.moved d r) := by
  obtain ⟨hpc, hflags, hstatus, houtside⟩ := s.putDst_other d (s.srcWord r)
  have hnext : (s.moved d r).pc = wrap16 (s.pc.toNat + (Instr.mov d r).length) := by
    rw [State.moved, State.advance_pc, hpc]
  exact ⟨hflags, ⟨hnext, hstatus⟩, houtside⟩

/-! ### What `MOV` answers -/

/-- R120, all that `MOV` can do: the source is read first, then the destination is written. -/
theorem exec_mov_cases (d : Dst) (r : Src) (s : State) :
    (s.SrcInRange r ∧ s.DstInRange d ∧ exec (.mov d r) s = .next (s.moved d r)) ∨
    ((¬ s.SrcInRange r ∨ ¬ s.DstInRange d) ∧ exec (.mov d r) s = .next (s.fail .segmentationFault)) := by
  show (_ ∧ _ ∧ execMov d r s = _) ∨ (_ ∧ execMov d r s = _)
  by_cases hr : s.SrcInRange r
  · by_cases hd : s.DstInRange d
    · refine .inl ⟨hr, hd, ?_⟩
      simp only [execMov, State.readSrc_inRange hr, State.writeDst_inRange _ hd, bind, Except.bind, State.settle_ok,
        State.moved]
    · refine .inr ⟨.inr hd, ?_⟩
      simp only [execMov, State.readSrc_inRange hr, State.writeDst_outOfRange _ hd, bind, Except.bind, State.settle_error]
  · refine .inr ⟨.inl hr, ?_⟩
    simp only [execMov, State.readSrc_outOfRange hr, bind, Except.bind, State.settle_error]

theorem exec_mov_inRange {d : Dst} {r : Src} {s : State} (hr : s.SrcInRange r) (hd : s.DstInRange d) :
    exec (.mov d r) s = .next (s.moved d r) := by
  rcases exec_mov_cases d r s with ⟨-, -, hexec⟩ | ⟨hout, -⟩
  · exact hexec
  · exact absurd hout (not_or.mpr ⟨not_not_intro hr, not_not_intro hd⟩)

theorem exec_mov_outOfRange {d : Dst} {r : Src} {s : State} (hout : ¬ s.SrcInRange r ∨ ¬ s.DstInRange d) :
    exec (.mov d r) s = .next (s.fail .segmentationFault) := by
  rcases exec_mov_cases d r s with ⟨hr, hd, -⟩ | ⟨-, hexec⟩
  · exact absurd hout (not_or.mpr ⟨not_not_intro hr, not_not_intro hd⟩)
  · exact hexec

/-- Settles O18: with both operands in range the next state is `State.moved`, otherwise the step fails. -/
theorem movCopiesWord : Obligations.MovCopiesWord := by
  intro d r s
  refine ⟨rfl, fun hwf hr hd => ?_, fun hout => exec_mov_outOfRange hout⟩
  exact ⟨s.moved d r, exec_mov_inRange hr hd, State.written_moved d r hwf, s.moved_other d r⟩

end Sys2Proof.Machine
end

