-- ==== Sys2Proof/Proofs/Flags.lean ====
section
/-! SUPPORT. The flag laws read on exact signed values (41_arithmetic_compare.md R130, R131, R134), and O14 and O15. -/

namespace Sys2Proof

/-! ### Words read as signed -/

/-- R25: bit 15 is the sign bit. -/
theorem getLsbD_fifteen (w : Word) : w.getLsbD 15 = w.msb :=
  (BitVec.msb_eq_getLsbD_last w).symm

/-- R134: a product has one truncation, whether its factors are read as signed or as unsigned. -/
theorem wrap16_toInt_mul (a b : Word) : wrap16 (a.toInt * b.toInt) = a * b := by
  rw [wrap16, BitVec.ofInt_mul, BitVec.ofInt_toInt, BitVec.ofInt_toInt]

/-- An exact sum leaves the signed range just where Lean's `saddOverflow` says so. -/
theorem saddOverflow_iff (a b : Word) :
    a.saddOverflow b = true ↔ a.toInt + b.toInt < -32768 ∨ 32767 < a.toInt + b.toInt := by
  simp only [BitVec.saddOverflow, Bool.or_eq_true, decide_eq_true_eq]
  omega

/-- An exact difference leaves the signed range just where Lean's `ssubOverflow` says so. -/
theorem ssubOverflow_iff (a b : Word) :
    a.ssubOverflow b = true ↔ a.toInt - b.toInt < -32768 ∨ 32767 < a.toInt - b.toInt := by
  simp only [BitVec.ssubOverflow, Bool.or_eq_true, decide_eq_true_eq]
  omega

namespace Machine

/-! ### The addition law -/

theorem addFlags_zf_iff (a b : Word) : (addFlags a b).flags.zf = true ↔ (addFlags a b).result = 0 :=
  beq_iff_eq

theorem addFlags_nf (a b : Word) : (addFlags a b).flags.nf = (addFlags a b).result.getLsbD 15 :=
  (getLsbD_fifteen _).symm

/-- R130: `VF` by the signs of the operands and of the result. -/
theorem addFlags_vf_iff_signs (a b : Word) :
    (addFlags a b).flags.vf = true ↔
      a.getLsbD 15 = b.getLsbD 15 ∧ (addFlags a b).result.getLsbD 15 ≠ a.getLsbD 15 := by
  simp only [getLsbD_fifteen, addFlags, Bool.and_eq_true, beq_iff_eq, bne_iff_ne]

theorem addFlags_vf (a b : Word) : (addFlags a b).flags.vf = a.saddOverflow b := by
  rw [BitVec.saddOverflow_eq, ← addFlags_result]
  rfl

/-- Settles O14: `VF` is the overflow of signed addition, which its two readings describe. -/
theorem additionFlags : Obligations.AdditionFlags := by
  intro a b
  have hresult : (addFlags a b).result.toNat = (a.toNat + b.toNat) % 65536 := by
    rw [addFlags_result, BitVec.toNat_add]
  have hexact : (addFlags a b).flags.vf = true ↔ a.toInt + b.toInt < -32768 ∨ 32767 < a.toInt + b.toInt := by
    rw [addFlags_vf, saddOverflow_iff]
  exact ⟨hresult, addFlags_zf_iff a b, addFlags_nf a b, addFlags_vf_iff_signs a b, hexact⟩

/-! ### The subtraction law -/

theorem subFlags_zf_iff (a b : Word) : (subFlags a b).flags.zf = true ↔ (subFlags a b).result = 0 :=
  beq_iff_eq

/-- R131: a difference is zero just for equal words. -/
theorem subFlags_zf_iff_eq (a b : Word) : (subFlags a b).flags.zf = true ↔ a = b := by
  rw [subFlags_zf_iff, subFlags_result]
  exact sub_eq_zero

theorem subFlags_nf (a b : Word) : (subFlags a b).flags.nf = (subFlags a b).result.getLsbD 15 :=
  (getLsbD_fifteen _).symm

/-- R131: `VF` by the signs of the operands and of the result. -/
theorem subFlags_vf_iff_signs (a b : Word) :
    (subFlags a b).flags.vf = true ↔
      a.getLsbD 15 ≠ b.getLsbD 15 ∧ (subFlags a b).result.getLsbD 15 ≠ a.getLsbD 15 := by
  simp only [getLsbD_fifteen, subFlags, Bool.and_eq_true, bne_iff_ne]

theorem subFlags_vf (a b : Word) : (subFlags a b).flags.vf = a.ssubOverflow b := by
  have hvf : (subFlags a b).flags.vf = (a.msb != b.msb && (a - b).msb != a.msb) := by
    rw [← subFlags_result]
    rfl
  rw [hvf, BitVec.ssubOverflow_eq]
  cases a.msb <;> cases b.msb <;> simp

/-- R131: `VF` by the exact signed difference. -/
theorem subFlags_vf_iff_exact (a b : Word) :
    (subFlags a b).flags.vf = true ↔ a.toInt - b.toInt < -32768 ∨ 32767 < a.toInt - b.toInt := by
  rw [subFlags_vf, ssubOverflow_iff]

/-- R131: without overflow the result is the exact difference and has its sign. With overflow it has the other sign, for it
differs from the exact difference by 65536. -/
theorem subFlags_nf_ne_vf_iff (a b : Word) :
    (subFlags a b).flags.nf ≠ (subFlags a b).flags.vf ↔ a.toInt < b.toInt := by
  have hnf : (subFlags a b).flags.nf = true ↔ (a.toInt - b.toInt).bmod 65536 < 0 := by
    rw [subFlags_nf, getLsbD_fifteen, subFlags_result, BitVec.msb_eq_toInt, decide_eq_true_eq, BitVec.toInt_sub]
  have ha := a.le_toInt
  have ha' := a.toInt_lt
  have hb := b.le_toInt
  have hb' := b.toInt_lt
  rw [ne_eq, Bool.eq_iff_iff, hnf, subFlags_vf_iff_exact, Int.bmod_def]
  by_cases hover : a.toInt - b.toInt < -32768 ∨ 32767 < a.toInt - b.toInt
  · rw [iff_true_right hover]
    omega
  · rw [iff_false_right hover, not_not]
    omega

/-- Settles O15: `VF` is the overflow of signed subtraction, and `NF` the sign of the wrapped difference. -/
theorem subtractionFlags : Obligations.SubtractionFlags := by
  intro a b
  have hresult : ((subFlags a b).result.toNat : Int) = ((a.toNat : Int) - b.toNat) % 65536 := by
    rw [subFlags_result, ← wrap16_sub, wrap16, BitVec.toNat_ofInt]
    omega
  exact ⟨hresult, subFlags_zf_iff a b, subFlags_zf_iff_eq a b, subFlags_nf a b, subFlags_vf_iff_signs a b,
    subFlags_vf_iff_exact a b, subFlags_nf_ne_vf_iff a b⟩

end Machine

end Sys2Proof
end

