-- ==== Sys2Proof/Proofs/Arith.lean ====
section
/-! SUPPORT. What `ADD`, `SUB`, `INC`, `DEC`, `MUL` and `CMP` do, with their operands in range and with one out of it
(41_arithmetic_compare.md R132 to R137), and O19 to O22. -/

namespace Sys2Proof.Machine

/-! ### `ADD`, `SUB`, `INC`, `DEC` -/

/-- R132, R133, R135, R136: the instruction `i` combines the destination `d` with the source `r` by the law `f`, and then
moves `pc` past itself. -/
def Combines (i : Instr) (f : Word → Word → AluOut) (d : Dst) (r : Src) : Prop :=
  ∀ s : State, exec i s = s.settle do
    let t ← s.combineInto f d r
    .ok (t.advance i.length)

theorem add_combines (d : Dst) (r : Src) : Combines (.add d r) addFlags d r := fun _ => rfl

theorem sub_combines (d : Dst) (r : Src) : Combines (.sub d r) subFlags d r := fun _ => rfl

/-- R135: "exactly as `ADD dst, 1` would". -/
theorem inc_combines (d : Dst) : Combines (.inc d) addFlags d (.imm 1) := fun _ => rfl

/-- R136: "exactly as `SUB dst, 1` would". -/
theorem dec_combines (d : Dst) : Combines (.dec d) subFlags d (.imm 1) := fun _ => rfl

/-- The state after an instruction that combines two operands in range. -/
def State.combined (s : State) (i : Instr) (f : Word → Word → AluOut) (d : Dst) (r : Src) : State :=
  ((s.putDst d (f (s.dstWord d) (s.srcWord r)).result).setFlags (f (s.dstWord d) (s.srcWord r)).flags).advance i.length

/-- R92: the destination holds the result, and no other register or byte changes. -/
theorem State.written_combined {s : State} (i : Instr) (f : Word → Word → AluOut) (d : Dst) (r : Src)
    (hwf : s.mem.wf = true) : s.Written (s.combined i f d r) d (f (s.dstWord d) (s.srcWord r)).result :=
  (State.written_putDst d _ hwf).of_eq (State.advance_regs _ _) (State.advance_mem _ _)

/-- The three flags are those of the law, `pc` moves past the instruction, and nothing outside the execution engine changes. -/
theorem State.combined_other (s : State) (i : Instr) (f : Word → Word → AluOut) (d : Dst) (r : Src) :
    (s.combined i f d r).flags = (f (s.dstWord d) (s.srcWord r)).flags ∧ s.PastInstr (s.combined i f d r) i ∧
      s.SameOutside (s.combined i f d r) := by
  obtain ⟨hpc, -, hstatus, houtside⟩ := s.putDst_other d (f (s.dstWord d) (s.srcWord r)).result
  have hnext : (s.combined i f d r).pc = wrap16 (s.pc.toNat + i.length) := by
    rw [State.combined, State.advance_pc, State.setFlags_pc, hpc]
  exact ⟨rfl, ⟨hnext, hstatus⟩, houtside⟩

section
variable {i : Instr} {f : Word → Word → AluOut} {d : Dst} {r : Src} {s : State}

/-- All that an instruction that combines two operands can do. -/
theorem Combines.exec_cases (hi : Combines i f d r) (s : State) :
    (s.DstInRange d ∧ s.SrcInRange r ∧ exec i s = .next (s.combined i f d r)) ∨
    ((¬ s.DstInRange d ∨ ¬ s.SrcInRange r) ∧ exec i s = .next (s.fail .segmentationFault)) := by
  rcases s.combineInto_cases f d r with ⟨hd, hr, hok⟩ | ⟨hout, herror⟩
  · exact .inl ⟨hd, hr, by rw [hi s, hok]; rfl⟩
  · exact .inr ⟨hout, by rw [hi s, herror]; rfl⟩

theorem Combines.exec_inRange (hi : Combines i f d r) (hwf : s.mem.wf = true) (hr : s.SrcInRange r)
    (hd : s.DstInRange d) :
    ∃ t, exec i s = .next t ∧ s.Written t d (f (s.dstWord d) (s.srcWord r)).result ∧
      t.flags = (f (s.dstWord d) (s.srcWord r)).flags ∧ s.PastInstr t i ∧ s.SameOutside t := by
  rcases hi.exec_cases s with ⟨-, -, hexec⟩ | ⟨hout, -⟩
  · exact ⟨s.combined i f d r, hexec, State.written_combined i f d r hwf, s.combined_other i f d r⟩
  · exact (hout.elim (· hd) (· hr)).elim

theorem Combines.exec_outOfRange (hi : Combines i f d r) (hout : ¬ s.SrcInRange r ∨ ¬ s.DstInRange d) :
    exec i s = .next (s.fail .segmentationFault) := by
  rcases hi.exec_cases s with ⟨hd, hr, -⟩ | ⟨-, hexec⟩
  · exact (hout.elim (· hr) (· hd)).elim
  · exact hexec

end

/-- Settles O19: both instructions combine their operands, by the addition and by the subtraction law. -/
theorem addAndSubCombine : Obligations.AddAndSubCombine := by
  intro d r s
  refine ⟨rfl, rfl, fun hwf hr hd => ⟨?add, ?sub⟩, fun hout => ?fails⟩
  case add => exact addFlags_result _ _ ▸ (add_combines d r).exec_inRange hwf hr hd
  case sub => exact subFlags_result _ _ ▸ (sub_combines d r).exec_inRange hwf hr hd
  case fails => exact ⟨(add_combines d r).exec_outOfRange hout, (sub_combines d r).exec_outOfRange hout⟩

/-- Settles O20: `INC` and `DEC` combine the destination with the immediate 1, which is always in range. -/
theorem incAndDecByOne : Obligations.IncAndDecByOne := by
  intro d s
  refine ⟨rfl, rfl, fun hwf hd => ⟨?inc, ?dec⟩, fun hout => ?fails⟩
  case inc => exact addFlags_result _ _ ▸ (inc_combines d).exec_inRange hwf trivial hd
  case dec => exact subFlags_result _ _ ▸ (dec_combines d).exec_inRange hwf trivial hd
  case fails => exact ⟨(inc_combines d).exec_outOfRange (.inr hout), (dec_combines d).exec_outOfRange (.inr hout)⟩

/-! ### `MUL` -/

theorem mulFlags_result (a b : Word) : (mulFlags a b).result = a * b := wrap16_toInt_mul a b

theorem mulFlags_zf_iff (a b : Word) : (mulFlags a b).flags.zf = true ↔ (mulFlags a b).result = 0 :=
  beq_iff_eq

theorem mulFlags_nf (a b : Word) : (mulFlags a b).flags.nf = (mulFlags a b).result.getLsbD 15 :=
  (getLsbD_fifteen _).symm

/-- R134: `VF` by the exact signed product. -/
theorem mulFlags_vf_iff (a b : Word) :
    (mulFlags a b).flags.vf = true ↔ a.toInt * b.toInt < -32768 ∨ 32767 < a.toInt * b.toInt :=
  decide_eq_true_iff

/-- R134: the state after a `MUL` whose source is in range. -/
def State.multiplied (s : State) (r : Src) : State :=
  ((s.setReg .ax (mulFlags (s.reg .ax) (s.srcWord r)).result).setFlags
    (mulFlags (s.reg .ax) (s.srcWord r)).flags).advance (Instr.mul r).length

theorem State.multiplied_ax (s : State) (r : Src) :
    (s.multiplied r).reg .ax = (mulFlags (s.reg .ax) (s.srcWord r)).result := rfl

theorem State.multiplied_flags (s : State) (r : Src) :
    (s.multiplied r).flags = (mulFlags (s.reg .ax) (s.srcWord r)).flags := rfl

/-- R134: what `MUL` leaves alone. -/
theorem State.multiplied_other (s : State) (r : Src) :
    s.SameRegsBut (s.multiplied r) [.ax] ∧ s.SameBytes (s.multiplied r) ∧ s.PastInstr (s.multiplied r) (.mul r) ∧
      s.SameOutside (s.multiplied r) := by
  have hregs : s.SameRegsBut (s.multiplied r) [.ax] := fun q hq =>
    State.reg_setReg_ne s _ (List.ne_of_not_mem_cons hq)
  exact ⟨hregs, fun _ => rfl, ⟨rfl, rfl⟩, rfl, rfl, rfl, rfl, rfl, rfl⟩

theorem exec_mul_inRange {r : Src} {s : State} (hr : s.SrcInRange r) : exec (.mul r) s = .next (s.multiplied r) := by
  show execMul r s = _
  rw [execMul, State.readSrc_inRange hr]
  rfl

theorem exec_mul_outOfRange {r : Src} {s : State} (hr : ¬ s.SrcInRange r) :
    exec (.mul r) s = .next (s.fail .segmentationFault) := by
  show execMul r s = _
  rw [execMul, State.readSrc_outOfRange hr]
  rfl

/-- Settles O21: the next state is `State.multiplied`, its `AX` and flags those of the multiplication law. -/
theorem mulMultipliesAccumulator : Obligations.MulMultipliesAccumulator := by
  intro r s
  refine ⟨rfl, fun hr => ⟨s.multiplied r, exec_mul_inRange hr, ?_⟩, exec_mul_outOfRange⟩
  obtain ⟨hregs, hbytes, hpast, houtside⟩ := s.multiplied_other r
  have hunsigned : ((s.multiplied r).reg .ax).toNat = (s.reg .ax).toNat * (s.srcWord r).toNat % 65536 := by
    rw [State.multiplied_ax, mulFlags_result, BitVec.toNat_mul]
  rw [State.multiplied_flags]
  exact ⟨rfl, hunsigned, hregs, hbytes, mulFlags_zf_iff _ _, mulFlags_nf _ _, mulFlags_vf_iff _ _, hpast, houtside⟩

/-! ### `CMP` -/

/-- R137: the state after a `CMP` whose operands are in range. -/
def State.compared (s : State) (a b : Src) : State :=
  (s.setFlags (subFlags (s.srcWord a) (s.srcWord b)).flags).advance (Instr.cmp a b).length

/-- R137, all that `CMP` can do: `a` is read first, then `b`. -/
theorem exec_cmp_cases (a b : Src) (s : State) :
    (s.SrcInRange a ∧ s.SrcInRange b ∧ exec (.cmp a b) s = .next (s.compared a b)) ∨
    ((¬ s.SrcInRange a ∨ ¬ s.SrcInRange b) ∧ exec (.cmp a b) s = .next (s.fail .segmentationFault)) := by
  show (_ ∧ _ ∧ execCmp a b s = _) ∨ (_ ∧ execCmp a b s = _)
  rcases s.readSrc_cases a with ⟨ha, hreadA⟩ | ⟨ha, hreadA⟩
  · rcases s.readSrc_cases b with ⟨hb, hreadB⟩ | ⟨hb, hreadB⟩
    · exact .inl ⟨ha, hb, by rw [execCmp, hreadA, hreadB]; rfl⟩
    · exact .inr ⟨.inr hb, by rw [execCmp, hreadA, hreadB]; rfl⟩
  · exact .inr ⟨.inl ha, by rw [execCmp, hreadA]; rfl⟩

/-- Settles O22: with both operands in range the next state is `State.compared`, otherwise the step fails. -/
theorem cmpSetsFlagsOnly : Obligations.CmpSetsFlagsOnly := by
  intro a b s
  rcases exec_cmp_cases a b s with ⟨ha, hb, hexec⟩ | ⟨hout, hexec⟩
  · exact ⟨rfl, fun _ _ => hexec, fun hout => (hout.elim (· ha) (· hb)).elim⟩
  · exact ⟨rfl, fun ha hb => (hout.elim (· ha) (· hb)).elim, fun _ => hexec⟩

end Sys2Proof.Machine
end

