-- ==== Sys2Proof/Proofs/Control.lean ====
section
/-! SUPPORT. What a push leaves in the state (20_memory.md R62), what `JMP`, the conditional jumps, `LOOP`, `CALL` and `RET` do
(42_control_transfer.md R151 to R160), and O23 to O27. -/

namespace Sys2Proof.Machine

/-! ### The state after a push -/

/-- R62: the state after a push of `v` that stays in the stack region. -/
def State.pushed (s : State) (v : Word) : State :=
  (s.storeWord s.pushAddr v).setReg .sp (BitVec.ofNat 16 s.pushAddr)

/-- R62: the address of a push as a number. Below `SP = 2` it wraps. -/
theorem State.pushAddr_eq (s : State) : s.pushAddr = ((s.reg .sp).toNat + 65534) % 65536 := by
  show (s.reg .sp - 2).toNat = _
  rw [BitVec.toNat_sub, Nat.add_comm]
  rfl

/-- R62: `SP` holds the address of the pushed word. -/
theorem State.pushed_sp_toNat (s : State) (v : Word) : ((s.pushed v).reg .sp).toNat = s.pushAddr := by
  have haddr : s.pushAddr < 65536 := BitVec.isLt _
  rw [State.pushed, State.reg_setReg_self, BitVec.toNat_ofNat, Nat.mod_eq_of_lt haddr]

/-- R62: a push writes no register but `SP`. -/
theorem State.sameRegsBut_pushed (s : State) (v : Word) : s.SameRegsBut (s.pushed v) [.sp] := fun _ hq =>
  State.reg_setReg_ne _ _ (List.ne_of_not_mem_cons hq)

/-- R50, R62: the pushed word stands at `pushAddr`, low byte first, and no other byte changes. -/
theorem State.pushed_bytes {s : State} (v : Word) (hwf : s.mem.wf = true) :
    (s.pushed v).byteAt s.pushAddr = loByte v ∧ (s.pushed v).byteAt (s.pushAddr + 1) = hiByte v ∧
      s.SameBytesBut (s.pushed v) s.pushAddr 2 :=
  ⟨State.byteAt_storeWord_lo _ v hwf, State.byteAt_storeWord_hi _ v hwf, s.sameBytesBut_storeWord _ v⟩

/-- R62: what a push leaves alone, besides registers and memory. -/
theorem State.pushed_other (s : State) (v : Word) :
    (s.pushed v).pc = s.pc ∧ (s.pushed v).flags = s.flags ∧ (s.pushed v).status = s.status ∧ s.SameOutside (s.pushed v) :=
  ⟨rfl, rfl, rfl, rfl, rfl, rfl, rfl, rfl, rfl⟩

/-! ### `JMP` -/

/-- Settles O23: the rule of `JMP` is one write of `pc`. -/
theorem jmpSetsPc : Obligations.JmpSetsPc :=
  fun _ _ => ⟨rfl, rfl⟩

/-! ### The conditional jumps -/

/-- 42_control_transfer.md section 2.1: the instruction `i` goes to `target` under the condition `cond` on the flags. -/
def JumpsWhen (i : Instr) (target : Word) (cond : Flags → Bool) : Prop :=
  ∀ s : State, exec i s = .next (s.jumpIf (cond s.flags) target)

theorem je_jumpsWhen (target : Word) : JumpsWhen (.je target) target Flags.condE := fun _ => rfl

theorem jne_jumpsWhen (target : Word) : JumpsWhen (.jne target) target Flags.condNE := fun _ => rfl

theorem jl_jumpsWhen (target : Word) : JumpsWhen (.jl target) target Flags.condL := fun _ => rfl

theorem jle_jumpsWhen (target : Word) : JumpsWhen (.jle target) target Flags.condLE := fun _ => rfl

theorem jg_jumpsWhen (target : Word) : JumpsWhen (.jg target) target Flags.condG := fun _ => rfl

theorem jge_jumpsWhen (target : Word) : JumpsWhen (.jge target) target Flags.condGE := fun _ => rfl

/-- A conditional transfer writes `pc` only, to its target or past its three bytes. -/
theorem State.jumpIf_eq_of_iff (s : State) {c : Bool} {p : Prop} [Decidable p] (hc : c = true ↔ p) (target : Word) :
    s.jumpIf c target = { s with pc := if p then target else wrap16 (s.pc.toNat + 3) } := by
  by_cases hp : p
  · rw [if_pos hp, hc.mpr hp]
    rfl
  · rw [if_neg hp, Bool.eq_false_iff.mpr fun h => hp (hc.mp h)]
    rfl

/-- The next state of a conditional jump, its condition on the flags stated as a proposition. -/
theorem JumpsWhen.exec_eq {i : Instr} {target : Word} {cond : Flags → Bool} (hi : JumpsWhen i target cond) {s : State}
    {p : Prop} [Decidable p] (hp : cond s.flags = true ↔ p) :
    exec i s = .next { s with pc := if p then target else wrap16 (s.pc.toNat + 3) } := by
  rw [hi s, s.jumpIf_eq_of_iff hp]

/-! ### The conditions as propositions on the flags (R152 to R157) -/

theorem Flags.condE_iff (f : Flags) : f.condE = true ↔ f.zf = true := Iff.rfl

theorem Flags.condNE_iff (f : Flags) : f.condNE = true ↔ f.zf = false := by
  rw [Flags.condNE, Bool.not_eq_true']

theorem Flags.condL_iff (f : Flags) : f.condL = true ↔ f.nf ≠ f.vf := bne_iff_ne

theorem Flags.condLE_iff (f : Flags) : f.condLE = true ↔ f.zf = true ∨ f.nf ≠ f.vf := by
  rw [Flags.condLE, Bool.or_eq_true, bne_iff_ne]

theorem Flags.condG_iff (f : Flags) : f.condG = true ↔ f.zf = false ∧ f.nf = f.vf := by
  rw [Flags.condG, Bool.and_eq_true, Bool.not_eq_true', beq_iff_eq]

theorem Flags.condGE_iff (f : Flags) : f.condGE = true ↔ f.nf = f.vf := beq_iff_eq

/-- R155, R156: `JG` is taken just where `JLE` is not. -/
theorem Flags.condG_eq_not_condLE (f : Flags) : f.condG = !f.condLE := by
  rw [Flags.condG, Flags.condLE, Bool.not_or, bne, Bool.not_not]

/-! ### The conditions on the flags of a difference

`ZF` is equality and `NF != VF` is the signed order (R131), so each condition is one relation of the compared words. -/

theorem condE_subFlags_iff (a b : Word) : (subFlags a b).flags.condE = true ↔ a = b :=
  subFlags_zf_iff_eq a b

theorem condNE_subFlags_iff (a b : Word) : (subFlags a b).flags.condNE = true ↔ a ≠ b := by
  rw [Flags.condNE_iff, ← Bool.not_eq_true, subFlags_zf_iff_eq]

theorem condL_subFlags_iff (a b : Word) : (subFlags a b).flags.condL = true ↔ a.toInt < b.toInt := by
  rw [Flags.condL_iff, subFlags_nf_ne_vf_iff]

theorem condLE_subFlags_iff (a b : Word) : (subFlags a b).flags.condLE = true ↔ a.toInt ≤ b.toInt := by
  rw [Flags.condLE_iff, subFlags_zf_iff_eq, subFlags_nf_ne_vf_iff, ← BitVec.toInt_inj]
  omega

theorem condG_subFlags_iff (a b : Word) : (subFlags a b).flags.condG = true ↔ b.toInt < a.toInt := by
  rw [Flags.condG_eq_not_condLE, Bool.not_eq_true', ← Bool.not_eq_true, condLE_subFlags_iff, not_le]

theorem condGE_subFlags_iff (a b : Word) : (subFlags a b).flags.condGE = true ↔ b.toInt ≤ a.toInt := by
  rw [Flags.condGE_iff, ← not_lt, ← subFlags_nf_ne_vf_iff, not_not]

/-- R137: the flags that a `CMP` with operands in range leaves. -/
theorem flags_of_exec_cmp {a b : Src} {s t : State} (ha : s.SrcInRange a) (hb : s.SrcInRange b)
    (hexec : exec (.cmp a b) s = .next t) : t.flags = (subFlags (s.srcWord a) (s.srcWord b)).flags := by
  rcases exec_cmp_cases a b s with ⟨-, -, hcompared⟩ | ⟨hout, -⟩
  · cases hexec.symm.trans hcompared
    rfl
  · exact (hout.elim (· ha) (· hb)).elim

/-- Settles O24: the conditions as the rules write them, and what they say of the flags of a difference. -/
theorem conditionalJumps : Obligations.ConditionalJumps := by
  refine ⟨fun target s => ?onFlags, fun target a b s t ha hb hexec => ?afterCmp⟩
  case onFlags =>
    exact ⟨rfl, rfl, rfl, rfl, rfl, rfl,
      (je_jumpsWhen target).exec_eq s.flags.condE_iff, (jne_jumpsWhen target).exec_eq s.flags.condNE_iff,
      (jl_jumpsWhen target).exec_eq s.flags.condL_iff, (jle_jumpsWhen target).exec_eq s.flags.condLE_iff,
      (jg_jumpsWhen target).exec_eq s.flags.condG_iff, (jge_jumpsWhen target).exec_eq s.flags.condGE_iff⟩
  case afterCmp =>
    have hflags := flags_of_exec_cmp ha hb hexec
    exact ⟨(je_jumpsWhen target).exec_eq (hflags ▸ condE_subFlags_iff _ _),
      (jne_jumpsWhen target).exec_eq (hflags ▸ condNE_subFlags_iff _ _),
      (jl_jumpsWhen target).exec_eq (hflags ▸ condL_subFlags_iff _ _),
      (jle_jumpsWhen target).exec_eq (hflags ▸ condLE_subFlags_iff _ _),
      (jg_jumpsWhen target).exec_eq (hflags ▸ condG_subFlags_iff _ _),
      (jge_jumpsWhen target).exec_eq (hflags ▸ condGE_subFlags_iff _ _)⟩

/-! ### `LOOP` -/

/-- R158: the state after a `LOOP`. The test is on the new value of `CX`. -/
def State.looped (s : State) (target : Word) : State :=
  (s.setReg .cx (s.reg .cx - 1)).jumpIf (s.reg .cx - 1 != 0) target

theorem exec_loop (target : Word) (s : State) : exec (.loop target) s = .next (s.looped target) := by
  have hcx : wrap16 ((s.regs.cx.toNat : Int) - 1) = s.reg .cx - 1 := wrap16_sub s.regs.cx 1
  show execLoop target s = _
  rw [execLoop, hcx]
  rfl

theorem State.looped_cx (s : State) (target : Word) : (s.looped target).reg .cx = s.reg .cx - 1 := by
  rw [State.looped, State.reg_eq_of_regs (State.jumpIf_regs _ _ _), State.reg_setReg_self]

/-- R158: `LOOP` branches unless the new `CX` is 0. -/
theorem State.looped_pc (s : State) (target : Word) :
    (s.looped target).pc = if s.reg .cx - 1 = 0 then wrap16 (s.pc.toNat + 3) else target := by
  rw [State.looped, State.jumpIf_eq_of_iff _ bne_iff_ne, ite_not]
  rfl

/-- R158: a `LOOP` writes no register but `CX`, and no byte. -/
theorem State.looped_storage (s : State) (target : Word) :
    s.SameRegsBut (s.looped target) [.cx] ∧ s.SameBytes (s.looped target) := by
  have hregs : s.SameRegsBut (s.looped target) [.cx] := fun q hq => by
    rw [State.looped, State.reg_eq_of_regs (State.jumpIf_regs _ _ _), State.reg_setReg_ne _ _ (List.ne_of_not_mem_cons hq)]
  exact ⟨hregs, State.byteAt_eq_of_mem (State.jumpIf_mem _ _ _)⟩

/-- R158: what a `LOOP` leaves alone, besides registers and memory. -/
theorem State.looped_other (s : State) (target : Word) :
    (s.looped target).flags = s.flags ∧ (s.looped target).status = s.status ∧ s.SameOutside (s.looped target) := by
  simp [State.looped, State.SameOutside]

/-- Settles O25: the next state is `State.looped`; from `CX = 0` the new value is `0xFFFF`, which is not 0. -/
theorem loopDecrementsAndBranches : Obligations.LoopDecrementsAndBranches := by
  intro target s
  refine ⟨rfl, s.looped target, exec_loop target s, s.looped_cx target, ?_⟩
  obtain ⟨hregs, hbytes⟩ := s.looped_storage target
  obtain ⟨hflags, hstatus, houtside⟩ := s.looped_other target
  rw [State.looped_cx, State.looped_pc]
  refine ⟨hregs, hbytes, hflags, hstatus, houtside, fun hne => if_neg hne, fun hz => if_pos hz, fun hzero => ?fromZero⟩
  case fromZero =>
    rw [hzero]
    exact ⟨rfl, if_neg (by decide)⟩

/-! ### `CALL` -/

/-- R159: the state after a `CALL` that pushes inside the stack region. -/
def State.called (s : State) (target : Word) : State :=
  (s.pushed (wrap16 (s.pc.toNat + 3))).jump target

/-- R159, all that `CALL` can do. -/
theorem exec_call_cases (target : Word) (s : State) :
    (s.CanPush ∧ exec (.call target) s = .next (s.called target)) ∨
    (¬ s.CanPush ∧ exec (.call target) s = .next (s.fail .segmentationFault)) := by
  show (_ ∧ execCall target s = _) ∨ (_ ∧ execCall target s = _)
  rcases s.push_cases (wrap16 (s.pc.toNat + 3)) with ⟨hcan, hpush⟩ | ⟨hcannot, hpush⟩
  · exact .inl ⟨hcan, by rw [execCall, hpush]; rfl⟩
  · exact .inr ⟨hcannot, by rw [execCall, hpush]; rfl⟩

/-- Settles O26: in the stack region the next state is `State.called`, a push followed by a write of `pc`; else the step
fails. -/
theorem callPushesReturnAddress : Obligations.CallPushesReturnAddress := by
  intro target s
  rcases exec_call_cases target s with ⟨hcan, hexec⟩ | ⟨hcannot, hexec⟩
  · refine ⟨rfl, s.pushAddr_eq, fun hwf _ => ?_, fun hcannot => absurd hcan hcannot⟩
    obtain ⟨hlo, hhi, hbytes⟩ := State.pushed_bytes (wrap16 (s.pc.toNat + 3)) hwf
    obtain ⟨-, hflags, hstatus, houtside⟩ := s.pushed_other (wrap16 (s.pc.toNat + 3))
    exact ⟨s.called target, hexec, State.jump_pc _ _, s.pushed_sp_toNat _, s.sameRegsBut_pushed _, hlo, hhi, hbytes, hflags,
      hstatus, houtside⟩
  · exact ⟨rfl, s.pushAddr_eq, fun _ hcan => absurd hcan hcannot, fun _ => hexec⟩

/-! ### `RET` -/

/-- R160: the state after a `RET` that finds a word on the stack. -/
def State.returned (s : State) : State :=
  s.dropTop.jump (s.wordAt (s.reg .sp).toNat)

/-- R160, R63, all that `RET` can do: underflow is tested before the limit of the stack. -/
theorem exec_ret_cases (s : State) :
    (s.CanPop ∧ exec .ret s = .next s.returned) ∨
    (s.params.stackBase < (s.reg .sp).toNat + 2 ∧ exec .ret s = .next (s.fail .stackUnderflow)) ∨
    ((s.reg .sp).toNat + 2 ≤ s.params.stackBase ∧ (s.reg .sp).toNat < s.params.stackLimit ∧
      exec .ret s = .next (s.fail .segmentationFault)) := by
  show (_ ∧ execRet s = _) ∨ (_ ∧ execRet s = _) ∨ (_ ∧ _ ∧ execRet s = _)
  rcases s.stackTop_cases with ⟨hcan, htop⟩ | ⟨hunder, htop⟩ | ⟨hword, hlimit, htop⟩
  · exact .inl ⟨hcan, by rw [execRet, State.pop, htop]; rfl⟩
  · exact .inr (.inl ⟨hunder, by rw [execRet, State.pop, htop]; rfl⟩)
  · exact .inr (.inr ⟨hword, hlimit, by rw [execRet, State.pop, htop]; rfl⟩)

/-- Settles O27: the three outcomes of `RET` exclude one another. -/
theorem retPopsPc : Obligations.RetPopsPc := by
  intro s
  rcases exec_ret_cases s with ⟨⟨hword, hlimit⟩, hexec⟩ | ⟨hunder, hexec⟩ | ⟨hword, hlimit, hexec⟩
  · exact ⟨rfl, fun _ => hexec, fun hunder => absurd hunder (Nat.not_lt_of_le hword),
      fun _ hbelow => absurd hbelow (Nat.not_lt_of_le hlimit)⟩
  · exact ⟨rfl, fun ⟨hword, _⟩ => absurd hunder (Nat.not_lt_of_le hword), fun _ => hexec,
      fun hword _ => absurd hunder (Nat.not_lt_of_le hword)⟩
  · exact ⟨rfl, fun ⟨_, hreach⟩ => absurd hlimit (Nat.not_lt_of_le hreach),
      fun hunder => absurd hunder (Nat.not_lt_of_le hword), fun _ _ => hexec⟩

end Sys2Proof.Machine
end

section
/-! SUPPORT. What `PUSH` and `POP` do, and how they fail (43_stack.md R170, R171), and O29 and O30. -/

namespace Sys2Proof.Machine

/-! ### `PUSH` -/

/-- R170: the state after a `PUSH` whose operand can be read and whose word fits the stack region. The pushed word is read
in the state before the instruction, so `PUSH SP` pushes the old `SP`. -/
def State.afterPush (s : State) (r : Src) : State :=
  (s.pushed (s.srcWord r)).advance (Instr.push r).length

/-- R170, all that `PUSH` can do: the operand is read first, then pushed. -/
theorem exec_push_cases (r : Src) (s : State) :
    (s.SrcInRange r ∧ s.CanPush ∧ exec (.push r) s = .next (s.afterPush r)) ∨
    ((¬ s.SrcInRange r ∨ ¬ s.CanPush) ∧ exec (.push r) s = .next (s.fail .segmentationFault)) := by
  show (_ ∧ _ ∧ execPush r s = _) ∨ (_ ∧ execPush r s = _)
  rcases s.readSrc_cases r with ⟨hr, hread⟩ | ⟨hr, hread⟩
  · rcases s.push_cases (s.srcWord r) with ⟨hcan, hpush⟩ | ⟨hcannot, hpush⟩
    · exact .inl ⟨hr, hcan, by simp only [execPush, hread, hpush, bind, Except.bind, State.settle_ok, State.afterPush,
        State.pushed]⟩
    · exact .inr ⟨.inr hcannot, by simp only [execPush, hread, hpush, bind, Except.bind, State.settle_error]⟩
  · exact .inr ⟨.inl hr, by rw [execPush, hread]; rfl⟩

/-- Settles O29: with the operand in range and room on the stack the next state is `State.afterPush`, which has the registers
and the memory of a push; else the step fails. -/
theorem pushStoresWord : Obligations.PushStoresWord := by
  intro r s
  rcases exec_push_cases r s with ⟨hr, hcan, hexec⟩ | ⟨hout, hexec⟩
  · refine ⟨rfl, fun hwf _ _ => ?_, fun hout => (hout.elim (· hr) (· hcan)).elim⟩
    obtain ⟨hlo, hhi, hbytes⟩ := State.pushed_bytes (s.srcWord r) hwf
    obtain ⟨-, hflags, hstatus, houtside⟩ := s.pushed_other (s.srcWord r)
    exact ⟨s.afterPush r, hexec, s.pushed_sp_toNat _, s.sameRegsBut_pushed _, hlo, hhi, hbytes, hflags, ⟨rfl, hstatus⟩,
      houtside⟩
  · exact ⟨rfl, fun _ hr hcan => (hout.elim (· hr) (· hcan)).elim, fun _ => hexec⟩

/-! ### The top of the stack -/

/-- R63: underflow is tested first, whatever `STACK_LIMIT` is. -/
theorem State.stackTop_of_underflow {s : State} (h : s.params.stackBase < (s.reg .sp).toNat + 2) :
    s.stackTop = .error .stackUnderflow :=
  if_pos h

theorem State.stackTop_of_belowLimit {s : State} (hword : (s.reg .sp).toNat + 2 ≤ s.params.stackBase)
    (hlimit : (s.reg .sp).toNat < s.params.stackLimit) : s.stackTop = .error .segmentationFault :=
  (if_neg (Nat.not_lt_of_le hword)).trans (if_pos hlimit)

/-- R63: dropping the top moves `SP` past the word and writes no other register. -/
theorem State.dropTop_sp (s : State) : s.dropTop.reg .sp = wrap16 ((s.reg .sp).toNat + 2) :=
  State.reg_setReg_self _ _ _

theorem State.sameRegsBut_dropTop (s : State) : s.SameRegsBut s.dropTop [.sp] := fun _ hq =>
  State.reg_setReg_ne _ _ (List.ne_of_not_mem_cons hq)

/-! ### The destination of a pop -/

/-- R171: the state that a pop of `v` gives before `pc` moves, where the destination is in range. `SP` moves before a register
destination is written, and the address of a memory destination is that of the old registers. -/
def State.putPopped (s : State) (d : Dst) (v : Word) : State :=
  match d with
  | .reg r => s.dropTop.setReg r v
  | .mem m => s.dropTop.storeWord (s.ea m) v

/-- R171, all that the write of the popped word can do. -/
theorem State.popInto_cases (s : State) (d : Dst) (v : Word) :
    (s.DstInRange d ∧ s.popInto d v = .ok (s.putPopped d v)) ∨
    (¬ s.DstInRange d ∧ s.popInto d v = .error .segmentationFault) := by
  cases d with
  | reg r => exact .inl ⟨trivial, rfl⟩
  | mem m =>
    have hwrite : s.popInto (.mem m) v =
        if s.WordInRange (s.ea m) then .ok (s.putPopped (.mem m) v) else .error .segmentationFault :=
      s.dropTop.memWrite2_eq (s.ea m) v
    by_cases hd : s.WordInRange (s.ea m)
    · exact .inl ⟨hd, hwrite.trans (if_pos hd)⟩
    · exact .inr ⟨hd, hwrite.trans (if_neg hd)⟩

/-- R171: a pop advances `SP`, unless the popped word itself goes there. -/
theorem State.putPopped_sp (s : State) {d : Dst} (v : Word) (h : d ≠ .reg .sp) :
    (s.putPopped d v).reg .sp = wrap16 ((s.reg .sp).toNat + 2) := by
  cases d with
  | reg r =>
    have hr : Reg.sp ≠ r := fun hsp => h (congrArg Dst.reg hsp.symm)
    exact (State.reg_setReg_ne _ v hr).trans s.dropTop_sp
  | mem m => exact s.dropTop_sp

/-- R171: a register destination ends with the popped word, `SP` included, and no byte changes. -/
theorem State.putPopped_reg (s : State) (r : Reg) (v : Word) :
    (s.putPopped (.reg r) v).reg r = v ∧ s.SameRegsBut (s.putPopped (.reg r) v) [r, .sp] ∧
      s.SameBytes (s.putPopped (.reg r) v) := by
  have hregs : s.SameRegsBut (s.putPopped (.reg r) v) [r, .sp] := fun q hq =>
    (State.reg_setReg_ne _ v (List.ne_of_not_mem_cons hq)).trans
      (s.sameRegsBut_dropTop q (List.not_mem_of_not_mem_cons hq))
  exact ⟨State.reg_setReg_self _ _ _, hregs, fun _ => rfl⟩

/-- R171: a memory destination holds the popped word at the address of the old registers, and no register but `SP` changes. -/
theorem State.putPopped_mem {s : State} (m : MemRef) (v : Word) (hwf : s.mem.wf = true) :
    (s.putPopped (.mem m) v).byteAt (s.ea m) = loByte v ∧ (s.putPopped (.mem m) v).byteAt (s.ea m + 1) = hiByte v ∧
      s.SameRegsBut (s.putPopped (.mem m) v) [.sp] ∧ s.SameBytesBut (s.putPopped (.mem m) v) (s.ea m) 2 :=
  ⟨State.byteAt_storeWord_lo _ v hwf, State.byteAt_storeWord_hi _ v hwf, s.sameRegsBut_dropTop,
    s.dropTop.sameBytesBut_storeWord _ v⟩

/-- R171: what a pop leaves alone, besides registers and memory. -/
theorem State.putPopped_other (s : State) (d : Dst) (v : Word) :
    (s.putPopped d v).pc = s.pc ∧ (s.putPopped d v).flags = s.flags ∧ (s.putPopped d v).status = s.status ∧
      s.SameOutside (s.putPopped d v) := by
  cases d <;> exact ⟨rfl, rfl, rfl, rfl, rfl, rfl, rfl, rfl, rfl⟩

/-! ### `POP` -/

/-- R171: the state after a `POP` that finds a word on the stack and a destination in range. -/
def State.afterPop (s : State) (d : Dst) : State :=
  (s.putPopped d (s.wordAt (s.reg .sp).toNat)).advance (Instr.pop d).length

/-- R171: the stack is checked before the destination. -/
theorem exec_pop_of_stackTop_error {s : State} {f : Failure} (d : Dst) (h : s.stackTop = .error f) :
    exec (.pop d) s = .next (s.fail f) := by
  show execPop d s = _
  rw [execPop, h]
  rfl

/-- R171, all that `POP` can do with a word on the stack. -/
theorem exec_pop_cases {s : State} (d : Dst) (hcan : s.CanPop) :
    (s.DstInRange d ∧ exec (.pop d) s = .next (s.afterPop d)) ∨
    (¬ s.DstInRange d ∧ exec (.pop d) s = .next (s.fail .segmentationFault)) := by
  show (_ ∧ execPop d s = _) ∨ (_ ∧ execPop d s = _)
  have htop : s.stackTop = .ok (s.wordAt (s.reg .sp).toNat) := State.stackTop_of_canPop hcan
  rcases s.popInto_cases d (s.wordAt (s.reg .sp).toNat) with ⟨hd, hput⟩ | ⟨hd, hput⟩
  · exact .inl ⟨hd, by simp only [execPop, htop, hput, bind, Except.bind, State.settle_ok, State.afterPop]⟩
  · exact .inr ⟨hd, by simp only [execPop, htop, hput, bind, Except.bind, State.settle_error]⟩

theorem exec_pop_inRange {s : State} {d : Dst} (hcan : s.CanPop) (hd : s.DstInRange d) :
    exec (.pop d) s = .next (s.afterPop d) := by
  rcases exec_pop_cases d hcan with ⟨-, hexec⟩ | ⟨hout, -⟩
  · exact hexec
  · exact absurd hd hout

theorem exec_pop_outOfRange {s : State} {d : Dst} (hcan : s.CanPop) (hd : ¬ s.DstInRange d) :
    exec (.pop d) s = .next (s.fail .segmentationFault) := by
  rcases exec_pop_cases d hcan with ⟨hin, -⟩ | ⟨-, hexec⟩
  · exact absurd hin hd
  · exact hexec

/-- Settles O30: with a word to pop and the destination in range the next state is `State.afterPop`, which has the registers
and the memory of `State.putPopped`; the stack's two failures come before that of the destination. -/
theorem popLoadsWord : Obligations.PopLoadsWord := by
  intro d s
  refine ⟨rfl, fun hwf hcan hd => ⟨s.afterPop d, exec_pop_inRange hcan hd, ?_⟩,
    fun hunder => exec_pop_of_stackTop_error d (State.stackTop_of_underflow hunder),
    fun hword hlimit => exec_pop_of_stackTop_error d (State.stackTop_of_belowLimit hword hlimit), exec_pop_outOfRange⟩
  obtain ⟨hpc, hflags, hstatus, houtside⟩ := s.putPopped_other d (s.wordAt (s.reg .sp).toNat)
  have hnext : (s.afterPop d).pc = wrap16 (s.pc.toNat + (Instr.pop d).length) := by
    rw [State.afterPop, State.advance_pc, hpc]
  refine ⟨hflags, ⟨hnext, hstatus⟩, houtside, s.putPopped_sp _, fun r hreg => ?_, fun m hmem => ?_⟩
  · subst hreg
    exact s.putPopped_reg r _
  · subst hmem
    exact State.putPopped_mem m _ hwf

end Sys2Proof.Machine
end

section
/-! SUPPORT. What each of the twelve syscalls can do, and what its row of the table keeps (44_system.md R180, R182, R183), and
O53 and O32. -/

namespace Sys2Proof.Machine

/-! ### The syscalls that can fail -/

/-- R191, all that `ATOI` can do. -/
theorem exec_sysAtoi_cases {s t : State} (h : exec .sysAtoi s = .next t) :
    (∃ v, t = (s.setReg .ax v).advance Instr.sysAtoi.length) ∨ ∃ f, t = s.fail f := by
  rcases State.settle_cases h with hok | ⟨f, -, hfail⟩
  · obtain ⟨n, -, hn⟩ := bind_eq_ok hok
    cases hn
    exact .inl ⟨wrap16 n, rfl⟩
  · exact .inr ⟨f, hfail⟩

/-- R194, all that `PRINT_STRING` can do. -/
theorem exec_sysPrintString_cases {s t : State} (h : exec .sysPrintString s = .next t) :
    (∃ str, t = (s.emit str).advance Instr.sysPrintString.length) ∨ ∃ f, t = s.fail f := by
  rcases State.settle_cases h with hok | ⟨f, -, hfail⟩
  · obtain ⟨str, -, hstr⟩ := bind_eq_ok hok
    cases hstr
    exact .inl ⟨str, rfl⟩
  · exact .inr ⟨f, hfail⟩

/-- R195: an answer that is taken stores at most `uint(CX)` bytes at `BX` and a word in `AX`. `NOTFOUND` stores no byte. -/
theorem State.takeAnswer_eq_ok {s u : State} {ans : FsAnswer} (h : s.takeAnswer ans = .ok u) :
    ∃ bs v, bs.length ≤ (s.reg .cx).toNat ∧ u = (s.noteAnswer.storeBytes (s.reg .bx).toNat bs).setReg .ax v := by
  rcases s.takeAnswer_cases ans with ⟨-, htake⟩ | ⟨content, -, -, htake⟩ | ⟨content, -, -, -, htake⟩ <;>
    cases htake.symm.trans h
  · exact ⟨[], _, Nat.zero_le _, rfl⟩
  · have hcount : s.readCount content ≤ (s.reg .cx).toNat := Nat.min_le_right _ _
    exact ⟨_, _, (s.length_take_readCount content).trans_le hcount, rfl⟩

/-- R195, all that `READ_FILE` can do. -/
theorem exec_sysReadFile_cases {s t : State} (h : exec .sysReadFile s = .next t) :
    (∃ bs v, bs.length ≤ (s.reg .cx).toNat ∧
      t = ((s.noteAnswer.storeBytes (s.reg .bx).toNat bs).setReg .ax v).advance Instr.sysReadFile.length) ∨
    ∃ f, t = s.fail f := by
  rcases State.settle_cases h with hok | ⟨f, -, hfail⟩
  · obtain ⟨path, -, hpath⟩ := bind_eq_ok hok
    obtain ⟨u, htake, hu⟩ := bind_eq_ok hpath
    obtain ⟨bs, v, hlen, rfl⟩ := State.takeAnswer_eq_ok htake
    cases hu
    exact .inl ⟨bs, v, hlen, rfl⟩
  · exact .inr ⟨f, hfail⟩

/-! ### The rows of the table -/

/-- R183: going from `s` to `t` the syscall `i` has written nothing but what its row of the table names. -/
structure WritesOnlyItsRow (i : Instr) (s t : State) : Prop where
  regs : s.SameRegsBut t [.ax]
  flags : t.flags = s.flags
  params : t.params = s.params
  ax : i ≠ .sysAtoi → i ≠ .sysReadFile → t.reg .ax = s.reg .ax
  out : i ∉ [Instr.sysPrintInt, .sysPrintChar, .sysPrintString] → t.out = s.out
  bytes : i ≠ .sysReadFile → s.SameBytes t
  buffer : i = .sysReadFile → s.SameBytesBut t (s.reg .bx).toNat (s.reg .cx).toNat
  fb : i ∉ [Instr.sysClearScreen, .sysDrawRect, .sysDrawCircle, .sysDrawLine] → t.fb = s.fb
  color : i ∉ [Instr.sysClearScreen, .sysSetColor] → t.color = s.color
  disp : i ≠ .sysPaintDisplay → t.disp = s.disp
  status : i ≠ .sysExit → t.status = s.status ∨ ∃ f, t = { s with status := .failed f }

namespace WritesOnlyItsRow

variable {i : Instr} {s t : State}

/-- A syscall that writes neither a register nor a byte keeps its row if it keeps the records, the rasterizer and `STATUS` as the
row says. -/
theorem of_storage_kept (hregs : t.regs = s.regs) (hmem : t.mem = s.mem) (hflags : t.flags = s.flags)
    (hparams : t.params = s.params)
    (hout : i ∉ [Instr.sysPrintInt, .sysPrintChar, .sysPrintString] → t.out = s.out)
    (hfb : i ∉ [Instr.sysClearScreen, .sysDrawRect, .sysDrawCircle, .sysDrawLine] → t.fb = s.fb)
    (hcolor : i ∉ [Instr.sysClearScreen, .sysSetColor] → t.color = s.color)
    (hdisp : i ≠ .sysPaintDisplay → t.disp = s.disp)
    (hstatus : i ≠ .sysExit → t.status = s.status ∨ ∃ f, t = { s with status := .failed f }) :
    WritesOnlyItsRow i s t where
  regs r _ := State.reg_eq_of_regs hregs r
  flags := hflags
  params := hparams
  ax _ _ := State.reg_eq_of_regs hregs .ax
  out := hout
  bytes _ := State.byteAt_eq_of_mem hmem
  buffer _ b _ := State.byteAt_eq_of_mem hmem b
  fb := hfb
  color := hcolor
  disp := hdisp
  status := hstatus

/-- R238: a failed syscall has changed `STATUS` only. -/
theorem fail (i : Instr) (s : State) (f : Failure) : WritesOnlyItsRow i s (s.fail f) :=
  of_storage_kept rfl rfl rfl rfl (fun _ => rfl) (fun _ => rfl) (fun _ => rfl) (fun _ => rfl) fun _ => .inr ⟨f, rfl⟩

/-- R182: `EXIT` writes `STATUS`. -/
theorem exit (s : State) : WritesOnlyItsRow .sysExit s s.halt :=
  of_storage_kept rfl rfl rfl rfl (fun _ => rfl) (fun _ => rfl) (fun _ => rfl) (fun _ => rfl) fun hi => absurd rfl hi

/-- R192 to R194: the printing syscalls write `OUT`. -/
theorem emit (hi : i ∈ [Instr.sysPrintInt, .sysPrintChar, .sysPrintString]) (s : State) (bs : List Byte) (len : Nat) :
    WritesOnlyItsRow i s ((s.emit bs).advance len) :=
  of_storage_kept rfl rfl rfl rfl (fun hout => absurd hi hout) (fun _ => rfl) (fun _ => rfl) (fun _ => rfl) fun _ => .inl rfl

/-- R196: `PAINT_DISPLAY` writes `DISP`. -/
theorem present (s : State) (len : Nat) : WritesOnlyItsRow .sysPaintDisplay s (s.present.advance len) :=
  of_storage_kept rfl rfl rfl rfl (fun _ => rfl) (fun _ => rfl) (fun _ => rfl) (fun hi => absurd rfl hi) fun _ => .inl rfl

/-- R212: `CLEAR_SCREEN` writes `FB` and `COLOR`. -/
theorem clearScreen (s : State) (len : Nat) : WritesOnlyItsRow .sysClearScreen s (s.clearScreen.advance len) :=
  of_storage_kept rfl rfl rfl rfl (fun _ => rfl) (fun hi => absurd List.mem_cons_self hi)
    (fun hi => absurd List.mem_cons_self hi) (fun _ => rfl) fun _ => .inl rfl

/-- R213: `SET_COLOR` writes `COLOR`. -/
theorem setColor (s : State) (v : Word) (len : Nat) : WritesOnlyItsRow .sysSetColor s ((s.setColor v).advance len) :=
  of_storage_kept rfl rfl rfl rfl (fun _ => rfl) (fun _ => rfl) (fun hi => absurd (by decide) hi) (fun _ => rfl)
    fun _ => .inl rfl

/-- R214 to R216: the syscalls that draw points write `FB`. -/
theorem draw (hi : i ∈ [Instr.sysDrawRect, .sysDrawCircle, .sysDrawLine]) (s : State) (ps : List Point) (len : Nat) :
    WritesOnlyItsRow i s ((s.draw ps).advance len) :=
  of_storage_kept rfl rfl rfl rfl (fun _ => rfl) (fun hfb => absurd (List.mem_cons_of_mem _ hi) hfb) (fun _ => rfl)
    (fun _ => rfl) fun _ => .inl rfl

/-- R191: `ATOI` writes `AX`. -/
theorem atoi (s : State) (v : Word) (len : Nat) : WritesOnlyItsRow .sysAtoi s ((s.setReg .ax v).advance len) where
  regs _ hq := State.reg_setReg_ne _ _ (List.ne_of_not_mem_cons hq)
  flags := rfl
  params := rfl
  ax hi := absurd rfl hi
  out _ := rfl
  bytes _ _ := rfl
  buffer hi := nomatch hi
  fb _ := rfl
  color _ := rfl
  disp _ := rfl
  status _ := .inl rfl

/-- R195: `READ_FILE` writes `AX` and the buffer of at most `uint(CX)` bytes at `BX`. -/
theorem readFile {s : State} {bs : List Byte} (hlen : bs.length ≤ (s.reg .cx).toNat) (v : Word) (len : Nat) :
    WritesOnlyItsRow .sysReadFile s
      (((s.noteAnswer.storeBytes (s.reg .bx).toNat bs).setReg .ax v).advance len) where
  regs _ hq := State.reg_setReg_ne _ _ (List.ne_of_not_mem_cons hq)
  flags := rfl
  params := rfl
  ax _ hi := absurd rfl hi
  out _ := rfl
  bytes hi := absurd rfl hi
  buffer _ b hb := s.sameBytesBut_storeBytes (s.reg .bx).toNat bs b (by omega)
  fb _ := rfl
  color _ := rfl
  disp _ := rfl
  status _ := .inl rfl

end WritesOnlyItsRow

/-- R183: whatever one of the twelve syscalls answers, it has written nothing but what its row names. -/
theorem writesOnlyItsRow_of_exec {i : Instr} {s t : State}
    (hi : i ∈ [Instr.sysAtoi, .sysPrintInt, .sysPrintChar, .sysPrintString, .sysExit, .sysReadFile, .sysClearScreen,
      .sysSetColor, .sysDrawRect, .sysDrawCircle, .sysDrawLine, .sysPaintDisplay]) (h : exec i s = .next t) :
    WritesOnlyItsRow i s t := by
  cases i with
  | sysAtoi =>
    rcases exec_sysAtoi_cases h with ⟨v, rfl⟩ | ⟨f, rfl⟩
    · exact .atoi s v _
    · exact .fail _ s f
  | sysPrintString =>
    rcases exec_sysPrintString_cases h with ⟨str, rfl⟩ | ⟨f, rfl⟩
    · exact .emit (by decide) s str _
    · exact .fail _ s f
  | sysReadFile =>
    rcases exec_sysReadFile_cases h with ⟨bs, v, hlen, rfl⟩ | ⟨f, rfl⟩
    · exact .readFile hlen v _
    · exact .fail _ s f
  | sysPrintInt => cases h; exact .emit (by decide) s _ _
  | sysPrintChar => cases h; exact .emit (by decide) s _ _
  | sysExit => cases h; exact .exit s
  | sysClearScreen => cases h; exact .clearScreen s _
  | sysSetColor => cases h; exact .setColor s _ _
  | sysDrawRect => cases h; exact .draw (by decide) s _ _
  | sysDrawCircle => cases h; exact .draw (by decide) s _ _
  | sysDrawLine => cases h; exact .draw (by decide) s _ _
  | sysPaintDisplay => cases h; exact .present s _
  | _ => simp at hi

/-! ### The obligations -/

/-- Settles O53: the clauses of the statement are the fields of `WritesOnlyItsRow`. -/
theorem syscallsWriteOnlyTheirTable : Obligations.SyscallsWriteOnlyTheirTable := by
  intro i hi s t h
  obtain ⟨hregs, hflags, hparams, hax, hout, hbytes, hbuffer, hfb, hcolor, hdisp, hstatus⟩ := writesOnlyItsRow_of_exec hi h
  exact ⟨hregs, hflags, hparams, hax, hout, hbytes, hbuffer, hfb, hcolor, hdisp, hstatus⟩

/-- Settles O32: `HALT` and `EXIT` have one rule. -/
theorem haltAndExitStop : Obligations.HaltAndExitStop :=
  ⟨rfl, rfl, fun _ => ⟨rfl, rfl⟩⟩

end Sys2Proof.Machine
end

section
/-! SUPPORT. What the host syscalls do, with the text or the buffer inside memory and with a scan or a copy that leaves it
(45_syscall_host.md R190 to R196), and O35, O36, O37, O38, O39 and O40. -/

namespace Sys2Proof.Machine

/-! ### A step whose rule begins with a scan -/

section

variable {α : Type} {x : Except Failure α} {f : α → Except Failure State}

theorem State.settle_bind_of_ok (s : State) {a : α} (h : x = .ok a) : s.settle (x >>= f) = s.settle (f a) :=
  congrArg (fun y => s.settle (y >>= f)) h

theorem State.settle_bind_of_error (s : State) {e : Failure} (h : x = .error e) :
    s.settle (x >>= f) = .next { s with status := .failed e } :=
  congrArg (fun y => s.settle (y >>= f)) h

end

/-! ### `ATOI` -/

/-- The byte that ends the digits is inside memory. -/
theorem State.HoldsDigits.end_lt {s : State} {a : Nat} {ds : List Byte} (h : s.HoldsDigits a ds) :
    a + ds.length < s.params.memSize := by
  obtain ⟨-, -, hin⟩ := h
  exact hin

/-- R191: the digit loop, from the value 0 and with the fuel that `ATOI` gives it. -/
theorem State.digitsFrom_of_holdsDigits {s : State} {a : Nat} {ds : List Byte} (h : s.HoldsDigits a ds) :
    s.digitsFrom (s.params.memSize + 1) a 0 = .ok (digitsValue ds) := by
  have hin := h.end_lt
  exact State.digitsFrom_digits h (by omega)

/-- R191: after a minus sign the digit loop starts at the next byte, and its value is negated. -/
theorem State.parseInt_of_minus {s : State} {a : Nat} (hin : a + 1 ≤ s.params.memSize) (h : s.byteAt a = 0x2D) :
    s.parseInt a = s.digitsFrom (s.params.memSize + 1) (a + 1) 0 >>= fun val => .ok (-(val : Int)) := by
  rw [State.parseInt, s.memRead1_eq, if_pos hin]
  exact if_pos h

/-- R191: without a minus sign the digit loop starts at the first byte. -/
theorem State.parseInt_of_not_minus {s : State} {a : Nat} (hin : a + 1 ≤ s.params.memSize) (h : s.byteAt a ≠ 0x2D) :
    s.parseInt a = s.digitsFrom (s.params.memSize + 1) a 0 >>= fun val => .ok (val : Int) := by
  rw [State.parseInt, s.memRead1_eq, if_pos hin]
  exact if_neg h

theorem State.parseInt_digits {s : State} {a : Nat} {ds : List Byte} (h : s.HoldsDigits a ds) (hsign : s.byteAt a ≠ 0x2D) :
    s.parseInt a = .ok (digitsValue ds) := by
  have hin := h.end_lt
  rw [State.parseInt_of_not_minus (by omega) hsign, State.digitsFrom_of_holdsDigits h]
  rfl

theorem State.parseInt_minus_digits {s : State} {a : Nat} {ds : List Byte} (hsign : s.byteAt a = 0x2D)
    (h : s.HoldsDigits (a + 1) ds) : s.parseInt a = .ok (-(digitsValue ds : Int)) := by
  have hin := h.end_lt
  rw [State.parseInt_of_minus (by omega) hsign, State.digitsFrom_of_holdsDigits h]
  rfl

/-- R53: no text can be read at or above `MEM_SIZE`. -/
theorem State.parseInt_outOfRange {s : State} {a : Nat} (h : s.params.memSize ≤ a) :
    s.parseInt a = .error .segmentationFault := by
  rw [State.parseInt, s.memRead1_eq, if_neg (by omega)]
  rfl

/-- R191: a minus sign or a digit, and digits up to the end of memory. The sign can only be the byte at `a`, so the digit
loop itself meets nothing but digits. -/
theorem State.parseInt_unended {s : State} {a : Nat}
    (h : ∀ b, a ≤ b → b < s.params.memSize → IsDecimalDigit (s.byteAt b) ∨ (b = a ∧ s.byteAt b = 0x2D)) :
    s.parseInt a = .error .segmentationFault := by
  rcases Nat.lt_or_ge a s.params.memSize with hin | hout
  · by_cases hsign : s.byteAt a = 0x2D
    · have hdigits : ∀ b, a + 1 ≤ b → b < s.params.memSize → IsDecimalDigit (s.byteAt b) := fun b hab hb =>
        (h b (by omega) hb).resolve_right fun ⟨hba, _⟩ => by omega
      rw [State.parseInt_of_minus hin hsign, State.digitsFrom_unended _ _ hdigits]
      rfl
    · have hdigits : ∀ b, a ≤ b → b < s.params.memSize → IsDecimalDigit (s.byteAt b) := fun b hab hb =>
        (h b hab hb).resolve_right fun ⟨hba, hminus⟩ => hsign (hba ▸ hminus)
      rw [State.parseInt_of_not_minus hin hsign, State.digitsFrom_unended _ _ hdigits]
      rfl
  · exact State.parseInt_outOfRange hout

/-- R191: `AX` takes the wrapped value of the text, and `pc` moves on. -/
theorem exec_sysAtoi_of_ok {s : State} {n : Int} (h : s.parseInt (s.reg .ax).toNat = .ok n) :
    exec .sysAtoi s = .next { s with regs := s.regs.set .ax (wrap16 n), pc := wrap16 (s.pc.toNat + 2) } :=
  s.settle_bind_of_ok h

theorem exec_sysAtoi_of_error {s : State} {e : Failure} (h : s.parseInt (s.reg .ax).toNat = .error e) :
    exec .sysAtoi s = .next { s with status := .failed e } :=
  s.settle_bind_of_error h

/-- Settles O35: by what the text at `AX` is, without and with a minus sign, and by where the scan leaves memory. -/
theorem atoiParsesDecimal : Obligations.AtoiParsesDecimal :=
  ⟨rfl, fun _ => ⟨fun _ hdigits hsign => exec_sysAtoi_of_ok (State.parseInt_digits hdigits hsign),
    fun _ hsign hdigits => exec_sysAtoi_of_ok (State.parseInt_minus_digits hsign hdigits),
    fun hout => exec_sysAtoi_of_error (State.parseInt_outOfRange hout),
    fun hunended => exec_sysAtoi_of_error (State.parseInt_unended hunended)⟩⟩

/-! ### Decimal numerals -/

/-- R192: the decimal digits `ds` stand for `n`, and there is no leading zero but the one of `"0"`. -/
structure NumeralOf (n : Nat) (ds : List Byte) : Prop where
  value : digitsValue ds = n
  digits : ∀ b ∈ ds, IsDecimalDigit b
  ne_nil : ds ≠ []
  no_leading_zero : ds.head? = some 0x30 → ds = [0x30]

theorem digitByte_toNat {d : Nat} (h : d < 10) : (digitByte d).toNat = 0x30 + d := by
  rw [digitByte, BitVec.toNat_ofNat]
  omega

theorem isDecimalDigit_digitByte {d : Nat} (h : d < 10) : IsDecimalDigit (digitByte d) := by
  rw [IsDecimalDigit, digitByte_toNat h]
  omega

theorem digitsValue_append_digitByte (ds : List Byte) {d : Nat} (h : d < 10) :
    digitsValue (ds ++ [digitByte d]) = digitsValue ds * 10 + d := by
  rw [digitsValue, List.foldl_append, List.foldl_cons, List.foldl_nil, digitByte_toNat h, Nat.add_sub_cancel_left]
  rfl

/-- R192: one digit is a numeral, zero among them. -/
theorem NumeralOf.digit {d : Nat} (h : d < 10) : NumeralOf d [digitByte d] where
  value := (digitsValue_append_digitByte [] h).trans (Nat.zero_add d)
  digits _ hb := List.mem_singleton.mp hb ▸ isDecimalDigit_digitByte h
  ne_nil := List.cons_ne_nil _ _
  no_leading_zero hhead := congrArg (· :: []) (Option.some.inj hhead)

/-- R192: a digit after the numeral of a positive number. Only the numeral of zero starts with a zero. -/
theorem NumeralOf.append_digit {m d : Nat} {ds : List Byte} (h : NumeralOf m ds) (hm : 0 < m) (hd : d < 10) :
    NumeralOf (m * 10 + d) (ds ++ [digitByte d]) where
  value := by rw [digitsValue_append_digitByte ds hd, h.value]
  digits b hb := by
    rcases List.mem_append.mp hb with hold | hnew
    · exact h.digits b hold
    · exact List.mem_singleton.mp hnew ▸ isDecimalDigit_digitByte hd
  ne_nil := List.append_ne_nil_of_left_ne_nil h.ne_nil _
  no_leading_zero hhead := by
    rw [List.head?_append_of_ne_nil _ h.ne_nil] at hhead
    have hzero : m = 0 := h.value.symm.trans (congrArg digitsValue (h.no_leading_zero hhead))
    omega

/-- R192: given fuel enough, the loop puts the numeral of `n` in front of what is there. -/
theorem decimalOnto_numeralOf {fuel n : Nat} (acc : List Byte) (h : n < fuel) :
    ∃ ds, decimalOnto fuel n acc = ds ++ acc ∧ NumeralOf n ds := by
  induction fuel generalizing n acc with
  | zero => exact absurd h (Nat.not_lt_zero n)
  | succ fuel ih =>
    rw [decimalOnto]
    split
    next hlt => exact ⟨[digitByte n], rfl, .digit hlt⟩
    next hge =>
      obtain ⟨ds, honto, hds⟩ := ih (n := n / 10) (digitByte (n % 10) :: acc) (by omega)
      have hnum := hds.append_digit (by omega) (Nat.mod_lt n (by decide))
      rw [Nat.div_add_mod'] at hnum
      exact ⟨ds ++ [digitByte (n % 10)], by rw [honto, List.append_assoc]; rfl, hnum⟩

theorem decimal_numeralOf (n : Nat) : NumeralOf n (decimal n) := by
  obtain ⟨ds, honto, hds⟩ := decimalOnto_numeralOf (n := n) [] (Nat.lt_succ_self n)
  rw [decimal, honto, List.append_nil]
  exact hds

/-! ### `PRINT_INT` and `PRINT_CHAR` -/

/-- R192: the sign and the digits of `Dec(n)`. -/
theorem decText_eq (n : Int) : decText n = (if n < 0 then [0x2D] else []) ++ decimal n.natAbs := by
  unfold decText
  split <;> rfl

theorem exec_sysPrintInt (s : State) : exec .sysPrintInt s = .next
    { s with
      out := s.out ++ ((if (s.reg .ax).toInt < 0 then [0x2D] else []) ++ decimal (s.reg .ax).toInt.natAbs)
      pc := wrap16 (s.pc.toNat + 2) } := by
  rw [← decText_eq]
  rfl

/-- Settles O36: the digits are those of `decimal`. -/
theorem printIntWritesNumeral : Obligations.PrintIntWritesNumeral := by
  refine ⟨rfl, fun s => ⟨decimal (s.reg .ax).toInt.natAbs, exec_sysPrintInt s, ?_⟩⟩
  obtain ⟨hvalue, hdigits, hne, hlead⟩ := decimal_numeralOf (s.reg .ax).toInt.natAbs
  exact ⟨hvalue, hdigits, hne, hlead⟩

/-- Settles O37. -/
theorem printCharWritesLowByte : Obligations.PrintCharWritesLowByte := by
  refine ⟨rfl, fun s => ?_⟩
  have hbyte : loByte (s.reg .ax) = BitVec.ofNat 8 ((s.reg .ax).toNat % 256) :=
    BitVec.eq_of_toNat_eq (by rw [loByte_toNat, BitVec.toNat_ofNat, Nat.mod_mod])
  rw [← hbyte]
  rfl

/-! ### `PRINT_STRING` -/

/-- The terminator is inside memory. -/
theorem State.HoldsString.end_lt {s : State} {a : Nat} {str : List Byte} (h : s.HoldsString a str) :
    a + str.length < s.params.memSize := by
  obtain ⟨-, -, hin⟩ := h
  exact hin

theorem State.cstr_of_holdsString {s : State} {p : Word} {str : List Byte} (h : s.HoldsString p.toNat str) :
    s.cstr p = .ok str := by
  have hin := h.end_lt
  exact State.cstrFrom_string h (by omega)

theorem State.cstr_of_unterminated {s : State} {p : Word} (h : s.Unterminated p.toNat) :
    s.cstr p = .error .segmentationFault :=
  State.cstrFrom_unterminated _ h

/-- Settles O38: `PRINT_STRING` emits what `CStr` reads, and fails where it does. -/
theorem printStringWritesString : Obligations.PrintStringWritesString := by
  refine ⟨rfl, fun s => ⟨fun str hstr => ?_, fun hunended => ?_⟩⟩
  · have hread := State.cstr_of_holdsString hstr
    exact ⟨hread, s.settle_bind_of_ok hread⟩
  · have hread := State.cstr_of_unterminated hunended
    exact ⟨hread, s.settle_bind_of_error hread⟩

/-! ### `READ_FILE` -/

/-- R195: the state after `READ_FILE` has stored what fits of the answered bytes. -/
def State.copied (s : State) (content : List Byte) : State :=
  ((s.noteAnswer.storeBytes (s.reg .bx).toNat (content.take (s.readCount content))).setReg .ax
    (wrap16 (s.readCount content))).advance Instr.sysReadFile.length

section

variable {s : State} {path : List Byte}

/-- R195: once the path is read, the step goes on with the filesystem's answer. -/
theorem exec_sysReadFile_of_cstr (hpath : s.cstr (s.reg .ax) = .ok path) :
    exec .sysReadFile s =
      s.settle (s.takeAnswer (s.fsAnswer path) >>= fun t => .ok (t.advance Instr.sysReadFile.length)) :=
  s.settle_bind_of_ok hpath

/-- R195: a missing file. -/
theorem exec_sysReadFile_notFound (hpath : s.cstr (s.reg .ax) = .ok path) (hans : s.fsAnswer path = .notFound) :
    exec .sysReadFile s = .next
      { s with regs := s.regs.set .ax 0xFFFF, pc := wrap16 (s.pc.toNat + 2), fsCalls := s.fsCalls + 1 } := by
  rw [exec_sysReadFile_of_cstr hpath, hans]
  rfl

/-- R195: the bytes to store, if any, end at or below `MEM_SIZE`. -/
theorem exec_sysReadFile_fits {content : List Byte} (hpath : s.cstr (s.reg .ax) = .ok path)
    (hans : s.fsAnswer path = .bytes content)
    (hfits : s.readCount content = 0 ∨ (s.reg .bx).toNat + s.readCount content ≤ s.params.memSize) :
    exec .sysReadFile s = .next (s.copied content) := by
  have hin : ¬ (0 < s.readCount content ∧ s.params.memSize < (s.reg .bx).toNat + s.readCount content) := by omega
  rw [exec_sysReadFile_of_cstr hpath, hans]
  exact s.settle_bind_of_ok (if_neg hin)

/-- R195: there are bytes to store, and they would leave memory. -/
theorem exec_sysReadFile_outOfRange {content : List Byte} (hpath : s.cstr (s.reg .ax) = .ok path)
    (hans : s.fsAnswer path = .bytes content) (hpos : 0 < s.readCount content)
    (hout : s.params.memSize < (s.reg .bx).toNat + s.readCount content) :
    exec .sysReadFile s = .next { s with status := .failed .segmentationFault } := by
  rw [exec_sysReadFile_of_cstr hpath, hans]
  exact s.settle_bind_of_error (if_pos ⟨hpos, hout⟩)

end

/-- R195: the stored bytes are the first of the answer, and no byte outside their range changes. -/
theorem State.copied_bytes {s : State} (content : List Byte) (hwf : s.mem.wf = true) :
    (∀ k, (h : k < content.length) → k < s.readCount content →
      (s.copied content).byteAt ((s.reg .bx).toNat + k) = content[k]) ∧
    s.SameBytesBut (s.copied content) (s.reg .bx).toNat (s.readCount content) := by
  have hlen := s.length_take_readCount content
  refine ⟨fun k _ hk => ?_, fun b hb => ?_⟩
  · exact (State.byteAt_storeBytes (content.take (s.readCount content)) hwf (hlen.symm ▸ hk)).trans List.getElem_take
  · exact s.sameBytesBut_storeBytes _ _ b (hlen.symm ▸ hb)

/-- R183, R195: of the registers only `AX` changes, `pc` moves past the instruction, and the flags, the rasterizer, the
records and the parameters stay. -/
theorem State.copied_other (s : State) (content : List Byte) :
    (s.copied content).reg .ax = wrap16 (s.readCount content) ∧ s.SameRegsBut (s.copied content) [.ax] ∧
    (s.copied content).flags = s.flags ∧ s.PastInstr (s.copied content) .sysReadFile ∧
    (s.copied content).color = s.color ∧ (s.copied content).fb = s.fb ∧ (s.copied content).out = s.out ∧
    (s.copied content).disp = s.disp ∧ (s.copied content).params = s.params :=
  ⟨State.reg_setReg_self _ .ax _, fun _ hq => State.reg_setReg_ne _ _ (List.ne_of_not_mem_cons hq), rfl, ⟨rfl, rfl⟩,
    rfl, rfl, rfl, rfl, rfl⟩

/-- R195: a buffer of `CX` bytes that lies in memory takes whatever the filesystem answers. -/
theorem exec_sysReadFile_completes {s : State} {path : List Byte} (hpath : s.cstr (s.reg .ax) = .ok path)
    (hbuf : (s.reg .bx).toNat + (s.reg .cx).toNat ≤ s.params.memSize) :
    ∃ t, exec .sysReadFile s = .next t ∧ s.PastInstr t .sysReadFile := by
  cases hans : s.fsAnswer path with
  | notFound => exact ⟨_, exec_sysReadFile_notFound hpath hans, rfl, rfl⟩
  | bytes content =>
    have hcount : s.readCount content ≤ (s.reg .cx).toNat := Nat.min_le_right _ _
    exact ⟨_, exec_sysReadFile_fits hpath hans (.inr (by omega)), rfl, rfl⟩

/-- Settles O39: by the scan of the path, then by the answer, then by whether the bytes to store fit. -/
theorem readFileCopiesAnswer : Obligations.ReadFileCopiesAnswer := by
  refine ⟨rfl, fun s => ⟨fun path hwf hstr => ?_, fun hunended => ?_⟩⟩
  · have hpath := State.cstr_of_holdsString hstr
    refine ⟨exec_sysReadFile_notFound hpath, ?_, exec_sysReadFile_completes hpath⟩
    rintro content _ hans rfl
    refine ⟨fun hfits => ⟨s.copied content, exec_sysReadFile_fits hpath hans hfits, ?_⟩,
      exec_sysReadFile_outOfRange hpath hans⟩
    obtain ⟨hstored, hkept⟩ := State.copied_bytes content hwf
    obtain ⟨hax, hregs, hother⟩ := s.copied_other content
    exact ⟨hax, hregs, hstored, hkept, hother⟩
  · exact s.settle_bind_of_error (State.cstr_of_unterminated hunended)

/-! ### `PAINT_DISPLAY` -/

/-- Settles O40: the copy is the `FB` of the state before the step. -/
theorem paintDisplayPresentsFrame : Obligations.PaintDisplayPresentsFrame :=
  ⟨rfl, fun _ => rfl⟩

end Sys2Proof.Machine
end

section
/-! SUPPORT. The pixels that `CLEAR_SCREEN` and the drawing syscalls set (46_rasterizer.md R212 to R216), and O42, O43, O44, O45
and O46. -/

namespace Sys2Proof.Machine

/-! ### The clear and the colour -/

/-- Settles O42: in the empty store every pixel is an unlisted cell. -/
theorem clearScreenZeroesPixels : Obligations.ClearScreenZeroesPixels :=
  ⟨rfl, fun _ => ⟨[], rfl, fun _ _ _ _ => rfl⟩⟩

/-- Settles O43: taking the two low bits is the remainder by 4. -/
theorem setColorMasks : Obligations.SetColorMasks :=
  ⟨rfl, fun s => ⟨(s.reg .ax).extractLsb' 0 2, rfl, BitVec.extractLsb'_toNat 0 2 (s.reg .ax)⟩⟩

/-! ### A primitive whose points are known -/

/-- R211: where `C` says that the pixel is a point of the primitive, it takes the colour exactly if `C` holds. -/
theorem plotAll_sets_exactly {fb : Framebuffer} {c : BitVec 2} {ps : List Point} {px py : Nat} {C : Prop}
    (hwf : Cells.wf fb = true) (hx : px < 160) (hy : py < 144) (hC : ((px : Int), (py : Int)) ∈ ps ↔ C) :
    (C → Framebuffer.pixel (plotAll c ps fb) px py = c) ∧
    (¬ C → Framebuffer.pixel (plotAll c ps fb) px py = fb.pixel px py) := by
  rw [plotAll_pixel c ps hwf hx hy]
  exact ⟨fun h => if_pos (hC.mpr h), fun h => if_neg (mt hC.mp h)⟩

/-! ### `DRAW_RECT` -/

/-- R214: a point of the screen is one of the rectangle exactly if it is in the box and, for an outline, on its border. A size
that is not positive leaves no such point. -/
theorem mem_rectPoints {x y w h : Int} {filled : Bool} {px py : Nat} (hx : px < 160) (hy : py < 144) :
    ((px : Int), (py : Int)) ∈ rectPoints x y w h filled ↔
      x ≤ px ∧ (px : Int) ≤ x + w - 1 ∧ y ≤ py ∧ (py : Int) ≤ y + h - 1 ∧
        (filled = true ∨ (px : Int) = x ∨ (px : Int) = x + w - 1 ∨ (py : Int) = y ∨ (py : Int) = y + h - 1) := by
  unfold rectPoints
  split
  · next hempty =>
    simp only [List.not_mem_nil, false_iff]
    omega
  · simp only [List.mem_flatMap, List.mem_map, List.mem_filter, mem_clipRange, Bool.or_eq_true, beq_iff_eq, or_assoc]
    constructor
    · rintro ⟨_, ⟨-, hy1, hy2⟩, _, ⟨⟨-, hx1, hx2⟩, hborder⟩, hp⟩
      cases hp
      exact ⟨hx1, hx2, hy1, hy2, hborder⟩
    · rintro ⟨hx1, hx2, hy1, hy2, hborder⟩
      have hcol : 0 ≤ (px : Int) ∧ (px : Int) < Config.screenWidth := ⟨Int.natCast_nonneg px, Int.ofNat_lt.mpr hx⟩
      have hrow : 0 ≤ (py : Int) ∧ (py : Int) < Config.screenHeight := ⟨Int.natCast_nonneg py, Int.ofNat_lt.mpr hy⟩
      exact ⟨py, ⟨hrow, hy1, hy2⟩, px, ⟨⟨hcol, hx1, hx2⟩, hborder⟩, rfl⟩

/-- Settles O44: the points of `rectPoints` on the screen are those of the box or of its border. -/
theorem drawRectSetsBox : Obligations.DrawRectSetsBox := by
  refine ⟨rfl, fun s hwf => ⟨_, rfl, fun px py hx hy => plotAll_sets_exactly hwf hx hy ?_⟩⟩
  rw [mem_rectPoints hx hy, bne_iff_ne]
  rfl

/-! ### `DRAW_CIRCLE` -/

/-- R215: the eight points of an iteration are those at an offset `(±x, ±y)` or `(±y, ±x)` from the centre. -/
theorem mem_octants_iff {cx cy x y : Int} {p : Point} :
    p ∈ octants cx cy x y ↔ CircleOffset x y (p.1 - cx, p.2 - cy) := by
  obtain ⟨px, py⟩ := p
  simp only [octants, CircleOffset, List.mem_cons, Prod.mk.injEq, List.not_mem_nil, or_false]
  omega

/-- R215: while `x ≤ y` an iteration plots its eight points and goes on; after that nothing is plotted. -/
theorem mem_circleFrom_succ {cx cy x y d : Int} {fuel : Nat} {p : Point} :
    p ∈ circleFrom cx cy (fuel + 1) x y d ↔
      x ≤ y ∧ (CircleOffset x y (p.1 - cx, p.2 - cy) ∨
        p ∈ if d < 0 then circleFrom cx cy fuel (x + 1) y (d + 2 * x + 3)
          else circleFrom cx cy fuel (x + 1) (y - 1) (d + 2 * (x - y) + 5)) := by
  rw [circleFrom]
  split
  · next hle => simp only [List.mem_append, mem_octants_iff, hle, true_and]
  · next hgt => simp only [List.not_mem_nil, hgt, false_and]

/-- Whatever the fuel, the loop plots only points of iterations that the unbounded loop reaches. -/
theorem CircleReaches.of_mem_circleFrom {cx cy r : Int} {p : Point} {fuel : Nat} :
    ∀ {x y d : Int}, CircleReaches r x y d → p ∈ circleFrom cx cy fuel x y d →
      ∃ x' y' d', CircleReaches r x' y' d' ∧ x' ≤ y' ∧ CircleOffset x' y' (p.1 - cx, p.2 - cy) := by
  induction fuel with
  | zero => exact fun _ hmem => absurd hmem List.not_mem_nil
  | succ fuel ih =>
    intro x y d hreach hmem
    obtain ⟨hle, hhere | hlater⟩ := mem_circleFrom_succ.mp hmem
    · exact ⟨x, y, d, hreach, hle, hhere⟩
    · split at hlater
      · next hneg => exact ih (hreach.straight hle hneg) hlater
      · next hpos => exact ih (hreach.diagonal hle hpos) hlater

/-- R267: `r + 1` iterations are enough. At each state that the unbounded loop reaches, the bounded one still has fuel for the
`y - x + 1` values of `x` that remain, and plots all that it plots from there. -/
theorem CircleReaches.circleFrom_subset {r x y d : Int} (cx cy : Int) (hr : 0 ≤ r) (h : CircleReaches r x y d) :
    ∃ fuel : Nat, y - x < fuel ∧ circleFrom cx cy fuel x y d ⊆ circlePoints cx cy r := by
  induction h with
  | start =>
    refine ⟨r.toNat + 1, by omega, ?_⟩
    rw [circlePoints, if_neg (Int.not_lt.mpr hr)]
    exact List.Subset.refl _
  | straight _ hle hneg ih =>
    obtain ⟨_ | fuel, hfuel, hsub⟩ := ih
    · omega
    · refine ⟨fuel, by omega, fun p hp => hsub (mem_circleFrom_succ.mpr ⟨hle, .inr ?_⟩)⟩
      rwa [if_pos hneg]
  | diagonal _ hle hpos ih =>
    obtain ⟨_ | fuel, hfuel, hsub⟩ := ih
    · omega
    · refine ⟨fuel, by omega, fun p hp => hsub (mem_circleFrom_succ.mpr ⟨hle, .inr ?_⟩)⟩
      rwa [if_neg hpos]

/-- R215: the points of the circle are those that the unbounded loop plots, none for a negative radius. -/
theorem mem_circlePoints_iff {cx cy r : Int} {p : Point} :
    p ∈ circlePoints cx cy r ↔
      0 ≤ r ∧ ∃ x y d, CircleReaches r x y d ∧ x ≤ y ∧ CircleOffset x y (p.1 - cx, p.2 - cy) := by
  constructor
  · intro hmem
    unfold circlePoints at hmem
    split at hmem
    · exact absurd hmem List.not_mem_nil
    · next hr => exact ⟨Int.not_lt.mp hr, CircleReaches.start.of_mem_circleFrom hmem⟩
  · rintro ⟨hr, x, y, d, hreach, hle, hoff⟩
    obtain ⟨_ | fuel, hfuel, hsub⟩ := hreach.circleFrom_subset cx cy hr
    · omega
    · exact hsub (mem_circleFrom_succ.mpr ⟨hle, .inl hoff⟩)

/-- Settles O45: the bounded loop plots what the unbounded one does. -/
theorem drawCircleSetsLoopPoints : Obligations.DrawCircleSetsLoopPoints :=
  ⟨rfl, fun _ hwf => ⟨_, rfl, fun _ _ hx hy => plotAll_sets_exactly hwf hx hy mem_circlePoints_iff⟩⟩

/-! ### `DRAW_LINE`: the arithmetic of the error term -/

/-- What R216's loop keeps, with `a` columns and `b` rows between the ends and `u` columns and `v` rows still to go. The error
term is `a - b` more than `b * u - a * v`, which measures how far the point is from the ideal line: at most half a pixel
along the longer side. -/
structure LineInv (a b u v err : Int) : Prop where
  u_nonneg : 0 ≤ u
  v_nonneg : 0 ≤ v
  u_le : u ≤ a
  v_le : v ≤ b
  err_eq : err = a - b + (b * u - a * v)
  lower : -max a b ≤ 2 * (b * u - a * v)
  upper : 2 * (b * u - a * v) ≤ max a b

namespace LineInv

variable {a b u v err : Int}

/-- R216: at the first end the error term is `dx + dy`. -/
theorem start (ha : 0 ≤ a) (hb : 0 ≤ b) : LineInv a b a b (a - b) := by
  have hcomm : b * a - a * b = 0 := by ring
  exact ⟨ha, hb, le_rfl, le_rfl, by omega, by omega, by omega⟩

/-- Columns and rows in each other's place: the error term changes its sign. -/
theorem swap (h : LineInv a b u v err) : LineInv b a v u (-err) where
  u_nonneg := h.v_nonneg
  v_nonneg := h.u_nonneg
  u_le := h.v_le
  v_le := h.u_le
  err_eq := by rw [h.err_eq]; ring
  lower := by have := h.upper; omega
  upper := by have := h.lower; omega

/-- On a line at least as wide as high, no more rows than columns are left. -/
theorem rows_le_columns (h : LineInv a b u v err) (hab : b ≤ a) : v ≤ u := by
  obtain ⟨hu, hv, -, hvb, -, hlo, -⟩ := h
  rw [max_eq_left hab] at hlo
  by_contra! hlt
  have hbu : b * u ≤ a * u := mul_le_mul_of_nonneg_right hab hu
  have hav : a * (u + 1) ≤ a * v := mul_le_mul_of_nonneg_left hlt (by omega)
  rw [mul_add, mul_one] at hav
  omega

/-- On such a line every move goes to the next column, and a column is left to go to. -/
theorem wide_moves_column (h : LineInv a b u v err) (hab : b ≤ a) (hgo : ¬ (u = 0 ∧ v = 0)) :
    -b ≤ 2 * err ∧ 0 < u := by
  have hvu := h.rows_le_columns hab
  obtain ⟨hu, hv, -, -, herr, hlo, -⟩ := h
  exact ⟨by omega, by omega⟩

/-- On such a line a move to the next row is made only if a row is left. -/
theorem row_left_of_wide_move (h : LineInv a b u v err) (hpos : 0 < u) (hrow : 2 * err ≤ a) :
    0 < v := by
  obtain ⟨-, hv, hua, hvb, herr, -, -⟩ := h
  by_contra! hv0
  obtain rfl : v = 0 := le_antisymm hv0 hv
  have hbu : b * 1 ≤ b * u := mul_le_mul_of_nonneg_left hpos hvb
  rw [mul_zero] at herr
  omega

/-- R216: one move keeps the invariant where the line is at least as wide as high. -/
theorem step_wide (h : LineInv a b u v err) (hab : b ≤ a) (hgo : ¬ (u = 0 ∧ v = 0)) :
    LineInv a b (u - 1) (if 2 * err ≤ a then v - 1 else v) (err + -b + if 2 * err ≤ a then a else 0) := by
  obtain ⟨-, hpos⟩ := h.wide_moves_column hab hgo
  have hleft := h.row_left_of_wide_move hpos
  obtain ⟨hu, hv, hua, hvb, herr, hlo, hhi⟩ := h
  have hbu : b * (u - 1) = b * u - b := by ring
  have hav : a * (v - 1) = a * v - a := by ring
  split
  · next hrow =>
    have := hleft hrow
    constructor <;> omega
  · constructor <;> omega

/-- R216: every move keeps the invariant (a line higher than wide is one wider than high, swapped), and the longer of the
two ways still to go gets shorter by one. -/
theorem step (h : LineInv a b u v err) (hgo : ¬ (u = 0 ∧ v = 0)) :
    LineInv a b (if -b ≤ 2 * err then u - 1 else u) (if 2 * err ≤ a then v - 1 else v)
      (err + (if -b ≤ 2 * err then -b else 0) + if 2 * err ≤ a then a else 0) ∧
    max (if -b ≤ 2 * err then u - 1 else u) (if 2 * err ≤ a then v - 1 else v) = max u v - 1 := by
  rcases le_total b a with hab | hba
  · obtain ⟨hcol, -⟩ := h.wide_moves_column hab hgo
    have hnext := h.step_wide hab hgo
    simp only [if_pos hcol]
    rw [max_eq_left (hnext.rows_le_columns hab), max_eq_left (h.rows_le_columns hab)]
    exact ⟨hnext, rfl⟩
  · have hgo' : ¬ (v = 0 ∧ u = 0) := fun hend => hgo hend.symm
    obtain ⟨hswapped, -⟩ := h.swap.wide_moves_column hba hgo'
    have hrow : 2 * err ≤ a := by omega
    have hcol : 2 * -err ≤ b ↔ -b ≤ 2 * err := by omega
    have hnext := (h.swap.step_wide hba hgo').swap
    have herr : -(-err + -a + if 2 * -err ≤ b then b else 0) = err + (if -b ≤ 2 * err then -b else 0) + a := by
      simp only [hcol]
      split <;> omega
    rw [herr] at hnext
    simp only [hcol] at hnext
    simp only [if_pos hrow]
    rw [max_eq_right (hnext.swap.rows_le_columns hba), max_eq_right (h.swap.rows_le_columns hba)]
    exact ⟨hnext, rfl⟩

end LineInv

/-! ### `DRAW_LINE`: the loop -/

/-- How many steps of `lineSign z₁ z₂` lead from the coordinate `z` to `z₂`. -/
def lineLeft (z₁ z₂ z : Int) : Int := lineSign z₁ z₂ * (z₂ - z)

theorem lineLeft_start (z₁ z₂ : Int) : lineLeft z₁ z₂ z₁ = |z₂ - z₁| := by
  rw [← Int.natCast_natAbs]
  unfold lineLeft lineSign
  split <;> omega

theorem lineLeft_eq_zero {z₁ z₂ z : Int} : lineLeft z₁ z₂ z = 0 ↔ z = z₂ := by
  unfold lineLeft lineSign
  split <;> omega

theorem lineLeft_move (z₁ z₂ z : Int) (c : Prop) [Decidable c] :
    lineLeft z₁ z₂ (if c then z + lineSign z₁ z₂ else z) = if c then lineLeft z₁ z₂ z - 1 else lineLeft z₁ z₂ z := by
  unfold lineLeft lineSign
  split <;> split <;> omega

section

variable {x1 y1 x2 y2 : Int}

/-- Every state that R216's loop reaches meets the invariant. -/
theorem LineReaches.inv {x y err : Int} (h : LineReaches x1 y1 x2 y2 x y err) :
    LineInv |x2 - x1| |y2 - y1| (lineLeft x1 x2 x) (lineLeft y1 y2 y) err := by
  induction h with
  | start =>
    rw [lineLeft_start, lineLeft_start]
    exact LineInv.start (abs_nonneg _) (abs_nonneg _)
  | move _ hgo ih =>
    rw [lineLeft_move, lineLeft_move]
    exact (ih.step (by rwa [lineLeft_eq_zero, lineLeft_eq_zero])).1

/-- R216's loop with the step sizes and signs of the line from `(x1, y1)` to `(x2, y2)`. -/
def lineLoop (x1 y1 x2 y2 : Int) : Nat → Int → Int → Int → List Point :=
  lineFrom x2 y2 |x2 - x1| (-|y2 - y1|) (lineSign x1 x2) (lineSign y1 y2)

theorem linePoints_eq_lineLoop (x1 y1 x2 y2 : Int) :
    linePoints x1 y1 x2 y2 =
      lineLoop x1 y1 x2 y2 (max (x2 - x1).natAbs (y2 - y1).natAbs + 1) x1 y1 (|x2 - x1| + -|y2 - y1|) := by
  simp only [linePoints, lineLoop, lineSign, Int.natCast_natAbs]

/-- R216: an iteration plots its point and, short of the second end, goes on. -/
theorem mem_lineLoop_succ {x y err : Int} {fuel : Nat} {p : Point} :
    p ∈ lineLoop x1 y1 x2 y2 (fuel + 1) x y err ↔
      p = (x, y) ∨ ¬ (x = x2 ∧ y = y2) ∧ p ∈ lineLoop x1 y1 x2 y2 fuel
        (if 2 * err ≥ -|y2 - y1| then x + lineSign x1 x2 else x)
        (if 2 * err ≤ |x2 - x1| then y + lineSign y1 y2 else y)
        (err + (if 2 * err ≥ -|y2 - y1| then -|y2 - y1| else 0) + (if 2 * err ≤ |x2 - x1| then |x2 - x1| else 0)) := by
  rw [lineLoop, lineFrom, List.mem_cons]
  split
  · next hend => simp only [List.not_mem_nil, hend, and_self, not_true_eq_false, false_and]
  · next hgo => simp only [decide_eq_true_eq, ge_iff_le, hgo, not_false_eq_true, true_and]

/-- Whatever the fuel, the loop plots only points that the unbounded loop reaches. -/
theorem LineReaches.of_mem_lineLoop {p : Point} {fuel : Nat} :
    ∀ {x y err : Int}, LineReaches x1 y1 x2 y2 x y err → p ∈ lineLoop x1 y1 x2 y2 fuel x y err →
      ∃ err', LineReaches x1 y1 x2 y2 p.1 p.2 err' := by
  induction fuel with
  | zero => exact fun _ hmem => absurd hmem List.not_mem_nil
  | succ fuel ih =>
    intro x y err hreach hmem
    obtain rfl | ⟨hgo, hlater⟩ := mem_lineLoop_succ.mp hmem
    · exact ⟨err, hreach⟩
    · exact ih (hreach.move hgo) hlater

/-- R216, R267: `max(|x2-x1|, |y2-y1|)` moves are enough. At each state that the unbounded loop reaches, the bounded one still has
fuel for the moves left, and plots all that it plots from there. -/
theorem LineReaches.lineLoop_subset {x y err : Int} (h : LineReaches x1 y1 x2 y2 x y err) :
    ∃ fuel : Nat, max (lineLeft x1 x2 x) (lineLeft y1 y2 y) < fuel ∧
      lineLoop x1 y1 x2 y2 fuel x y err ⊆ linePoints x1 y1 x2 y2 := by
  induction h with
  | start =>
    refine ⟨max (x2 - x1).natAbs (y2 - y1).natAbs + 1, ?_, (linePoints_eq_lineLoop x1 y1 x2 y2).symm ▸ List.Subset.refl _⟩
    rw [lineLeft_start, lineLeft_start, ← Int.natCast_natAbs, ← Int.natCast_natAbs]
    omega
  | move hreach hgo ih =>
    have hinv := hreach.inv
    have hleft := hinv.u_nonneg
    obtain ⟨_ | fuel, hfuel, hsub⟩ := ih
    · omega
    · refine ⟨fuel, ?_, fun p hp => hsub (mem_lineLoop_succ.mpr (.inr ⟨hgo, hp⟩))⟩
      have hfewer := (hinv.step (by rwa [lineLeft_eq_zero, lineLeft_eq_zero])).2
      rw [lineLeft_move, lineLeft_move]
      simp only [ge_iff_le, hfewer]
      omega

/-- R216: the points of the line are those that the unbounded loop reaches. -/
theorem mem_linePoints_iff {p : Point} :
    p ∈ linePoints x1 y1 x2 y2 ↔ ∃ err, LineReaches x1 y1 x2 y2 p.1 p.2 err := by
  constructor
  · rw [linePoints_eq_lineLoop]
    exact LineReaches.start.of_mem_lineLoop
  · rintro ⟨err, hreach⟩
    have hleft := hreach.inv.u_nonneg
    obtain ⟨_ | fuel, hfuel, hsub⟩ := hreach.lineLoop_subset
    · omega
    · exact hsub (mem_lineLoop_succ.mpr (.inl rfl))

end

/-- Settles O46: the bounded loop plots what the unbounded one does. -/
theorem drawLineSetsLoopPoints : Obligations.DrawLineSetsLoopPoints :=
  ⟨rfl, fun _ hwf => ⟨_, rfl, fun _ _ hx hy => plotAll_sets_exactly hwf hx hy mem_linePoints_iff⟩⟩

end Sys2Proof.Machine
end

section
/-! SUPPORT. Where the end of the code region cuts an instruction short (60_exceptions.md R233), what each instruction can do to
`STATUS` (R236, R238), and O13 and O50. -/

namespace Sys2Proof

/-! ### Parsers on a code that is cut short -/

/-- R87: wherever `code` is cut off before its end, the parser asks for the byte that is missing. -/
def CutShort {α : Type} (parse : List Byte → Except DecodeError α) (code : List Byte) : Prop :=
  ∀ k < code.length, parse (code.take k) = .error .truncated

namespace CutShort

section
variable {α β : Type} {code : List Byte}

theorem nil {parse : List Byte → Except DecodeError α} : CutShort parse [] :=
  fun _ hk => absurd hk (Nat.not_lt_zero _)

/-- The first byte is missing, or it is there and the cut is after it. -/
theorem cons {parse : List Byte → Except DecodeError α} {b : Byte} (hnil : parse [] = .error .truncated)
    (h : CutShort (fun bs => parse (b :: bs)) code) : CutShort parse (b :: code)
  | 0, _ => hnil
  | k + 1, hk => h k (Nat.lt_of_succ_lt_succ hk)

/-- What follows a parser is not reached where the cut is in the parser's own code. -/
theorem bind {parse : List Byte → Except DecodeError α} (h : CutShort parse code) (next : α → Except DecodeError β) :
    CutShort (fun bs => parse bs >>= next) code :=
  fun k hk => congrArg (· >>= next) (h k hk)

/-- Two parsers in a row: the cut is in the code of the first, or the first answers and it is in the code of the second. -/
theorem seq {parse : List Byte → Except DecodeError (α × List Byte)} {a : α} {code₂ : List Byte}
    {next : α × List Byte → Except DecodeError β} (h : CutShort parse code)
    (hok : ∀ rest, parse (code ++ rest) = .ok (a, rest)) (hnext : CutShort (fun rest => next (a, rest)) code₂) :
    CutShort (fun bs => parse bs >>= next) (code ++ code₂) := by
  intro k hk
  rcases Nat.lt_or_ge k code.length with hfirst | hsecond
  · rw [List.take_append_of_le_length hfirst.le]
    exact h.bind next k hfirst
  · obtain ⟨j, rfl⟩ := Nat.exists_eq_add_of_le hsecond
    rw [List.length_append] at hk
    rw [List.take_length_add_append]
    exact (congrArg (· >>= next) (hok _)).trans (hnext j (Nat.lt_of_add_lt_add_left hk))

end

/-! ### Operands and formats -/

theorem word (v : Word) : CutShort takeWord (encodeWord v) :=
  cons rfl (cons rfl nil)

theorem memRef (cls : OperandClass) : ∀ m, CutShort (decodeOperand cls) (encodeMemRef m)
  | .abs v => cons rfl ((word v).bind _)
  | .ind _ => cons rfl nil
  | .fpRel d => cons rfl ((word d).bind _)

theorem src : ∀ r, CutShort decodeSrc (encodeSrc r)
  | .reg _ => cons rfl nil
  | .imm v => cons rfl ((word v).bind _)
  | .mem m => memRef .src m

theorem dst : ∀ d, CutShort decodeDst (encodeDst d)
  | .reg _ => (cons rfl nil).bind _
  | .mem m => (memRef .dst m).bind _

/-- Format FT. -/
theorem target (mk : Word → Instr) (t : Word) : CutShort (decodeTarget mk) (encodeWord t) :=
  (word t).bind _

/-- Format F1 with a SRC operand. -/
theorem oneSrc (mk : Src → Instr) (r : Src) : CutShort (decodeOneSrc mk) (encodeSrc r) :=
  (src r).bind _

/-- Format F1 with a DST operand. -/
theorem oneDst (mk : Dst → Instr) (d : Dst) : CutShort (decodeOneDst mk) (encodeDst d) :=
  (dst d).bind _

/-- Format F2 with a DST and a SRC operand. -/
theorem dstSrc (mk : Dst → Src → Instr) (d : Dst) (r : Src) : CutShort (decodeDstSrc mk) (encodeDst d ++ encodeSrc r) :=
  (dst d).seq (decodeDst_encodeDst d) ((src r).bind _)

/-- Format F2 with two SRC operands. -/
theorem srcSrc (mk : Src → Src → Instr) (a b : Src) : CutShort (decodeSrcSrc mk) (encodeSrc a ++ encodeSrc b) :=
  (src a).seq (decodeSrc_encodeSrc a) ((src b).bind _)

/-- Format FS. -/
theorem sysno (n : Byte) : CutShort decodeSystem [n] :=
  cons rfl nil

end CutShort

/-- R86, R233: where an instruction is cut off before its end, the decoder asks for the byte that is missing. -/
theorem cutShort_encode (i : Instr) : CutShort decode (encode i) := by
  cases i with
  | halt | ret => exact .cons rfl .nil
  | mov d r => exact .cons rfl (.dstSrc .mov d r)
  | add d r => exact .cons rfl (.dstSrc .add d r)
  | sub d r => exact .cons rfl (.dstSrc .sub d r)
  | cmp a b => exact .cons rfl (.srcSrc .cmp a b)
  | mul r => exact .cons rfl (.oneSrc .mul r)
  | push r => exact .cons rfl (.oneSrc .push r)
  | inc d => exact .cons rfl (.oneDst .inc d)
  | dec d => exact .cons rfl (.oneDst .dec d)
  | pop d => exact .cons rfl (.oneDst .pop d)
  | jmp t => exact .cons rfl (.target .jmp t)
  | je t => exact .cons rfl (.target .je t)
  | jne t => exact .cons rfl (.target .jne t)
  | jl t => exact .cons rfl (.target .jl t)
  | jle t => exact .cons rfl (.target .jle t)
  | jg t => exact .cons rfl (.target .jg t)
  | jge t => exact .cons rfl (.target .jge t)
  | loop t => exact .cons rfl (.target .loop t)
  | call t => exact .cons rfl (.target .call t)
  | _ => exact .cons rfl (.sysno _)

/-! ### The named syscalls -/

/-- R93: the instructions of the twelve assigned numbers. -/
def namedSyscalls : List Instr := [.sysAtoi, .sysPrintInt, .sysPrintChar, .sysPrintString, .sysExit, .sysReadFile,
  .sysClearScreen, .sysSetColor, .sysDrawRect, .sysDrawCircle, .sysDrawLine, .sysPaintDisplay]

theorem decodeSysno_mem_namedSyscalls {n : Byte} (h : ¬ UnassignedSysno n) : decodeSysno n ∈ namedSyscalls := by
  have hassigned : ∀ k < 0x0C, decodeSysno (BitVec.ofNat 8 k) ∈ namedSyscalls := by decide
  have hn := hassigned n.toNat (Nat.lt_of_not_le h)
  rwa [BitVec.ofNat_toNat, BitVec.setWidth_eq] at hn

namespace Machine

/-! ### Fetch at the end of the code region -/

/-- R59: where the code region ends with the bytes `bs`, `Fetch8` delivers no byte after them. -/
theorem State.codeBytes_of_codeEnd_le {s : State} {bs : List Byte} {a : Nat} (n : Nat) (hcode : s.HoldsCode a bs)
    (hend : s.params.codeEnd ≤ a + bs.length) : s.codeBytes n a = bs.take n := by
  induction n generalizing bs a with
  | zero => rfl
  | succ n ih =>
    cases bs with
    | nil => exact if_pos hend
    | cons b bs =>
      obtain ⟨hlt, hb, htail⟩ := State.holdsCode_cons hcode
      have hrest : s.params.codeEnd ≤ a + 1 + bs.length := by rwa [Nat.add_right_comm]
      rw [State.codeBytes, if_neg (Nat.not_le_of_lt hlt), hb, ih htail hrest, List.take_succ_cons]

/-- R59, R233: a running machine fails with `ImageOverrun` where the code region ends before the decoder has all its bytes. -/
theorem step_of_truncated {s : State} {bs : List Byte} (hrun : s.status = .running) (hpar : s.params.consistent = true)
    (hcode : s.HoldsCode s.pc.toNat bs) (hend : s.params.codeEnd ≤ s.pc.toNat + bs.length)
    (hdec : decode (bs.take maxInstrBytes) = .error .truncated) : step s = .next (s.fail .imageOverrun) := by
  have hfetch : s.fetch = .error .imageOverrun := by
    rw [State.fetch, State.codeBytes_of_codeEnd_le _ hcode hend, hdec]
    rfl
  simp [step, hrun, hpar, hfetch]

/-- Settles O13: at or above `CODE_END` no byte is delivered, and inside an instruction only its first bytes. -/
theorem codeRegionBoundsFetch : Obligations.CodeRegionBoundsFetch := by
  refine fun s hrun hpar => ⟨fun hend => ?outside, fun i k _ hk hend hcode => ?inside⟩
  case outside =>
    exact step_of_truncated (bs := []) hrun hpar (fun _ h => absurd h (Nat.not_lt_zero _)) hend rfl
  case inside =>
    have hlen : ((encode i).take k).length = k := List.length_take_of_le hk.le
    refine step_of_truncated hrun hpar hcode (by rw [hlen, hend]) ?_
    rw [List.take_take]
    exact cutShort_encode i _ ((Nat.min_le_right _ _).trans_lt hk)

/-! ### What an instruction can do to `STATUS` -/

/-- R180, R236, R238: the instruction `i` keeps `STATUS`, or writes `STATUS` and nothing else. -/
def StopsPrecisely (i : Instr) (s : State) : Prop :=
  ∀ t, exec i s = .next t → t.status = s.status ∨ t = s.halt ∨ ∃ f, t = s.fail f

namespace StopsPrecisely
variable {i : Instr} {s : State}

theorem of_status {u : State} (hexec : exec i s = .next u) (hstatus : u.status = s.status) : StopsPrecisely i s := by
  intro t h
  cases h.symm.trans hexec
  exact .inl hstatus

theorem of_halt (hexec : exec i s = .next s.halt) : StopsPrecisely i s := by
  intro t h
  cases h.symm.trans hexec
  exact .inr (.inl rfl)

theorem of_fail {f : Failure} (hexec : exec i s = .next (s.fail f)) : StopsPrecisely i s := by
  intro t h
  cases h.symm.trans hexec
  exact .inr (.inr ⟨f, rfl⟩)

theorem of_combines {f : Word → Word → AluOut} {d : Dst} {r : Src} (hi : Combines i f d r) : StopsPrecisely i s := by
  rcases hi.exec_cases s with ⟨-, -, hexec⟩ | ⟨-, hexec⟩
  · obtain ⟨-, ⟨-, hstatus⟩, -⟩ := s.combined_other i f d r
    exact of_status hexec hstatus
  · exact of_fail hexec

theorem of_jumpsWhen {target : Word} {cond : Flags → Bool} (hi : JumpsWhen i target cond) : StopsPrecisely i s :=
  of_status (hi s) (State.jumpIf_status _ _ _)

theorem mov (d : Dst) (r : Src) : StopsPrecisely (.mov d r) s := by
  rcases exec_mov_cases d r s with ⟨-, -, hexec⟩ | ⟨-, hexec⟩
  · obtain ⟨-, ⟨-, hstatus⟩, -⟩ := s.moved_other d r
    exact of_status hexec hstatus
  · exact of_fail hexec

theorem mul (r : Src) : StopsPrecisely (.mul r) s := by
  by_cases hr : s.SrcInRange r
  · exact of_status (exec_mul_inRange hr) rfl
  · exact of_fail (exec_mul_outOfRange hr)

theorem cmp (a b : Src) : StopsPrecisely (.cmp a b) s := by
  rcases exec_cmp_cases a b s with ⟨-, -, hexec⟩ | ⟨-, hexec⟩
  · exact of_status hexec rfl
  · exact of_fail hexec

theorem loop (target : Word) : StopsPrecisely (.loop target) s := by
  obtain ⟨-, hstatus, -⟩ := s.looped_other target
  exact of_status (exec_loop target s) hstatus

theorem call (target : Word) : StopsPrecisely (.call target) s := by
  rcases exec_call_cases target s with ⟨-, hexec⟩ | ⟨-, hexec⟩
  · exact of_status hexec rfl
  · exact of_fail hexec

theorem ret : StopsPrecisely .ret s := by
  rcases exec_ret_cases s with ⟨-, hexec⟩ | ⟨-, hexec⟩ | ⟨-, -, hexec⟩
  · exact of_status hexec rfl
  · exact of_fail hexec
  · exact of_fail hexec

theorem push (r : Src) : StopsPrecisely (.push r) s := by
  rcases exec_push_cases r s with ⟨-, -, hexec⟩ | ⟨-, hexec⟩
  · exact of_status hexec rfl
  · exact of_fail hexec

theorem pop (d : Dst) : StopsPrecisely (.pop d) s := by
  rcases s.stackTop_cases with ⟨hcan, -⟩ | ⟨-, htop⟩ | ⟨-, -, htop⟩
  · rcases exec_pop_cases d hcan with ⟨-, hexec⟩ | ⟨-, hexec⟩
    · obtain ⟨-, -, hstatus, -⟩ := s.putPopped_other d (s.wordAt (s.reg .sp).toNat)
      exact of_status hexec hstatus
    · exact of_fail hexec
  · exact of_fail (exec_pop_of_stackTop_error d htop)
  · exact of_fail (exec_pop_of_stackTop_error d htop)

/-- R182, R183: `EXIT` halts; the row of every other named syscall keeps `STATUS`, unless the syscall fails. -/
theorem named (hi : i ∈ namedSyscalls) : StopsPrecisely i s := by
  by_cases hexit : i = .sysExit
  · subst hexit
    exact of_halt rfl
  · exact fun t h => ((writesOnlyItsRow_of_exec hi h).status hexit).imp_right .inr

/-- R181: `SYSCALL` with any number is the named syscall of that number, or fails. -/
theorem syscall (n : Byte) : StopsPrecisely (.syscall n) s := by
  by_cases hn : UnassignedSysno n
  · exact of_fail (exec_syscall_of_unassigned hn s)
  · exact fun t h => named (decodeSysno_mem_namedSyscalls hn) t ((exec_syscall n s).symm.trans h)

end StopsPrecisely

/-- R180, R236, R238: every instruction keeps `STATUS`, or writes `STATUS` and nothing else. -/
theorem stopsPrecisely (i : Instr) (s : State) : StopsPrecisely i s := by
  cases i with
  | halt => exact .of_halt rfl
  | mov d r => exact .mov d r
  | add d r => exact .of_combines (add_combines d r)
  | sub d r => exact .of_combines (sub_combines d r)
  | inc d => exact .of_combines (inc_combines d)
  | dec d => exact .of_combines (dec_combines d)
  | mul r => exact .mul r
  | cmp a b => exact .cmp a b
  | jmp t => exact .of_status rfl rfl
  | je t => exact .of_jumpsWhen (je_jumpsWhen t)
  | jne t => exact .of_jumpsWhen (jne_jumpsWhen t)
  | jl t => exact .of_jumpsWhen (jl_jumpsWhen t)
  | jle t => exact .of_jumpsWhen (jle_jumpsWhen t)
  | jg t => exact .of_jumpsWhen (jg_jumpsWhen t)
  | jge t => exact .of_jumpsWhen (jge_jumpsWhen t)
  | loop t => exact .loop t
  | call t => exact .call t
  | ret => exact .ret
  | push r => exact .push r
  | pop d => exact .pop d
  | syscall n => exact .syscall n
  | _ => exact .named (by decide)

/-! ### What a step can do -/

/-- R12, R236, all that the step of a running machine can do: the fetched instruction, or a failure of the fetch. -/
theorem step_cases {s t : State} (hrun : s.status = .running) (h : step s = .next t) :
    (∃ i, s.fetch = .ok i ∧ exec i s = .next t) ∨ ∃ f, s.fetch = .error f ∧ t = s.fail f := by
  rw [step, if_neg (not_not_intro hrun)] at h
  split at h
  · cases h
  · cases hfetch : s.fetch with
    | ok i => exact .inl ⟨i, rfl, by rwa [hfetch] at h⟩
    | error f =>
      rw [hfetch] at h
      cases h
      exact .inr ⟨f, rfl, rfl⟩

/-- Settles O50: a running machine is neither failed nor halted, so the step that ends in a failure is `State.fail`. -/
theorem failuresArePrecise : Obligations.FailuresArePrecise := by
  intro s t f hrun hstep hfailed
  have hfail : ∃ g, t = s.fail g := by
    rcases step_cases hrun hstep with ⟨i, -, hexec⟩ | ⟨g, -, hg⟩
    · rcases stopsPrecisely i s t hexec with hstatus | hhalt | hfail
      · exact nomatch (hfailed.symm.trans hstatus).trans hrun
      · exact nomatch hfailed.symm.trans (congrArg State.status hhalt)
      · exact hfail
    · exact ⟨g, hg⟩
  obtain ⟨g, rfl⟩ := hfail
  cases hfailed
  rfl

end Machine

end Sys2Proof
end


section
/-! SUPPORT. The decoder and the encoder undo each other (30_encoding.md sections 1 to 5, 92_eei_decisions.md D16), and O8, O9,
O10 and O6. -/

namespace Sys2Proof

/-! ### Bytes that a parser reads -/

/-- R87: whatever the parser answers, it has read the encoding of its answer. -/
def ReadsEncoding {α : Type} (parse : List Byte → Except DecodeError (α × List Byte)) (enc : α → List Byte) : Prop :=
  ∀ {bs rest : List Byte} {a : α}, parse bs = .ok (a, rest) → bs = enc a ++ rest

theorem eq_ok_of_bind_eq_ok {α β : Type} {x : Except DecodeError α} {f : α → Except DecodeError β} {b : β}
    (h : (x >>= f) = .ok b) : ∃ a, x = .ok a ∧ f a = .ok b := by
  cases x with
  | ok a => exact ⟨a, rfl, h⟩
  | error e => cases h

namespace ReadsEncoding

theorem word : ReadsEncoding takeWord encodeWord := by
  intro bs rest v h
  unfold takeWord at h
  split at h
  next lo hi tail =>
    cases h
    simp [encodeWord]
  next => cases h

/-- R83: a specifier byte of the modes 1, 2 and 4 and the word after it. -/
theorem specifier_word {s : Byte} {m : BitVec 4} {bs rest : List Byte} {v : Word} (hmode : specMode s = m)
    (hreg : specReg s = 0#4) (h : takeWord bs = .ok (v, rest)) : s :: bs = specByte m 0 :: encodeWord v ++ rest := by
  rw [word h, ← specByte_specMode_specReg s, hmode, hreg]
  rfl

/-- R83: a specifier byte of the modes 0 and 3. -/
theorem specifier_register {s : Byte} {m : BitVec 4} {r : Reg} (hmode : specMode s = m)
    (hreg : Reg.ofNumber (specReg s) = some r) (rest : List Byte) : s :: rest = [specByte m r.number] ++ rest := by
  rw [Reg.number_of_ofNumber hreg, ← hmode, specByte_specMode_specReg]
  rfl

/-- R87: mode by mode, the specifier byte and the payload are those of the operand. -/
theorem operand (cls : OperandClass) : ReadsEncoding (decodeOperand cls) encodeSrc := by
  intro bs rest o h
  cases bs with
  | nil => cases h
  | cons s bs =>
    unfold decodeOperand at h
    dsimp only at h
    split at h
    next hmode =>
      split at h
      next => cases h
      next r hreg => cases h; exact specifier_register hmode hreg _
    next hmode =>
      split_ifs at h with hreg hdst
      obtain ⟨⟨v, tail⟩, hword, hv⟩ := eq_ok_of_bind_eq_ok h
      cases hv
      exact specifier_word hmode (not_not.mp hreg) hword
    next hmode =>
      split_ifs at h with hreg
      obtain ⟨⟨v, tail⟩, hword, hv⟩ := eq_ok_of_bind_eq_ok h
      cases hv
      exact specifier_word hmode (not_not.mp hreg) hword
    next hmode =>
      split at h
      next => cases h
      next r hreg => cases h; exact specifier_register hmode hreg _
    next hmode =>
      split_ifs at h with hreg
      obtain ⟨⟨v, tail⟩, hword, hv⟩ := eq_ok_of_bind_eq_ok h
      cases hv
      exact specifier_word hmode (not_not.mp hreg) hword
    next => cases h

theorem src : ReadsEncoding decodeSrc encodeSrc := operand .src

theorem dst : ReadsEncoding decodeDst encodeDst := by
  intro bs rest d h
  obtain ⟨⟨o, tail⟩, hoperand, ho⟩ := eq_ok_of_bind_eq_ok h
  have hbs := operand .dst hoperand
  cases o with
  | reg r => cases ho; exact hbs
  | imm v => cases ho
  | mem m => cases ho; exact hbs

end ReadsEncoding

/-! ### Bytes that the decoder reads -/

/-- D16: whatever instruction a format answers after the opcode `op`, it is well formed and its encoding has been read. -/
def ReadsInstr (op : Byte) (parse : List Byte → Except DecodeError (Instr × List Byte)) : Prop :=
  ∀ {bs rest : List Byte} {i : Instr}, parse bs = .ok (i, rest) → i.WellFormed ∧ op :: bs = encode i ++ rest

namespace ReadsInstr

variable {op : Byte}

/-- Format F0. -/
theorem bare (i : Instr) (henc : i.WellFormed ∧ encode i = [op]) : ReadsInstr op fun bs => .ok (i, bs) := by
  intro bs rest j h
  cases h
  exact henc.imp_right fun hop => by rw [hop]; rfl

/-- Format FT. -/
theorem target (mk : Word → Instr) (henc : ∀ t, (mk t).WellFormed ∧ encode (mk t) = op :: encodeWord t) :
    ReadsInstr op (decodeTarget mk) := by
  intro bs rest i h
  obtain ⟨⟨t, tail⟩, hword, hi⟩ := eq_ok_of_bind_eq_ok h
  cases hi
  exact (henc t).imp_right fun hop => by rw [hop, ReadsEncoding.word hword]; rfl

/-- Format F1 with a SRC operand. -/
theorem oneSrc (mk : Src → Instr) (henc : ∀ r, (mk r).WellFormed ∧ encode (mk r) = op :: encodeSrc r) :
    ReadsInstr op (decodeOneSrc mk) := by
  intro bs rest i h
  obtain ⟨⟨r, tail⟩, hsrc, hi⟩ := eq_ok_of_bind_eq_ok h
  cases hi
  exact (henc r).imp_right fun hop => by rw [hop, ReadsEncoding.src hsrc]; rfl

/-- Format F1 with a DST operand. -/
theorem oneDst (mk : Dst → Instr) (henc : ∀ d, (mk d).WellFormed ∧ encode (mk d) = op :: encodeDst d) :
    ReadsInstr op (decodeOneDst mk) := by
  intro bs rest i h
  obtain ⟨⟨d, tail⟩, hdst, hi⟩ := eq_ok_of_bind_eq_ok h
  cases hi
  exact (henc d).imp_right fun hop => by rw [hop, ReadsEncoding.dst hdst]; rfl

/-- Format F2 with a DST and a SRC operand. -/
theorem dstSrc (mk : Dst → Src → Instr)
    (henc : ∀ d r, (mk d r).WellFormed ∧ encode (mk d r) = op :: (encodeDst d ++ encodeSrc r)) :
    ReadsInstr op (decodeDstSrc mk) := by
  intro bs rest i h
  obtain ⟨⟨d, tail⟩, hdst, h⟩ := eq_ok_of_bind_eq_ok h
  obtain ⟨⟨r, tail⟩, hsrc, hi⟩ := eq_ok_of_bind_eq_ok h
  cases hi
  refine (henc d r).imp_right fun hop => ?_
  rw [hop, ReadsEncoding.dst hdst, ReadsEncoding.src hsrc, List.cons_append, List.append_assoc]

/-- Format F2 with two SRC operands. -/
theorem srcSrc (mk : Src → Src → Instr)
    (henc : ∀ a b, (mk a b).WellFormed ∧ encode (mk a b) = op :: (encodeSrc a ++ encodeSrc b)) :
    ReadsInstr op (decodeSrcSrc mk) := by
  intro bs rest i h
  obtain ⟨⟨a, tail⟩, ha, h⟩ := eq_ok_of_bind_eq_ok h
  obtain ⟨⟨b, tail⟩, hb, hi⟩ := eq_ok_of_bind_eq_ok h
  cases hi
  refine (henc a b).imp_right fun hop => ?_
  rw [hop, ReadsEncoding.src ha, ReadsEncoding.src hb, List.cons_append, List.append_assoc]

end ReadsInstr

/-- R93: a number decodes to a well-formed instruction that is encoded with that number. -/
theorem decodeSysno_spec (n : Byte) : (decodeSysno n).WellFormed ∧ encode (decodeSysno n) = [0x50, n] := by
  by_cases hn : UnassignedSysno n
  · rw [decodeSysno_of_unassigned hn]
    exact ⟨hn, rfl⟩
  · have hassigned : ∀ k < 0x0C, (decodeSysno (BitVec.ofNat 8 k)).wellFormed = true ∧
        encode (decodeSysno (BitVec.ofNat 8 k)) = [0x50, BitVec.ofNat 8 k] := by decide
    have hk := hassigned n.toNat (Nat.lt_of_not_le hn)
    rwa [BitVec.ofNat_toNat, BitVec.setWidth_eq, Instr.wellFormed_iff] at hk

/-- Format FS. -/
theorem ReadsInstr.system : ReadsInstr 0x50 decodeSystem := by
  intro bs rest i h
  cases bs with
  | nil => cases h
  | cons n bs =>
    cases h
    obtain ⟨hwf, henc⟩ := decodeSysno_spec n
    exact ⟨hwf, by rw [henc]; rfl⟩

/-- D16: bytes that decode are the encoding of the decoded instruction and what follows it. Opcode by opcode, by the format
of R82. -/
theorem eq_encode_of_decode {bs rest : List Byte} {i : Instr} (h : decode bs = .ok (i, rest)) :
    i.WellFormed ∧ bs = encode i ++ rest := by
  cases bs with
  | nil => cases h
  | cons op bs =>
    unfold decode at h
    dsimp only at h
    split at h
    · exact ReadsInstr.bare .halt ⟨trivial, rfl⟩ h
    · exact ReadsInstr.dstSrc .mov (fun _ _ => ⟨trivial, rfl⟩) h
    · exact ReadsInstr.dstSrc .add (fun _ _ => ⟨trivial, rfl⟩) h
    · exact ReadsInstr.dstSrc .sub (fun _ _ => ⟨trivial, rfl⟩) h
    · exact ReadsInstr.oneSrc .mul (fun _ => ⟨trivial, rfl⟩) h
    · exact ReadsInstr.oneDst .inc (fun _ => ⟨trivial, rfl⟩) h
    · exact ReadsInstr.oneDst .dec (fun _ => ⟨trivial, rfl⟩) h
    · exact ReadsInstr.srcSrc .cmp (fun _ _ => ⟨trivial, rfl⟩) h
    · exact ReadsInstr.target .jmp (fun _ => ⟨trivial, rfl⟩) h
    · exact ReadsInstr.target .je (fun _ => ⟨trivial, rfl⟩) h
    · exact ReadsInstr.target .jne (fun _ => ⟨trivial, rfl⟩) h
    · exact ReadsInstr.target .jl (fun _ => ⟨trivial, rfl⟩) h
    · exact ReadsInstr.target .jle (fun _ => ⟨trivial, rfl⟩) h
    · exact ReadsInstr.target .jg (fun _ => ⟨trivial, rfl⟩) h
    · exact ReadsInstr.target .jge (fun _ => ⟨trivial, rfl⟩) h
    · exact ReadsInstr.target .loop (fun _ => ⟨trivial, rfl⟩) h
    · exact ReadsInstr.target .call (fun _ => ⟨trivial, rfl⟩) h
    · exact ReadsInstr.bare .ret ⟨trivial, rfl⟩ h
    · exact ReadsInstr.oneSrc .push (fun _ => ⟨trivial, rfl⟩) h
    · exact ReadsInstr.oneDst .pop (fun _ => ⟨trivial, rfl⟩) h
    · exact ReadsInstr.system h
    · cases h

/-! ### Encodings are read back -/

/-- Format FT. -/
theorem decodeTarget_encodeWord (mk : Word → Instr) (t : Word) (rest : List Byte) :
    decodeTarget mk (encodeWord t ++ rest) = .ok (mk t, rest) :=
  congrArg (· >>= _) (takeWord_encodeWord t rest)

/-- Format F1 with a SRC operand. -/
theorem decodeOneSrc_encodeSrc (mk : Src → Instr) (r : Src) (rest : List Byte) :
    decodeOneSrc mk (encodeSrc r ++ rest) = .ok (mk r, rest) :=
  congrArg (· >>= _) (decodeSrc_encodeSrc r rest)

/-- Format F1 with a DST operand. -/
theorem decodeOneDst_encodeDst (mk : Dst → Instr) (d : Dst) (rest : List Byte) :
    decodeOneDst mk (encodeDst d ++ rest) = .ok (mk d, rest) :=
  congrArg (· >>= _) (decodeDst_encodeDst d rest)

/-- Format F2 with a DST and a SRC operand. -/
theorem decodeDstSrc_encode (mk : Dst → Src → Instr) (d : Dst) (r : Src) (rest : List Byte) :
    decodeDstSrc mk (encodeDst d ++ encodeSrc r ++ rest) = .ok (mk d r, rest) := by
  rw [List.append_assoc]
  exact (congrArg (· >>= _) (decodeDst_encodeDst d _)).trans (decodeOneSrc_encodeSrc (mk d) r rest)

/-- Format F2 with two SRC operands. -/
theorem decodeSrcSrc_encode (mk : Src → Src → Instr) (a b : Src) (rest : List Byte) :
    decodeSrcSrc mk (encodeSrc a ++ encodeSrc b ++ rest) = .ok (mk a b, rest) := by
  rw [List.append_assoc]
  exact (congrArg (· >>= _) (decodeSrc_encodeSrc a _)).trans (decodeOneSrc_encodeSrc (mk a) b rest)

/-- Settles O8: by the format of each instruction; a well-formed `syscall` has a number that none of the twelve takes. -/
theorem decodeEncodeRoundTrip : Obligations.DecodeEncodeRoundTrip := by
  intro i rest hwf
  cases i with
  | mov d r => exact decodeDstSrc_encode .mov d r rest
  | add d r => exact decodeDstSrc_encode .add d r rest
  | sub d r => exact decodeDstSrc_encode .sub d r rest
  | cmp a b => exact decodeSrcSrc_encode .cmp a b rest
  | mul r => exact decodeOneSrc_encodeSrc .mul r rest
  | push r => exact decodeOneSrc_encodeSrc .push r rest
  | inc d => exact decodeOneDst_encodeDst .inc d rest
  | dec d => exact decodeOneDst_encodeDst .dec d rest
  | pop d => exact decodeOneDst_encodeDst .pop d rest
  | jmp t => exact decodeTarget_encodeWord .jmp t rest
  | je t => exact decodeTarget_encodeWord .je t rest
  | jne t => exact decodeTarget_encodeWord .jne t rest
  | jl t => exact decodeTarget_encodeWord .jl t rest
  | jle t => exact decodeTarget_encodeWord .jle t rest
  | jg t => exact decodeTarget_encodeWord .jg t rest
  | jge t => exact decodeTarget_encodeWord .jge t rest
  | loop t => exact decodeTarget_encodeWord .loop t rest
  | call t => exact decodeTarget_encodeWord .call t rest
  | syscall n => exact (decode_syscall n rest).trans (by rw [decodeSysno_of_unassigned hwf])
  | _ => rfl

/-- R80, R81, for every instruction: the family `Laws.EncodedLength` gathered. -/
theorem encodedLength (i : Instr) : Laws.EncodedLength.Statement i := by
  cases i with
  | mov d r => exact Laws.EncodedLength.mov d r
  | add d r => exact Laws.EncodedLength.add d r
  | sub d r => exact Laws.EncodedLength.sub d r
  | cmp a b => exact Laws.EncodedLength.cmp a b
  | mul r => exact Laws.EncodedLength.mul r
  | push r => exact Laws.EncodedLength.push r
  | inc d => exact Laws.EncodedLength.inc d
  | dec d => exact Laws.EncodedLength.dec d
  | pop d => exact Laws.EncodedLength.pop d
  | _ => exact ⟨rfl, by simp [Instr.length]⟩

/-- R80: an instruction has one to seven bytes. -/
theorem length_encode (i : Instr) : (encode i).length = i.length ∧ 1 ≤ i.length ∧ i.length ≤ maxInstrBytes := by
  obtain ⟨hlength, hformat⟩ := encodedLength i
  have hrange : ∀ n ∈ [1, 2, 3, 4, 5, 7], 1 ≤ n ∧ n ≤ maxInstrBytes := by decide
  exact ⟨hlength, hrange _ hformat⟩

/-- Settles O9: what the decoder reads, and the length of an encoding. -/
theorem encodingIsUnique : Obligations.EncodingIsUnique := by
  intro bs rest i h
  obtain ⟨hwf, hbs⟩ := eq_encode_of_decode h
  exact ⟨hwf, hbs, length_encode i⟩

/-- Settles O10: each of the seven byte strings is an encoding, so it is read back. -/
theorem workedEncodingsDecode : Obligations.WorkedEncodingsDecode :=
  ⟨decodeEncodeRoundTrip (.mov (.reg .ax) (.mem (.fpRel 0xFFFE))) [] trivial,
    decodeEncodeRoundTrip (.mov (.mem (.abs 0x0100)) (.imm 0x1234)) [] trivial,
    decodeEncodeRoundTrip (.add (.mem (.ind .bx)) (.reg .cx)) [] trivial,
    decodeEncodeRoundTrip (.cmp (.reg .ax) (.imm 0xFFFF)) [] trivial,
    decodeEncodeRoundTrip (.loop 0x0008) [] trivial, decodeEncodeRoundTrip (.pop (.reg .fp)) [] trivial,
    decodeEncodeRoundTrip .sysPrintInt [] trivial⟩

namespace Machine

/-- Settles O6: the decoder reads the instruction back from the bytes at `pc`, which fetch delivers. -/
theorem stepRunsTheInstructionAtPc : Obligations.StepRunsTheInstructionAtPc := by
  intro s i hrun hpar hwf hcode
  obtain ⟨hlength, -, hmax⟩ := length_encode i
  exact step_of_decode_ok hrun hpar hcode (hlength.trans_le hmax) fun rest => decodeEncodeRoundTrip i rest hwf

end Machine

end Sys2Proof
end

section
/-! SUPPORT. All that an instruction can do to the state, whichever it is (10_state.md sections 4 to 7), what every step and every
run keeps, and O2, O3, O4, O5, O7, O51, O52, O54, O55 and O56. -/

namespace Sys2Proof

/-! ### Classes of instructions -/

/-- R84, R90: the destination is a word of memory. -/
def Dst.isMem : Dst → Bool
  | .reg _ => false
  | .mem _ => true

/-- R93: the row `SYSCALL` and the twelve rows that refine it. -/
def Instr.isSyscall : Instr → Bool
  | .syscall _ | .sysAtoi | .sysPrintInt | .sysPrintChar | .sysPrintString | .sysExit | .sysReadFile | .sysClearScreen
  | .sysSetColor | .sysDrawRect | .sysDrawCircle | .sysDrawLine | .sysPaintDisplay => true
  | _ => false

/-- R32: the instructions of the execution engine that store a word. -/
def Instr.storesWord : Instr → Bool
  | .mov d _ | .add d _ | .sub d _ | .inc d | .dec d | .pop d => d.isMem
  | .call _ | .push _ => true
  | _ => false

/-- R26: the six flag writers. -/
def Instr.writesFlags : Instr → Bool
  | .add _ _ | .sub _ _ | .inc _ | .dec _ | .mul _ | .cmp _ _ => true
  | _ => false

/-- Every `SYSCALL` is a named one or has the general form. -/
theorem Instr.syscall_or_named {i : Instr} (h : i.isSyscall = true) : (∃ n, i = .syscall n) ∨ i ∈ namedSyscalls := by
  cases i with
  | syscall n => exact .inl ⟨n, rfl⟩
  | sysAtoi | sysPrintInt | sysPrintChar | sysPrintString | sysExit | sysReadFile | sysClearScreen | sysSetColor
  | sysDrawRect | sysDrawCircle | sysDrawLine | sysPaintDisplay => exact .inr (by decide)
  | _ => cases h

namespace Machine

/-! ### No result is zero and negative -/

theorem not_zero_and_negative (r : Word) : (r == 0 && r.msb) = false := by
  by_cases hr : r = 0
  · rw [hr]; rfl
  · rw [beq_eq_false_iff_ne.mpr hr, Bool.false_and]

/-- 95_test_vectors.md section 2.4: the law `f` never sets `ZF` and `NF` together. -/
def FlagLaw (f : Word → Word → AluOut) : Prop := ∀ a b, ((f a b).flags.zf && (f a b).flags.nf) = false

theorem addFlags_law : FlagLaw addFlags := fun _ _ => not_zero_and_negative _

theorem subFlags_law : FlagLaw subFlags := fun _ _ => not_zero_and_negative _

theorem mulFlags_law : FlagLaw mulFlags := fun _ _ => not_zero_and_negative _

/-! ### The instructions of the execution engine -/

/-- From `s` to `t` memory stays, or, if `may` allows it, one word that exists is stored. -/
def State.StoresOnlyIf (s t : State) (may : Bool) : Prop :=
  t.mem = s.mem ∨ may = true ∧ ∃ a v, s.WordInRange a ∧ t.mem = (s.storeWord a v).mem

theorem State.storesOnlyIf_putDst {s : State} {d : Dst} (v : Word) (hd : s.DstInRange d) :
    s.StoresOnlyIf (s.putDst d v) d.isMem := by
  cases d with
  | reg r => exact .inl rfl
  | mem m => exact .inr ⟨rfl, s.ea m, v, hd, rfl⟩

theorem State.storesOnlyIf_putPopped {s : State} {d : Dst} (v : Word) (hd : s.DstInRange d) :
    s.StoresOnlyIf (s.putPopped d v) d.isMem := by
  cases d with
  | reg r => exact .inl rfl
  | mem m => exact .inr ⟨rfl, s.ea m, v, hd, rfl⟩

theorem State.storesOnlyIf_pushed {s : State} (v : Word) (hcan : s.CanPush) : s.StoresOnlyIf (s.pushed v) true :=
  .inr ⟨rfl, s.pushAddr, v, hcan.wordInRange, rfl⟩

/-- All that the instruction `i` of the execution engine can do to memory, the flags, `STATUS` and what is outside the
engine. -/
structure EngineEffect (i : Instr) (s t : State) : Prop where
  outside : s.SameOutside t
  mem : s.StoresOnlyIf t i.storesWord
  flags : t.flags = s.flags ∨ i.writesFlags = true ∧ (t.flags.zf && t.flags.nf) = false
  status : t.status = s.status ∨ i = .halt ∨ ∃ f, t = s.fail f

namespace EngineEffect

variable {i : Instr} {s t : State}

theorem fail (i : Instr) (s : State) (f : Failure) : EngineEffect i s (s.fail f) :=
  ⟨⟨rfl, rfl, rfl, rfl, rfl, rfl⟩, .inl rfl, .inl rfl, .inr (.inr ⟨f, rfl⟩)⟩

theorem of_combines {f : Word → Word → AluOut} {d : Dst} {r : Src} (hi : Combines i f d r) (hlaw : FlagLaw f)
    (hstores : i.storesWord = d.isMem) (hflags : i.writesFlags = true) (h : exec i s = .next t) : EngineEffect i s t := by
  rcases hi.exec_cases s with ⟨hd, -, hexec⟩ | ⟨-, hexec⟩ <;> cases h.symm.trans hexec
  · obtain ⟨hlawful, ⟨-, hstatus⟩, houtside⟩ := s.combined_other i f d r
    exact ⟨houtside, hstores ▸ State.storesOnlyIf_putDst _ hd, .inr ⟨hflags, hlawful ▸ hlaw _ _⟩, .inl hstatus⟩
  · exact fail i s _

theorem of_jumpsWhen {target : Word} {cond : Flags → Bool} (hi : JumpsWhen i target cond) (h : exec i s = .next t) :
    EngineEffect i s t := by
  cases h.symm.trans (hi s)
  exact ⟨by simp [State.SameOutside], .inl (State.jumpIf_mem _ _ _), .inl (State.jumpIf_flags _ _ _),
    .inl (State.jumpIf_status _ _ _)⟩

theorem mov {d : Dst} {r : Src} (h : exec (.mov d r) s = .next t) : EngineEffect (.mov d r) s t := by
  rcases exec_mov_cases d r s with ⟨-, hd, hexec⟩ | ⟨-, hexec⟩ <;> cases h.symm.trans hexec
  · obtain ⟨hflags, ⟨-, hstatus⟩, houtside⟩ := s.moved_other d r
    exact ⟨houtside, State.storesOnlyIf_putDst _ hd, .inl hflags, .inl hstatus⟩
  · exact fail _ s _

theorem mul {r : Src} (h : exec (.mul r) s = .next t) : EngineEffect (.mul r) s t := by
  by_cases hr : s.SrcInRange r
  · cases h.symm.trans (exec_mul_inRange hr)
    obtain ⟨-, -, ⟨-, hstatus⟩, houtside⟩ := s.multiplied_other r
    exact ⟨houtside, .inl rfl, .inr ⟨rfl, mulFlags_law _ _⟩, .inl hstatus⟩
  · cases h.symm.trans (exec_mul_outOfRange hr)
    exact fail _ s _

theorem cmp {a b : Src} (h : exec (.cmp a b) s = .next t) : EngineEffect (.cmp a b) s t := by
  rcases exec_cmp_cases a b s with ⟨-, -, hexec⟩ | ⟨-, hexec⟩ <;> cases h.symm.trans hexec
  · exact ⟨⟨rfl, rfl, rfl, rfl, rfl, rfl⟩, .inl rfl, .inr ⟨rfl, subFlags_law _ _⟩, .inl rfl⟩
  · exact fail _ s _

theorem loop {target : Word} (h : exec (.loop target) s = .next t) : EngineEffect (.loop target) s t := by
  cases h.symm.trans (exec_loop target s)
  obtain ⟨hflags, hstatus, houtside⟩ := s.looped_other target
  exact ⟨houtside, .inl (State.jumpIf_mem _ _ _), .inl hflags, .inl hstatus⟩

theorem call {target : Word} (h : exec (.call target) s = .next t) : EngineEffect (.call target) s t := by
  rcases exec_call_cases target s with ⟨hcan, hexec⟩ | ⟨-, hexec⟩ <;> cases h.symm.trans hexec
  · obtain ⟨-, hflags, hstatus, houtside⟩ := s.pushed_other (wrap16 (s.pc.toNat + 3))
    exact ⟨houtside, State.storesOnlyIf_pushed _ hcan, .inl hflags, .inl hstatus⟩
  · exact fail _ s _

theorem ret (h : exec .ret s = .next t) : EngineEffect .ret s t := by
  rcases exec_ret_cases s with ⟨-, hexec⟩ | ⟨-, hexec⟩ | ⟨-, -, hexec⟩ <;> cases h.symm.trans hexec
  · exact ⟨⟨rfl, rfl, rfl, rfl, rfl, rfl⟩, .inl rfl, .inl rfl, .inl rfl⟩
  · exact fail _ s _
  · exact fail _ s _

theorem push {r : Src} (h : exec (.push r) s = .next t) : EngineEffect (.push r) s t := by
  rcases exec_push_cases r s with ⟨-, hcan, hexec⟩ | ⟨-, hexec⟩ <;> cases h.symm.trans hexec
  · obtain ⟨-, hflags, hstatus, houtside⟩ := s.pushed_other (s.srcWord r)
    exact ⟨houtside, State.storesOnlyIf_pushed _ hcan, .inl hflags, .inl hstatus⟩
  · exact fail _ s _

theorem pop {d : Dst} (h : exec (.pop d) s = .next t) : EngineEffect (.pop d) s t := by
  rcases s.stackTop_cases with ⟨hcan, -⟩ | ⟨-, htop⟩ | ⟨-, -, htop⟩
  · rcases exec_pop_cases d hcan with ⟨hd, hexec⟩ | ⟨-, hexec⟩ <;> cases h.symm.trans hexec
    · obtain ⟨-, hflags, hstatus, houtside⟩ := s.putPopped_other d (s.wordAt (s.reg .sp).toNat)
      exact ⟨houtside, State.storesOnlyIf_putPopped _ hd, .inl hflags, .inl hstatus⟩
    · exact fail _ s _
  · cases h.symm.trans (exec_pop_of_stackTop_error d htop)
    exact fail _ s _
  · cases h.symm.trans (exec_pop_of_stackTop_error d htop)
    exact fail _ s _

end EngineEffect

/-- What an instruction of the execution engine does is an `EngineEffect`, by the rule of each. -/
theorem engineEffect_of_exec {i : Instr} {s t : State} (hi : i.isSyscall = false) (h : exec i s = .next t) :
    EngineEffect i s t := by
  cases i with
  | halt => cases h; exact ⟨⟨rfl, rfl, rfl, rfl, rfl, rfl⟩, .inl rfl, .inl rfl, .inr (.inl rfl)⟩
  | mov d r => exact .mov h
  | add d r => exact .of_combines (add_combines d r) addFlags_law rfl rfl h
  | sub d r => exact .of_combines (sub_combines d r) subFlags_law rfl rfl h
  | inc d => exact .of_combines (inc_combines d) addFlags_law rfl rfl h
  | dec d => exact .of_combines (dec_combines d) subFlags_law rfl rfl h
  | mul r => exact .mul h
  | cmp a b => exact .cmp h
  | jmp target => cases h; exact ⟨⟨rfl, rfl, rfl, rfl, rfl, rfl⟩, .inl rfl, .inl rfl, .inl rfl⟩
  | je target => exact .of_jumpsWhen (je_jumpsWhen target) h
  | jne target => exact .of_jumpsWhen (jne_jumpsWhen target) h
  | jl target => exact .of_jumpsWhen (jl_jumpsWhen target) h
  | jle target => exact .of_jumpsWhen (jle_jumpsWhen target) h
  | jg target => exact .of_jumpsWhen (jg_jumpsWhen target) h
  | jge target => exact .of_jumpsWhen (jge_jumpsWhen target) h
  | loop target => exact .loop h
  | call target => exact .call h
  | ret => exact .ret h
  | push r => exact .push h
  | pop d => exact .pop h
  | _ => cases hi

/-! ### The syscalls -/

/-- All that a syscall can do to the parameters, the flags, memory, the framebuffer and the records. -/
structure SyscallEffect (s t : State) : Prop where
  params : t.params = s.params
  flags : t.flags = s.flags
  mem : ∃ a bs, (bs = [] ∨ a + bs.length ≤ s.params.memSize) ∧ t.mem = (s.storeBytes a bs).mem
  fb : t.fb = [] ∨ ∃ ps, t.fb = plotAll s.color ps s.fb
  out : ∃ bytes, t.out = s.out ++ bytes
  disp : t.disp = s.disp ∨ t.disp = s.disp ++ [s.fb]

namespace SyscallEffect

/-- A syscall that stores nothing, draws nothing and writes no record. -/
theorem of_kept {s t : State} (hparams : t.params = s.params) (hflags : t.flags = s.flags) (hmem : t.mem = s.mem)
    (hfb : t.fb = s.fb) (hout : t.out = s.out) (hdisp : t.disp = s.disp) : SyscallEffect s t :=
  ⟨hparams, hflags, ⟨0, [], .inl rfl, hmem⟩, .inr ⟨[], hfb⟩, ⟨[], hout.trans (List.append_nil _).symm⟩, .inl hdisp⟩

theorem fail (s : State) (f : Failure) : SyscallEffect s (s.fail f) := of_kept rfl rfl rfl rfl rfl rfl

theorem emit (s : State) (bs : List Byte) (len : Nat) : SyscallEffect s ((s.emit bs).advance len) :=
  { of_kept (t := s) rfl rfl rfl rfl rfl rfl with out := ⟨bs, rfl⟩ }

theorem draw (s : State) (ps : List Point) (len : Nat) : SyscallEffect s ((s.draw ps).advance len) :=
  { of_kept (t := s) rfl rfl rfl rfl rfl rfl with fb := .inr ⟨ps, rfl⟩ }

/-- R195: the answer is copied into memory, or its length is 0. -/
theorem takeAnswer {s u : State} {ans : FsAnswer} (h : s.takeAnswer ans = .ok u) (len : Nat) :
    SyscallEffect s (u.advance len) := by
  rcases s.takeAnswer_cases ans with ⟨-, htake⟩ | ⟨content, -, hfits, htake⟩ | ⟨_, -, -, -, htake⟩ <;>
    cases htake.symm.trans h
  · exact of_kept rfl rfl rfl rfl rfl rfl
  · have hlen := s.length_take_readCount content
    have hrange : content.take (s.readCount content) = [] ∨
        (s.reg .bx).toNat + (content.take (s.readCount content)).length ≤ s.params.memSize :=
      hfits.imp (fun hz => List.eq_nil_of_length_eq_zero (hlen.trans hz)) fun hin => by rwa [hlen]
    exact { of_kept (t := s) rfl rfl rfl rfl rfl rfl with mem := ⟨_, _, hrange, rfl⟩ }

end SyscallEffect

/-- What one of the twelve named syscalls does is a `SyscallEffect`, by the rule of each. -/
theorem syscallEffect_of_named {i : Instr} {s t : State} (hi : i ∈ namedSyscalls) (h : exec i s = .next t) :
    SyscallEffect s t := by
  cases i with
  | sysAtoi =>
    rcases exec_sysAtoi_cases h with ⟨v, rfl⟩ | ⟨f, rfl⟩
    · exact .of_kept rfl rfl rfl rfl rfl rfl
    · exact .fail s f
  | sysPrintString =>
    rcases exec_sysPrintString_cases h with ⟨str, rfl⟩ | ⟨f, rfl⟩
    · exact .emit s str _
    · exact .fail s f
  | sysReadFile =>
    rcases State.settle_cases h with hok | ⟨f, -, rfl⟩
    · obtain ⟨path, -, hpath⟩ := bind_eq_ok hok
      obtain ⟨u, htake, hu⟩ := bind_eq_ok hpath
      cases hu
      exact .takeAnswer htake _
    · exact .fail s f
  | sysPrintInt => cases h; exact .emit s _ _
  | sysPrintChar => cases h; exact .emit s _ _
  | sysExit => cases h; exact .of_kept rfl rfl rfl rfl rfl rfl
  | sysClearScreen =>
    cases h
    exact { SyscallEffect.of_kept (t := s) rfl rfl rfl rfl rfl rfl with fb := .inl rfl }
  | sysSetColor => cases h; exact .of_kept rfl rfl rfl rfl rfl rfl
  | sysDrawRect => cases h; exact .draw s _ _
  | sysDrawCircle => cases h; exact .draw s _ _
  | sysDrawLine => cases h; exact .draw s _ _
  | sysPaintDisplay =>
    cases h
    exact { SyscallEffect.of_kept (t := s) rfl rfl rfl rfl rfl rfl with disp := .inr rfl }
  | _ => simp [namedSyscalls] at hi

/-- R181, all that `SYSCALL` can do, whatever its number: it is the named syscall of that number, or fails. -/
theorem exec_syscall_cases (n : Byte) (s : State) :
    (∃ i ∈ namedSyscalls, exec (.syscall n) s = exec i s) ∨ exec (.syscall n) s = .next (s.fail .unknownSyscall) := by
  by_cases hn : UnassignedSysno n
  · exact .inr (exec_syscall_of_unassigned hn s)
  · exact .inl ⟨decodeSysno n, decodeSysno_mem_namedSyscalls hn, exec_syscall n s⟩

theorem syscallEffect_of_exec {i : Instr} {s t : State} (hi : i.isSyscall = true) (h : exec i s = .next t) :
    SyscallEffect s t := by
  rcases Instr.syscall_or_named hi with ⟨n, rfl⟩ | hnamed
  · rcases exec_syscall_cases n s with ⟨i, hnamed, hexec⟩ | hexec
    · exact syscallEffect_of_named hnamed (hexec.symm.trans h)
    · cases h.symm.trans hexec
      exact .fail s _
  · exact syscallEffect_of_named hnamed h

/-- All that an instruction can do: every invariant of a step follows from these two cases. -/
theorem exec_effect {i : Instr} {s t : State} (h : exec i s = .next t) :
    (i.isSyscall = false ∧ EngineEffect i s t) ∨ (i.isSyscall = true ∧ SyscallEffect s t) := by
  cases hi : i.isSyscall with
  | false => exact .inl ⟨rfl, engineEffect_of_exec hi h⟩
  | true => exact .inr ⟨rfl, syscallEffect_of_exec hi h⟩

/-! ### What one instruction keeps -/

/-- R8: no instruction writes a parameter. -/
theorem params_of_exec {i : Instr} {s t : State} (h : exec i s = .next t) : t.params = s.params := by
  rcases exec_effect h with ⟨-, heffect⟩ | ⟨-, heffect⟩
  · obtain ⟨-, -, -, -, hparams, -⟩ := heffect.outside
    exact hparams
  · exact heffect.params

/-- R33, R34: from `s` to `t` the host records have at most grown. -/
def RecordsGrow (s t : State) : Prop :=
  (∃ bytes, t.out = s.out ++ bytes) ∧ ∃ frames, t.disp = s.disp ++ frames

theorem RecordsGrow.of_eq {s t : State} (hout : t.out = s.out) (hdisp : t.disp = s.disp) : RecordsGrow s t :=
  ⟨⟨[], by rw [hout, List.append_nil]⟩, [], by rw [hdisp, List.append_nil]⟩

theorem RecordsGrow.trans {s t u : State} (hst : RecordsGrow s t) (htu : RecordsGrow t u) : RecordsGrow s u := by
  obtain ⟨⟨bytes, hout⟩, frames, hdisp⟩ := hst
  obtain ⟨⟨bytes', hout'⟩, frames', hdisp'⟩ := htu
  exact ⟨⟨bytes ++ bytes', by rw [hout', hout, List.append_assoc]⟩,
    frames ++ frames', by rw [hdisp', hdisp, List.append_assoc]⟩

/-- R33, R34: no instruction takes anything out of the host records. -/
theorem recordsGrow_of_exec {i : Instr} {s t : State} (h : exec i s = .next t) : RecordsGrow s t := by
  rcases exec_effect h with ⟨-, heffect⟩ | ⟨-, heffect⟩
  · obtain ⟨-, -, hout, hdisp, -, -⟩ := heffect.outside
    exact .of_eq hout hdisp
  · refine ⟨heffect.out, ?_⟩
    rcases heffect.disp with hdisp | hdisp
    · exact ⟨[], by rw [hdisp, List.append_nil]⟩
    · exact ⟨[s.fb], hdisp⟩

/-- Settles O52: a syscall keeps the flags, and an instruction of the engine that changes them is one of the six. -/
theorem flagWritersAreSix : Obligations.FlagWritersAreSix := by
  intro i s t h hchanged
  rcases exec_effect h with ⟨-, heffect⟩ | ⟨-, heffect⟩
  · obtain ⟨hwrites, -⟩ := heffect.flags.resolve_left hchanged
    cases i with
    | add d r => exact .inl ⟨d, r, .inl rfl⟩
    | sub d r => exact .inl ⟨d, r, .inr rfl⟩
    | inc d => exact .inr (.inl ⟨d, .inl rfl⟩)
    | dec d => exact .inr (.inl ⟨d, .inr rfl⟩)
    | mul r => exact .inr (.inr (.inl ⟨r, rfl⟩))
    | cmp a b => exact .inr (.inr (.inr ⟨a, b, rfl⟩))
    | _ => cases hwrites
  · exact absurd heffect.flags hchanged

/-- No instruction of a list is in a class of which the list holds none. -/
theorem eq_false_of_mem {l : List Instr} {p : Instr → Bool} {i : Instr} (hi : i ∈ l) (hl : l.all (!p ·) = true) :
    p i = false :=
  (Bool.not_eq_true' _).mp (List.all_eq_true.mp hl i hi)

/-- Settles O54: the first list holds no syscall, the second neither a syscall nor an instruction that stores. -/
theorem engineInstructionsFrame : Obligations.EngineInstructionsFrame := by
  refine fun s t => ⟨fun d r a b target i hi h => ?outside, fun q r a b target i hi h => ?bytes⟩
  case outside =>
    have hengine : i.isSyscall = false := eq_false_of_mem hi rfl
    exact (engineEffect_of_exec hengine h).outside
  case bytes =>
    have hengine : i.isSyscall = false := eq_false_of_mem hi rfl
    have hstores : i.storesWord = false := eq_false_of_mem hi rfl
    have hmem : t.mem = s.mem := (engineEffect_of_exec hengine h).mem.resolve_right fun ⟨hmay, _⟩ =>
      nomatch hstores.symm.trans hmay
    exact State.byteAt_eq_of_mem hmem

/-! ### The invariant -/

/-- R31, log 5: memory is canonical and lists no address at or above `MEM_SIZE`. -/
def State.MemOk (s : State) : Prop := s.mem.wf = true ∧ Cells.below s.params.memSize s.mem = true

theorem State.MemOk.of_storesOnlyIf {s t : State} {may : Bool} (h : s.MemOk) (hparams : t.params = s.params)
    (hmem : s.StoresOnlyIf t may) : t.MemOk := by
  obtain ⟨hwf, hbelow⟩ := h
  rw [State.MemOk, hparams]
  rcases hmem with hmem | ⟨-, a, v, hrange, hmem⟩ <;> rw [hmem]
  · exact ⟨hwf, hbelow⟩
  · exact ⟨State.storeWord_wf a v hwf, State.storeWord_below v hbelow hrange⟩

theorem State.MemOk.storeBytes {s : State} {a : Nat} {bs : List Byte} (h : s.MemOk)
    (hrange : bs = [] ∨ a + bs.length ≤ s.params.memSize) : (s.storeBytes a bs).MemOk := by
  obtain ⟨hwf, hbelow⟩ := h
  exact ⟨State.storeBytes_wf a bs hwf, State.storeBytes_below bs hbelow hrange⟩

theorem Framebuffer.Ok.plotAll {fb : Framebuffer} (c : BitVec 2) (ps : List Point) (h : fb.Ok) :
    Framebuffer.Ok (plotAll c ps fb) := by
  obtain ⟨hwf, hbelow⟩ := h
  exact ⟨plotAll_wf c ps hwf, plotAll_below c ps hbelow⟩

theorem EngineEffect.inv {i : Instr} {s t : State} (heffect : EngineEffect i s t) (hinv : s.Inv) : t.Inv := by
  obtain ⟨hcons, hwf, hbelow, hfbOk, hdispOk, hzn⟩ := hinv
  obtain ⟨⟨-, hfb, -, hdisp, hparams, -⟩, hmem, hflags, -⟩ := heffect
  obtain ⟨hwf', hbelow'⟩ := State.MemOk.of_storesOnlyIf ⟨hwf, hbelow⟩ hparams hmem
  refine ⟨hparams ▸ hcons, hwf', hbelow', hfb ▸ hfbOk, hdisp ▸ hdispOk, ?_⟩
  rcases hflags with hflags | ⟨-, hlaw⟩
  · rw [hflags]; exact hzn
  · exact hlaw

theorem SyscallEffect.inv {s t : State} (heffect : SyscallEffect s t) (hinv : s.Inv) : t.Inv := by
  obtain ⟨hcons, hwf, hbelow, hfbOk, hdispOk, hzn⟩ := hinv
  obtain ⟨hparams, hflags, ⟨a, bs, hrange, hmem⟩, hfb, -, hdisp⟩ := heffect
  obtain ⟨hwf', hbelow'⟩ := State.MemOk.storeBytes ⟨hwf, hbelow⟩ hrange
  have hfbOk' : t.fb.Ok := by
    rcases hfb with hfb | ⟨ps, hfb⟩ <;> rw [hfb]
    · exact ⟨rfl, rfl⟩
    · exact hfbOk.plotAll _ ps
  have hdispOk' : ∀ f ∈ t.disp, Framebuffer.Ok f := by
    rcases hdisp with hdisp | hdisp <;> rw [hdisp]
    · exact hdispOk
    · exact List.forall_mem_append.mpr ⟨hdispOk, List.forall_mem_singleton.mpr hfbOk⟩
  refine ⟨hparams ▸ hcons, hmem ▸ hwf', ?_, hfbOk', hdispOk', hflags ▸ hzn⟩
  rw [hmem, hparams]
  exact hbelow'

/-- Every instruction keeps the invariant. -/
theorem inv_of_exec {i : Instr} {s t : State} (h : exec i s = .next t) (hinv : s.Inv) : t.Inv := by
  rcases exec_effect h with ⟨-, heffect⟩ | ⟨-, heffect⟩
  · exact heffect.inv hinv
  · exact heffect.inv hinv

/-! ### Steps and runs -/

/-- R12, R27, R236: what holds of a state and itself, of a state and its failure, and of every instruction, holds of every
step. -/
theorem rel_of_step {R : State → State → Prop} (hrefl : ∀ s, R s s) (hfail : ∀ s f, R s (s.fail f))
    (hexec : ∀ {i s t}, exec i s = .next t → R s t) {s t : State} (h : step s = .next t) : R s t := by
  by_cases hrun : s.status = .running
  · rcases step_cases hrun h with ⟨i, -, hnext⟩ | ⟨f, -, rfl⟩
    · exact hexec hnext
    · exact hfail s f
  · rw [step, if_pos hrun] at h
    cases h
    exact hrefl s

theorem run_succ {M : Host.Core} {s u : M.State} (n : Nat) (h : M.step s = .next u) : M.run (n + 1) s = M.run n u := by
  rw [Host.Core.run, h]

theorem run_succ_eq_next {M : Host.Core} {n : Nat} {s t : M.State} (h : M.run (n + 1) s = .next t) :
    ∃ u, M.step s = .next u ∧ M.run n u = .next t := by
  cases hstep : M.step s with
  | next u => exact ⟨u, rfl, (run_succ n hstep).symm.trans h⟩
  | fault r => rw [Host.Core.run, hstep] at h; cases h
  | refused r => rw [Host.Core.run, hstep] at h; cases h

/-- What every step keeps and what carries over from step to step is kept by every run. -/
theorem rel_of_run {R : State → State → Prop} (hrefl : ∀ s, R s s) (htrans : ∀ {s t u}, R s t → R t u → R s u)
    (hstep : ∀ {s t}, step s = .next t → R s t) (n : Nat) (s t : State) (h : core.run n s = .next t) : R s t := by
  induction n generalizing s with
  | zero =>
    cases h
    exact hrefl _
  | succ n ih =>
    obtain ⟨u, hfirst, hrest⟩ := run_succ_eq_next (M := core) h
    exact htrans (hstep hfirst) (ih u hrest)

/-- Settles O4: every instruction keeps the invariant, and a failure writes nothing that it speaks of. -/
theorem stepKeepsInvariant : Obligations.StepKeepsInvariant :=
  fun _ _ hinv h => rel_of_step (R := fun s t => s.Inv → t.Inv) (fun _ => id) (fun _ _ => id) inv_of_exec h hinv

/-- Settles O55. -/
theorem parametersNeverChange : Obligations.ParametersNeverChange :=
  rel_of_run (R := fun s t => t.params = s.params) (fun _ => rfl) (fun hst htu => htu.trans hst)
    (rel_of_step (R := fun s t => t.params = s.params) (fun _ => rfl) (fun _ _ => rfl) params_of_exec)

/-- Settles O56. -/
theorem outputRecordsOnlyGrow : Obligations.OutputRecordsOnlyGrow :=
  rel_of_run (R := RecordsGrow) (fun _ => .of_eq rfl rfl) .trans
    (rel_of_step (R := RecordsGrow) (fun _ => .of_eq rfl rfl) (fun _ _ => .of_eq rfl rfl) recordsGrow_of_exec)

/-- Settles O7: the one step of a stopped machine answers the state itself. -/
theorem stoppedMachineNeverChanges : Obligations.StoppedMachineNeverChanges := by
  intro n s hstopped
  induction n with
  | zero => rfl
  | succ n ih => exact (run_succ (M := core) n (if_pos hstopped)).trans ih

/-! ### The first state -/

/-- R261: what the loader writes ends at `LOAD_END`, which consistent parameters put within `MEM_SIZE`. -/
theorem Load.bytes_length_le_memSize {l : Load} (h : l.valid = true) : l.bytes.length ≤ l.memSize := by
  have hcons := Load.params_consistent h
  simp only [Params.consistent, Bool.and_eq_true, decide_eq_true_eq] at hcons
  obtain ⟨⟨-, hload⟩, hstack⟩ := hcons
  rw [l.bytes_length]
  exact hload.trans hstack

/-- Settles O3: memory is the loader's bytes written into an empty store, and no frame and no result is there yet. -/
theorem loadMeetsInvariant : Obligations.LoadMeetsInvariant := by
  intro l hvalid
  have hbelow : Cells.below l.memSize (State.load l).mem = true :=
    Cells.below_writeList l.bytes rfl (.inr (by rw [Nat.zero_add]; exact Load.bytes_length_le_memSize hvalid))
  exact ⟨Load.params_consistent hvalid, Cells.wf_writeList 0 l.bytes rfl, hbelow, ⟨rfl, rfl⟩, nofun, rfl⟩

/-- Settles O2: `State.reset` is the state after a valid load. -/
theorem resetMeetsInvariant : Obligations.ResetMeetsInvariant := by
  rw [Obligations.ResetMeetsInvariant, State.reset_eq_load]
  exact loadMeetsInvariant Load.reference (by decide)

/-! ### Every step answers -/

/-- Every constructor of its own answers: its rule is one state, or is settled. -/
theorem exec_isNext_of_ne_syscall {i : Instr} (hi : ∀ n, i ≠ .syscall n) (s : State) : ∃ t, exec i s = .next t := by
  cases i with
  | mov | add | sub | mul | inc | dec | cmp | call | ret | push | pop | sysAtoi | sysPrintString | sysReadFile =>
    exact s.settle_isNext _
  | syscall n => exact absurd rfl (hi n)
  | _ => exact ⟨_, rfl⟩

theorem ne_syscall_of_mem_namedSyscalls {i : Instr} (hi : i ∈ namedSyscalls) (n : Byte) : i ≠ .syscall n := by
  rintro rfl
  simp [namedSyscalls] at hi

/-- 60_exceptions.md section 1: no instruction ends in a fault or a refusal. -/
theorem exec_isNext (i : Instr) (s : State) : ∃ t, exec i s = .next t := by
  by_cases hi : ∃ n, i = .syscall n
  · obtain ⟨n, rfl⟩ := hi
    rcases exec_syscall_cases n s with ⟨j, hj, hexec⟩ | hexec
    · exact hexec ▸ exec_isNext_of_ne_syscall (ne_syscall_of_mem_namedSyscalls hj) s
    · exact ⟨_, hexec⟩
  · exact exec_isNext_of_ne_syscall (not_exists.mp hi) s

/-- Settles O5: a stopped machine answers itself, a running one what its instruction or the failure of its fetch answers. -/
theorem stepAlwaysAnswersNext : Obligations.StepAlwaysAnswersNext := by
  refine fun s => ⟨fun hcons => ?_, fun hcons hrun => ?_⟩
  · by_cases hrun : s.status = .running
    · rw [step, if_neg (not_not_intro hrun), if_neg (by simp [hcons])]
      cases s.fetch with
      | ok i => exact exec_isNext i s
      | error f => exact ⟨s.fail f, rfl⟩
    · exact ⟨s, if_pos hrun⟩
  · rw [step, if_neg (not_not_intro hrun), if_pos hcons]

/-! ### What stands at `pc` -/

theorem State.holdsCode_of_codeBytes {s : State} {bs rest : List Byte} {n a : Nat} (h : s.codeBytes n a = bs ++ rest) :
    s.HoldsCode a bs := by
  induction bs generalizing n a with
  | nil => exact fun k hk => absurd hk (Nat.not_lt_zero k)
  | cons b bs ih =>
    obtain _ | n := n
    · cases h
    · rw [State.codeBytes] at h
      split at h
      next => cases h
      next hlt =>
        obtain ⟨hb, htail⟩ := List.cons.inj h
        rintro (_ | k) hk
        · exact ⟨Nat.lt_of_not_le hlt, hb⟩
        · have hnext := ih htail k (Nat.lt_of_succ_lt_succ hk)
          rwa [Nat.add_assoc, Nat.add_comm 1 k] at hnext

/-- R86: the instruction that fetch answers is well formed, and its encoding stands at `pc` inside the code region. -/
theorem State.fetch_eq_ok {s : State} {i : Instr} (h : s.fetch = .ok i) :
    i.WellFormed ∧ s.HoldsCode s.pc.toNat (encode i) := by
  unfold State.fetch at h
  split at h
  next j rest hdecode =>
    cases h
    obtain ⟨hwf, hbytes⟩ := eq_encode_of_decode hdecode
    exact ⟨hwf, State.holdsCode_of_codeBytes hbytes⟩
  next => cases h

/-- R180, R182: a well-formed instruction that halts a machine is `HALT` or `EXIT`. -/
theorem halts_cases {i : Instr} {s t : State} (hwf : i.WellFormed) (h : exec i s = .next t)
    (hbefore : s.status ≠ .halted) (hafter : t.status = .halted) : i = .halt ∨ i = .sysExit := by
  have hkept : ¬ (t.status = s.status ∨ ∃ f, t = s.fail f) := by
    rintro (hsame | ⟨f, rfl⟩)
    · exact hbefore (hsame.symm.trans hafter)
    · cases hafter
  cases hi : i.isSyscall with
  | false =>
    rcases (engineEffect_of_exec hi h).status with hsame | hhalt | hfail
    · exact absurd (.inl hsame) hkept
    · exact .inl hhalt
    · exact absurd (.inr hfail) hkept
  | true =>
    rcases Instr.syscall_or_named hi with ⟨n, rfl⟩ | hnamed
    · cases h.symm.trans (exec_syscall_of_unassigned hwf s)
      exact absurd (.inr ⟨_, rfl⟩) hkept
    · exact .inr (not_not.mp fun hexit => hkept ((writesOnlyItsRow_of_exec hnamed h).status hexit))

/-- Settles O51: the step that halts has fetched an instruction, which can only be one of the two. -/
theorem haltedOnlyByHaltOrExit : Obligations.HaltedOnlyByHaltOrExit := by
  intro s t hrun hstep hhalted
  have hbefore : s.status ≠ .halted := by rw [hrun]; nofun
  rcases step_cases hrun hstep with ⟨i, hfetch, hexec⟩ | ⟨f, -, rfl⟩
  · obtain ⟨hwf, hcode⟩ := State.fetch_eq_ok hfetch
    rcases halts_cases hwf hexec hbefore hhalted with rfl | rfl
    · exact .inl hcode
    · exact .inr hcode
  · cases hhalted

end Machine

end Sys2Proof
end

section
/-! SUPPORT. Two steps in a row: `RET` after `CALL`, `POP` after `PUSH`, `ATOI` of what `PRINT_INT` writes, and the fetch of what
a `MOV` stores (42_control_transfer.md section 4, 43_stack.md, 45_syscall_host.md, 20_memory.md section 6); O28, O31, O41 and
O57. Then the two statements about single definitions, O16 and O34. -/

namespace Sys2Proof.Machine

/-! ### The stack after a push -/

section

variable {s t : State} {v : Word}

/-- R62, R63: what a push inside the stack region leaves can be popped. -/
theorem State.canPop_of_pushed (hcan : s.CanPush) (hparams : t.params = s.params) (hsp : (t.reg .sp).toNat = s.pushAddr) :
    t.CanPop := by
  obtain ⟨hlimit, hbase⟩ := hcan
  rw [← hparams, ← hsp] at hlimit hbase
  exact ⟨hbase, hlimit⟩

/-- R50, R62: the word on top of the stack after a push. -/
theorem State.wordAt_pushed (v : Word) (hwf : s.mem.wf = true) :
    (s.pushed v).wordAt ((s.pushed v).reg .sp).toNat = v := by
  rw [State.pushed_sp_toNat]
  exact State.wordAt_storeWord s.pushAddr v hwf

/-- R62, R63: dropping what was pushed restores `SP`, even where the push wrapped. -/
theorem State.wrap16_pushAddr_add_two (s : State) : wrap16 ((s.pushAddr : Int) + 2) = s.reg .sp := by
  have hsp := (s.reg .sp).isLt
  apply BitVec.eq_of_toNat_eq
  rw [show (s.pushAddr : Int) + 2 = ((s.pushAddr + 2 : Nat) : Int) from rfl, wrap16_toNat, s.pushAddr_eq]
  omega

/-- A push that is dropped again leaves every register as it was. -/
theorem State.reg_dropTop_pushed (s : State) (v : Word) (r : Reg) : (s.pushed v).dropTop.reg r = s.reg r := by
  by_cases hr : r = .sp
  · rw [hr, State.dropTop_sp, State.pushed_sp_toNat, State.wrap16_pushAddr_add_two]
  · have hkept : r ∉ [Reg.sp] := mt List.mem_singleton.mp hr
    exact ((s.pushed v).sameRegsBut_dropTop r hkept).trans (s.sameRegsBut_pushed v r hkept)

end

/-- Settles O28: the `CALL` pushes the address that the `RET` pops, and the drop of that word restores `SP`. -/
theorem returnUndoesCall : Obligations.ReturnUndoesCall := by
  intro target s t hwf hcan hcall
  have ht : t = s.called target := by
    rcases exec_call_cases target s with ⟨-, hexec⟩ | ⟨hcannot, -⟩
    · cases hcall.symm.trans hexec
      rfl
    · exact absurd hcan hcannot
  subst ht
  have hsp := s.pushed_sp_toNat (wrap16 (s.pc.toNat + 3))
  have hpop : (s.called target).CanPop := State.canPop_of_pushed hcan rfl hsp
  have hret : exec .ret (s.called target) = .next (s.called target).returned := by
    obtain ⟨hbase, hlimit⟩ := hpop
    rcases exec_ret_cases (s.called target) with ⟨-, hexec⟩ | ⟨hunder, -⟩ | ⟨-, hbelow, -⟩
    · exact hexec
    · exact absurd hbase (Nat.not_le_of_lt hunder)
    · exact absurd hlimit (Nat.not_le_of_lt hbelow)
  have hregs : (s.called target).returned.regs = s.regs := Regs.ext_get (s.reg_dropTop_pushed _)
  obtain ⟨-, -, hbytes⟩ := State.pushed_bytes (wrap16 (s.pc.toNat + 3)) hwf
  exact ⟨_, hret, State.wordAt_pushed _ hwf, hregs, rfl, rfl, hbytes, rfl, rfl, rfl, rfl, rfl, rfl⟩

/-- Settles O31: the `POP` takes the word that the `PUSH` left on top; of the registers that it writes besides, `SP` is back
where it was. -/
theorem popUndoesPush : Obligations.PopUndoesPush := by
  intro r q s t hwf hsrc hcan hq hpush
  have ht : t = s.afterPush r := by
    rcases exec_push_cases r s with ⟨-, -, hexec⟩ | ⟨hout, -⟩
    · cases hpush.symm.trans hexec
      rfl
    · exact (hout.elim (· hsrc) (· hcan)).elim
  subst ht
  have hpop : (s.afterPush r).CanPop := State.canPop_of_pushed hcan rfl (s.pushed_sp_toNat _)
  have hregs : s.SameRegsBut ((s.afterPush r).afterPop (.reg q)) [q] := fun p hp =>
    (State.reg_setReg_ne _ _ (List.ne_of_not_mem_cons hp)).trans (s.reg_dropTop_pushed _ p)
  obtain ⟨hword, -⟩ := (s.afterPush r).putPopped_reg q ((s.afterPush r).wordAt ((s.afterPush r).reg .sp).toNat)
  exact ⟨_, exec_pop_inRange hpop trivial, hword.trans (State.wordAt_pushed _ hwf),
    hregs .sp (mt List.mem_singleton.mp hq.symm), hregs⟩

/-! ### Texts in memory -/

section

variable {s : State} {a : Nat}

theorem State.HoldsString.cons {b : Byte} {str : List Byte} (h : s.HoldsString a (b :: str)) :
    s.byteAt a = b ∧ s.HoldsString (a + 1) str := by
  obtain ⟨hbytes, hzero, hin⟩ := h
  obtain ⟨hfirst, -⟩ := hbytes 0 (Nat.succ_pos _)
  have hshift : ∀ k, a + 1 + k = a + (k + 1) := fun k => by omega
  refine ⟨hfirst, fun k hk => ?_, by rwa [hshift], by rwa [hshift]⟩
  rw [hshift]
  exact hbytes (k + 1) (Nat.succ_lt_succ hk)

/-- R190, R191: a string of digits is a run of digits, for the zero byte that ends it is not one. -/
theorem State.HoldsString.holdsDigits {ds : List Byte} (h : s.HoldsString a ds) (hdigits : ∀ b ∈ ds, IsDecimalDigit b) :
    s.HoldsDigits a ds := by
  obtain ⟨hbytes, hzero, hin⟩ := h
  refine ⟨fun k hk => ⟨(hbytes k hk).1, hdigits _ (List.getElem_mem hk)⟩, ?_, hin⟩
  rw [hzero]
  unfold IsDecimalDigit
  decide

/-- R191, R192: the text `Dec(n)` is parsed as `n`. -/
theorem State.parseInt_decText {n : Int} (h : s.HoldsString a (decText n)) : s.parseInt a = .ok n := by
  obtain ⟨hvalue, hdigits, hne, -⟩ := decimal_numeralOf n.natAbs
  unfold decText at h
  split at h
  next hneg =>
    obtain ⟨hminus, htail⟩ := h.cons
    rw [State.parseInt_minus_digits hminus (htail.holdsDigits hdigits), hvalue, Int.ofNat_natAbs_of_nonpos hneg.le, neg_neg]
  next hpos =>
    have hsign : s.byteAt a ≠ 0x2D := by
      obtain ⟨b, ds, hcons⟩ := List.exists_cons_of_ne_nil hne
      rw [hcons] at h hdigits
      obtain ⟨hfirst, -⟩ := h.cons
      have hdigit : IsDecimalDigit b := hdigits b List.mem_cons_self
      rw [hfirst]
      rintro rfl
      unfold IsDecimalDigit at hdigit
      exact absurd hdigit (by decide)
    rw [State.parseInt_digits (h.holdsDigits hdigits) hsign, hvalue, Int.natAbs_of_nonneg (Int.not_lt.mp hpos)]

end

/-- R192: the text that `PRINT_INT` appends. -/
theorem text_of_exec_sysPrintInt {s t : State} {text : List Byte} (h : exec .sysPrintInt s = .next t)
    (htext : t.out = s.out ++ text) : text = decText (s.reg .ax).toInt := by
  cases h
  exact (List.append_cancel_left htext).symm

/-- Settles O41: the text is `Dec` of the signed word, which is parsed as that number and wrapped to the word again. -/
theorem atoiInvertsPrintInt : Obligations.AtoiInvertsPrintInt := by
  intro s t u text hprint htext hstring
  rw [text_of_exec_sysPrintInt hprint htext] at hstring
  have hword : wrap16 (s.reg .ax).toInt = s.reg .ax := BitVec.ofInt_toInt
  exact ⟨_, exec_sysAtoi_of_ok (State.parseInt_decText hstring), hword,
    fun _ hq => Regs.get_set_ne _ _ (List.ne_of_not_mem_cons hq), rfl, rfl⟩

/-! ### A store into the code region -/

/-- R50, R59: a word stored inside the code region is code there. -/
theorem State.holdsCode_storeWord {s : State} {a : Nat} (v : Word) (hwf : s.mem.wf = true)
    (hcode : a + 2 ≤ s.params.codeEnd) : (s.storeWord a v).HoldsCode a [loByte v, hiByte v] := by
  intro k hk
  match k, hk with
  | 0, _ => exact ⟨(Nat.lt_add_of_pos_right Nat.two_pos).trans_le hcode, State.byteAt_storeWord_lo a v hwf⟩
  | 1, _ => exact ⟨hcode, State.byteAt_storeWord_hi a v hwf⟩

/-- R8: the code region is inside memory. -/
theorem Params.codeEnd_le_of_consistent {p : Params} (h : p.consistent = true) : p.codeEnd ≤ p.memSize := by
  simp only [Params.consistent, Bool.and_eq_true, decide_eq_true_eq] at h
  obtain ⟨⟨⟨⟨-, himage⟩, hload⟩, hlimit⟩, hbase⟩ := h
  exact himage.trans (hload.trans (hlimit.trans hbase))

/-- Settles O57: the `MOV` of seven bytes stores the word at the very address that `pc` moves to. -/
theorem storeIntoCodeIsFetched : Obligations.StoreIntoCodeIsFetched := by
  intro s v i hrun hpar hwf hcode hiwf henc
  have hend := Params.codeEnd_le_of_consistent hpar
  have hsize := Params.memSize_lt_of_consistent hpar
  have hnext : (wrap16 ((s.pc.toNat : Int) + 7)).toNat = s.pc.toNat + 7 := by
    rw [show (s.pc.toNat : Int) + 7 = ((s.pc.toNat + 7 : Nat) : Int) from rfl, wrap16_toNat]
    omega
  have hfits : (wrap16 ((s.pc.toNat : Int) + 7)).toNat + 2 ≤ s.params.codeEnd := by omega
  have hrange : s.DstInRange (.mem (.abs (wrap16 ((s.pc.toNat : Int) + 7)))) := hfits.trans hend
  refine ⟨_, exec_mov_inRange trivial hrange, stepRunsTheInstructionAtPc _ i hrun hpar hiwf ?_⟩
  rw [henc]
  exact State.holdsCode_storeWord v hwf hfits

/-! ### Single definitions -/

/-- Settles O16. -/
theorem effectiveAddresses : Obligations.EffectiveAddresses :=
  fun _ _ _ => ⟨rfl, rfl, rfl⟩

/-- Settles O34. -/
theorem failureCodes : Obligations.FailureCodes :=
  ⟨rfl, rfl, rfl, rfl, rfl, rfl, rfl, fun _ => rfl⟩

end Sys2Proof.Machine
end

section
/-! SUPPORT. Properties of the rasterizer that 46_rasterizer.md derives from its rules: the path of a line (R216), how near the
points of a circle are to its radius (R215), and that drawing again changes nothing (section 3); O47, O48 and O49. -/

namespace Sys2Proof.Machine

/-! ### The path of a line -/

/-- A list of `n` points from `p` to `q` in which each point and the next are related by `R`. -/
structure PointPath (R : Point → Point → Prop) (p q : Point) (n : Nat) (ps : List Point) : Prop where
  length : ps.length = n
  head : ps.head? = some p
  last : ps.getLast? = some q
  chain : ps.IsChain R

namespace PointPath

variable {R : Point → Point → Prop} {p q r : Point} {n : Nat} {ps : List Point}

theorem single (p : Point) : PointPath R p p 1 [p] :=
  ⟨rfl, rfl, rfl, .singleton p⟩

theorem cons (hstep : R p q) (h : PointPath R q r n ps) : PointPath R p r (n + 1) (p :: ps) where
  length := by rw [List.length_cons, h.length]
  head := rfl
  last := by rw [List.getLast?_cons, h.last]; rfl
  chain := by
    obtain ⟨tail, rfl⟩ := List.head?_eq_some_iff.mp h.head
    exact h.chain.cons_cons hstep

theorem getElem_rel (h : PointPath R p q n ps) (k : Nat) (hk : k + 1 < ps.length) : R ps[k] ps[k + 1] :=
  h.chain.getElem k hk

end PointPath

section

variable {x1 y1 x2 y2 : Int}

/-- R216: `q` is the next point of the line after `p`, by a step of the sign of the line or none in each coordinate, not none in
both. -/
def LineStep (x1 y1 x2 y2 : Int) (p q : Point) : Prop :=
  (q.1 = p.1 ∨ q.1 = p.1 + lineSign x1 x2) ∧ (q.2 = p.2 ∨ q.2 = p.2 + lineSign y1 y2) ∧ q ≠ p

theorem ite_step_cases (c : Prop) [Decidable c] (z s : Int) :
    (if c then z + s else z) = z ∨ (if c then z + s else z) = z + s := by
  split
  · exact .inr rfl
  · exact .inl rfl

/-- R216: from a state that meets the invariant, with fuel for just the moves left and the last point, the loop plots a path to
the second end. A move is never none in both coordinates, for it makes the longer way left shorter. -/
theorem lineLoop_path {fuel : Nat} {x y err : Int}
    (h : LineInv |x2 - x1| |y2 - y1| (lineLeft x1 x2 x) (lineLeft y1 y2 y) err)
    (hfuel : max (lineLeft x1 x2 x) (lineLeft y1 y2 y) + 1 = fuel) :
    PointPath (LineStep x1 y1 x2 y2) (x, y) (x2, y2) fuel (lineLoop x1 y1 x2 y2 fuel x y err) := by
  induction fuel generalizing x y err with
  | zero =>
    have := h.u_nonneg
    omega
  | succ fuel ih =>
    rw [lineLoop, lineFrom]
    split
    next hend =>
      obtain ⟨rfl, rfl⟩ := hend
      have hx : lineLeft x1 x x = 0 := lineLeft_eq_zero.mpr rfl
      have hy : lineLeft y1 y y = 0 := lineLeft_eq_zero.mpr rfl
      obtain rfl : fuel = 0 := by rw [hx, hy] at hfuel; omega
      exact .single _
    next hgo =>
      obtain ⟨hnext, hfewer⟩ := h.step (by rwa [lineLeft_eq_zero, lineLeft_eq_zero])
      rw [← lineLeft_move, ← lineLeft_move] at hnext hfewer
      simp only [decide_eq_true_eq]
      refine .cons ⟨ite_step_cases _ _ _, ite_step_cases _ _ _, fun hsame => ?_⟩ (ih hnext (by omega))
      obtain ⟨hx, hy⟩ := Prod.mk.inj hsame
      rw [hx, hy] at hfewer
      omega

end

/-- Settles O47: the loop starts with fuel for just the moves from the first end to the second. -/
theorem linePathIsConnected : Obligations.LinePathIsConnected := by
  intro x1 y1 x2 y2
  have hpath : PointPath (LineStep x1 y1 x2 y2) (x1, y1) (x2, y2) (max (x2 - x1).natAbs (y2 - y1).natAbs + 1)
      (linePoints x1 y1 x2 y2) := by
    rw [linePoints_eq_lineLoop]
    refine lineLoop_path LineReaches.start.inv ?_
    rw [lineLeft_start, lineLeft_start, ← Int.natCast_natAbs, ← Int.natCast_natAbs]
    push_cast
    rfl
  exact ⟨hpath.length, hpath.head, hpath.last, hpath.getElem_rel⟩

/-! ### The points of a circle -/

/-- What R215's loop keeps. The decision term is that of the point half a row below the next column, and by it the squared
distance of `(x, y)` stays within `r` of `r²` as long as a point is plotted. -/
structure CircleInv (r x y d : Int) : Prop where
  x_nonneg : 0 ≤ x
  y_le : y ≤ r
  d_eq : d = x * x + y * y - r * r + 2 * x + 1 - y
  lower : r * r - y ≤ x * x + y * y
  upper : x ≤ y → x * x + y * y ≤ r * r + r

namespace CircleInv

variable {r x y d : Int}

theorem start (hr : 0 ≤ r) : CircleInv r 0 r (1 - r) := by
  constructor <;> omega

theorem straight (h : CircleInv r x y d) (hneg : d < 0) : CircleInv r (x + 1) y (d + 2 * x + 3) := by
  obtain ⟨hx, hy, hd, hlo, -⟩ := h
  have hsquare : (x + 1) * (x + 1) = x * x + 2 * x + 1 := by ring
  constructor <;> omega

/-- The bound from above is that of the point before, unless `x = y`: then the loop ends. -/
theorem diagonal (h : CircleInv r x y d) (hle : x ≤ y) (hpos : ¬ d < 0) :
    CircleInv r (x + 1) (y - 1) (d + 2 * (x - y) + 5) := by
  obtain ⟨hx, hy, hd, hlo, hhi⟩ := h
  have hsquare : (x + 1) * (x + 1) = x * x + 2 * x + 1 := by ring
  have hsquare' : (y - 1) * (y - 1) = y * y - 2 * y + 1 := by ring
  have hhi' := hhi hle
  constructor <;> omega

end CircleInv

theorem CircleReaches.inv {r x y d : Int} (hr : 0 ≤ r) (h : CircleReaches r x y d) : CircleInv r x y d := by
  induction h with
  | start => exact .start hr
  | straight _ _ hneg ih => exact ih.straight hneg
  | diagonal _ hle hpos ih => exact ih.diagonal hle hpos

/-- R215: the eight points of an iteration are at the same distance from the centre. -/
theorem CircleOffset.sum_squares {x y : Int} {p : Point} (h : CircleOffset x y p) :
    p.1 * p.1 + p.2 * p.2 = x * x + y * y := by
  rcases h with ⟨h1, h2⟩ | ⟨h1, h2⟩ <;> rw [Int.natAbs_eq_iff_mul_self_eq.mp h1, Int.natAbs_eq_iff_mul_self_eq.mp h2]
  exact add_comm _ _

/-- Settles O48: a plotted point is at the distance of a state that the loop reaches with `x ≤ y`. -/
theorem circlePointsAreNearRadius : Obligations.CirclePointsAreNearRadius := by
  intro cx cy r p hp
  obtain ⟨hr, x, y, d, hreach, hle, hoffset⟩ := mem_circlePoints_iff.mp hp
  obtain ⟨-, hy, -, hlo, hhi⟩ := hreach.inv hr
  rw [hoffset.sum_squares]
  exact ⟨by omega, hhi hle⟩

/-! ### Drawing twice -/

/-- R211: the point `p` is on the screen, and its pixel is the cell `k`. -/
def HitsCell (p : Point) (k : Nat) : Prop := onScreen p = true ∧ pixelKey p.1.toNat p.2.toNat = k

/-- R211, what `plot` does to each cell: one that is hit takes the colour, every other stays. -/
theorem read_plot {fb : Framebuffer} (c : BitVec 2) (p : Point) (k : Nat) (hwf : Cells.wf fb = true) :
    (HitsCell p k → Cells.read (plot c p fb) k = c) ∧ (¬ HitsCell p k → Cells.read (plot c p fb) k = Cells.read fb k) := by
  unfold plot
  split
  next hon =>
    refine ⟨?_, fun hmiss => Cells.read_write_ne fb c fun hk => hmiss ⟨hon, hk.symm⟩⟩
    rintro ⟨-, rfl⟩
    exact Cells.read_write_self _ c hwf
  next hoff => exact ⟨fun ⟨hon, _⟩ => absurd hon hoff, fun _ => rfl⟩

/-- What a whole primitive does to each cell. -/
theorem read_plotAll {fb : Framebuffer} (c : BitVec 2) (ps : List Point) (k : Nat) (hwf : Cells.wf fb = true) :
    ((∃ p ∈ ps, HitsCell p k) → Cells.read (plotAll c ps fb) k = c) ∧
    (¬ (∃ p ∈ ps, HitsCell p k) → Cells.read (plotAll c ps fb) k = Cells.read fb k) := by
  induction ps with
  | nil => exact ⟨fun ⟨_, hp, _⟩ => absurd hp List.not_mem_nil, fun _ => rfl⟩
  | cons p ps ih =>
    obtain ⟨hhit, hmiss⟩ := read_plot c p k (plotAll_wf c ps hwf)
    obtain ⟨hcovered, huncovered⟩ := ih
    simp only [List.mem_cons, exists_eq_or_imp]
    refine ⟨fun hany => ?_, fun hnone => ?_⟩
    · by_cases hp : HitsCell p k
      · exact hhit hp
      · exact (hmiss hp).trans (hcovered (hany.resolve_left hp))
    · obtain ⟨hp, hps⟩ := not_or.mp hnone
      exact (hmiss hp).trans (huncovered hps)

/-- 46_rasterizer.md section 3: the same points in the same colour again change nothing. -/
theorem plotAll_plotAll {fb : Framebuffer} (c : BitVec 2) (ps : List Point) (hwf : Cells.wf fb = true) :
    plotAll c ps (plotAll c ps fb) = plotAll c ps fb := by
  have hwf' := plotAll_wf c ps hwf
  refine Cells.ext (plotAll_wf c ps hwf') hwf' fun k => ?_
  obtain ⟨hcovered, huncovered⟩ := read_plotAll c ps k hwf'
  by_cases hany : ∃ p ∈ ps, HitsCell p k
  · exact (hcovered hany).trans ((read_plotAll c ps k hwf).1 hany).symm
  · exact huncovered hany

/-- Settles O49: the second run has the points and the colour of the first, for drawing keeps the registers and `COLOR`. -/
theorem drawingIsIdempotent : Obligations.DrawingIsIdempotent := by
  intro i hi s t u hwf hst htu
  cases i with
  | sysClearScreen =>
    cases hst
    cases htu
    rfl
  | sysDrawRect | sysDrawCircle | sysDrawLine =>
    cases hst
    cases htu
    exact plotAll_plotAll _ _ hwf
  | _ => simp at hi

end Sys2Proof.Machine
end
